-- ==== Sys2Proof/Word.lean ====
section
/-! DEFINITION. The register widths of the block (spec/00_scope.md R5, R7), as types. -/

namespace Sys2Proof

/-- A duration in microseconds, `DUR_W` = 32 bits (R5). -/
abbrev Dur := BitVec 32

/-- A pin number, `PIN_W` = 8 bits (R5). -/
abbrev Pin := BitVec 8

/-- A repetition count, `RETRIES_W` = 16 bits (R5). -/
abbrev Count := BitVec 16

/-- A frame in its integer view: the first bit sent is the most significant one (R6, R52). -/
abbrev Frame := BitVec 25

/-- A host register number; the register space is indexed by 4 bits (spec/20_memory.md R50). -/
abbrev RegNum := BitVec 4

end Sys2Proof
end

