-- ==== Sys2Proof/Config.lean ====
section
/-! DEFINITION. What is fixed for the machine: the constants of spec/00_scope.md R5, the two pulse pairs of
spec/30_encoding.md R78, and the values the spec leaves open, as constants with no body. -/

namespace Sys2Proof

/-- What the pin driver answers to an operation (spec/20_memory.md R54). -/
inductive Answer where
  | ok
  | fail
  deriving DecidableEq, Repr, Inhabited

/-- The two agents of spec/00_scope.md R10 that take steps. -/
inductive Mover where
  | host
  | sequencer
  deriving DecidableEq, Repr, Inhabited

/-- One pulse pair of spec/30_encoding.md R78: the nominal HIGH and LOW durations. -/
structure PulsePair where
  high : Dur
  low : Dur
  deriving DecidableEq, Repr

/-- `BIT_TIMING` (R5, R22, D5): which pulse pair belongs to which bit value, a bijection.
`standard` is the spec's default instantiation, `swapped` the other one. -/
inductive BitTiming where
  | standard
  | swapped
  deriving DecidableEq, Repr

namespace Config

/-- `PREAMBLE` (R5, R22, R72): 0,0,1,1,0,1,0,0,1,1, first listed sent first. -/
def preamble : BitVec 10 := 0b0011010011#10

/-- `STOP` (R5, R22, R76). -/
def stopBit : BitVec 1 := 1#1

/-- `FRAME_LEN`, the sum of the five field widths (R77, spec/90_conflicts.md C1). -/
def frameLen : Nat := 10 + 10 + 1 + 3 + 1

/-- `BROADCAST_ADDR` (R5). -/
def broadcastAddr : Nat := 6

/-- `PAIR_A` (R5, R78). -/
def pairA : PulsePair := { high := 938#32, low := 250#32 }

/-- `PAIR_B` (R5, R78). -/
def pairB : PulsePair := { high := 407#32, low := 781#32 }

/-- `GAP_DEFAULT` (R5). -/
def gapDefault : Dur := 20000#32

/-- `LATENCY_DEFAULT` (R5). -/
def latencyDefault : Dur := 80#32

/-- `BATCH_PAUSE` (R5, R86): microseconds of host time. -/
def batchPause : Nat := 200000

/-- `RETRIES_DEFAULT` (R5, D8): open in the spec, so nothing is known of it. Log 11. -/
opaque retriesDefault : Count

/-- The driver's answer to the n-th operation when the input stream scripts none (U10). Log 7. -/
opaque freeAnswer : Nat → Answer

/-- The overhead of the n-th timed interval when the input stream scripts none (R130, U9). Log 8. -/
opaque freeEps : Nat → Nat

/-- The setup time of the n-th acquisition when the input stream scripts none (R130, D29). Log 9. -/
opaque freeSetup : Nat → Nat

/-- Which agent moves the n-th time both could, when the input stream scripts none. Log 6. -/
opaque freeTurn : Nat → Mover

end Config
end Sys2Proof
end

