-- ==== Sys2Proof/Syntax.lean ====
section
/-! DEFINITION. The nineteen operations of spec/30_encoding.md R81, one constructor per row of
spec/opcode_table.json, and the forms in which an operation is written down (R71, R78, R81, R85). -/

namespace Sys2Proof

/-- The operations of the block (R81). Operands are the row's: a field of a frame has its field's width, a pin
number `PIN_W` bits, a held duration `DUR_W` bits, a host integer (R80, R85) is a natural number. `ACQ` and
`TRANSMIT` take their operands from the X_ copies and FRAME (R153, R158), so they carry none. -/
inductive Instr where
  /-- `ON g, a` (R101, R85). -/
  | on (g : BitVec 10) (a : BitVec 3)
  /-- `OFF g, a` (R102, R85). -/
  | off (g : BitVec 10) (a : BitVec 3)
  /-- `BIT0` (R124). -/
  | bit0
  /-- `BIT1` (R125). -/
  | bit1
  /-- `GAP` (R126). -/
  | gap
  /-- `SETHI p` (R121). -/
  | sethi (p : Pin)
  /-- `SETLO p` (R122). -/
  | setlo (p : Pin)
  /-- `HOLD d` (R120). -/
  | hold (d : Dur)
  /-- `WRCFG reg, value` (R150): any write of the register space that is not START. -/
  | wrcfg (r : RegNum) (value : Nat)
  /-- `RDREG reg` (R151). -/
  | rdreg (r : RegNum)
  /-- `START` (R152): a write to register 7 with bit 0 = 1. -/
  | start
  /-- `ACQ p` with p = X_PIN (R153). -/
  | acq
  /-- `DRVINIT` (R154). -/
  | drvinit
  /-- `CFGOUT p` (R155). -/
  | cfgout (p : Pin)
  /-- `TRANSMIT` of FRAME with (X_PIN, X_RETRIES, X_GAP, X_LAT) (R158). -/
  | transmit
  /-- `SEND g, a, v` (R164). -/
  | send (g a v : Nat)
  /-- `PAUSE d` (R165). -/
  | pause (d : Nat)
  /-- `BATCH G ; A ; v` (R166, R86). -/
  | batch (groups addrs : List Nat) (v : Nat)
  /-- `ALL g, v` (R167, R87). -/
  | all (g v : Nat)
  deriving DecidableEq, Repr

/-- The ten rows of spec/opcode_table.json whose pattern is `none`: an operation selected by its name (R81). -/
inductive OpName where
  | gap
  | hold
  | acq
  | drvinit
  | cfgout
  | transmit
  | send
  | pause
  | batch
  | all
  deriving DecidableEq, Repr

/-- An operation as it is written down: the bits of its format (R81) with what the format carries beside them,
or its name with its operand lists. -/
inductive Item where
  /-- Format FRAME25 (R71): the integer view of a frame. -/
  | frame25 (bits : Frame)
  /-- Format SYMBOL (R78, R81): the frame bit that selects the symbol. -/
  | symbol (bit : BitVec 1)
  /-- Format LEVEL (R81): the level bit, 1 HIGH, with the pin number beside it. -/
  | level (bit : BitVec 1) (p : Pin)
  /-- Format HOSTREG (R81): the pattern `w rrrr`, with the written value beside it. -/
  | hostreg (pattern : BitVec 5) (value : Nat)
  /-- Formats OP and pseudo (R81, R85): no bits, a name and its operands, one list each. -/
  | named (op : OpName) (args : List (List Nat))
  deriving DecidableEq, Repr

end Sys2Proof
end

