-- ==== Sys2Proof/WellFormed.lean ====
section
/-! DEFINITION. The one check on an instruction: a write to CTRL with bit 0 = 1 is spelled START. -/

namespace Sys2Proof

/-- Is this host access the START operation? Register 7 and bit 0 of the value set (R33, R81, R152). -/
def isStartWrite (r : RegNum) (value : Nat) : Bool :=
  r == 7#4 && value % 2 == 1

/-- Every operand combination is legal (R82); the one thing not well formed is a `WRCFG` that is really START
(R33: such a write IS the START operation). -/
def Instr.wellFormed : Instr → Bool
  | .wrcfg r value => !isStartWrite r value
  | .on _ _ => true
  | .off _ _ => true
  | .bit0 => true
  | .bit1 => true
  | .gap => true
  | .sethi _ => true
  | .setlo _ => true
  | .hold _ => true
  | .rdreg _ => true
  | .start => true
  | .acq => true
  | .drvinit => true
  | .cfgout _ => true
  | .transmit => true
  | .send _ _ _ => true
  | .pause _ => true
  | .batch _ _ _ => true
  | .all _ _ => true

end Sys2Proof
end

