-- ==== Sys2Proof/Decode.lean ====
section
/-! DEFINITION. Decoding of a written operation (spec/30_encoding.md R71 to R76, R81, R88), total, rejecting by
name; then the encoder; then the table's numbering of the patterns, `decodeTableWord`. -/

namespace Sys2Proof

/-- Why an item is no operation of the block. -/
inductive Reject where
  /-- A 25-bit pattern whose preamble is not `PREAMBLE` (R82, R88). -/
  | badPreamble
  /-- A 25-bit pattern whose last bit is not the stop bit (R82, R88). -/
  | badStop
  /-- A named operation with the wrong number of operands (R81). -/
  | badOperands
  /-- A held duration that does not fit `DUR_W` bits (R120). -/
  | holdTooWide
  /-- A pin number that does not fit `PIN_W` bits (R7, R155). -/
  | pinTooWide
  deriving DecidableEq, Repr

/-- What decoding answers. -/
inductive Decoded where
  | instr (i : Instr)
  | rejected (r : Reject)
  deriving DecidableEq, Repr

/-- The instruction, where there is one. -/
def Decoded.toOption : Decoded → Option Instr
  | .instr i => some i
  | .rejected _ => none

/-- Field `preamble`, bits[24:15] (R71). -/
def framePreamble (f : Frame) : BitVec 10 := f.extractLsb' 15 10

/-- Field `group`, bits[14:5] (R71, R73). -/
def frameGroup (f : Frame) : BitVec 10 := f.extractLsb' 5 10

/-- Field `value`, bit 4 (R71, R74). -/
def frameValue (f : Frame) : BitVec 1 := f.extractLsb' 4 1

/-- Field `address`, bits[3:1] (R71, R75). -/
def frameAddr (f : Frame) : BitVec 3 := f.extractLsb' 1 3

/-- Field `stop`, bit 0 (R71, R76). -/
def frameStop (f : Frame) : BitVec 1 := f.extractLsb' 0 1

/-- A frame the encoder can produce: it begins with the preamble and ends with the stop bit (R82). -/
def Producible (f : Frame) : Bool :=
  framePreamble f == Config.preamble && frameStop f == Config.stopBit

/-- Decoding of a FRAME25 word: the value bit selects between the two rows (R81). -/
def decodeFrame25 (f : Frame) : Decoded :=
  if framePreamble f ≠ Config.preamble then .rejected .badPreamble
  else if frameStop f ≠ Config.stopBit then .rejected .badStop
  else if frameValue f = 0#1 then .instr (.on (frameGroup f) (frameAddr f))
  else .instr (.off (frameGroup f) (frameAddr f))

/-- The decode helper of R88: group, address and `on` of a producible frame, undefined (none) otherwise. -/
def decodeFrame (f : Frame) : Option (BitVec 10 × BitVec 3 × Bool) :=
  if Producible f then some (frameGroup f, frameAddr f, frameValue f == 0#1) else none

/-- The write bit `w` of the pattern `w rrrr` (R81). -/
def hostregWrite (pattern : BitVec 5) : BitVec 1 := pattern.extractLsb' 4 1

/-- The register number `rrrr` of the pattern `w rrrr` (R81). -/
def hostregNum (pattern : BitVec 5) : RegNum := pattern.extractLsb' 0 4

/-- Decoding of a host access: reads, START (register 7 with bit 0 of the value set), other writes (R33, R81). -/
def decodeHostreg (pattern : BitVec 5) (value : Nat) : Instr :=
  if hostregWrite pattern = 0#1 then .rdreg (hostregNum pattern)
  else if isStartWrite (hostregNum pattern) value then .start
  else .wrcfg (hostregNum pattern) value

/-- A held duration given as a host integer (R120: `DUR_W` bits). -/
def decodeHold (d : Nat) : Decoded :=
  if d < 2 ^ 32 then .instr (.hold (BitVec.ofNat 32 d)) else .rejected .holdTooWide

/-- A pin number given as a host integer (R155: `PIN_W` bits). -/
def decodeCfgout (p : Nat) : Decoded :=
  if p < 2 ^ 8 then .instr (.cfgout (BitVec.ofNat 8 p)) else .rejected .pinTooWide

/-- Decoding of an operation that has a name and no bits (R81, R85). -/
def decodeNamed (op : OpName) (args : List (List Nat)) : Decoded :=
  match op, args with
  | .gap, [] => .instr .gap
  | .hold, [[d]] => decodeHold d
  | .acq, [] => .instr .acq
  | .drvinit, [] => .instr .drvinit
  | .cfgout, [[p]] => decodeCfgout p
  | .transmit, [] => .instr .transmit
  | .send, [[g], [a], [v]] => .instr (.send g a v)
  | .pause, [[d]] => .instr (.pause d)
  | .batch, [groups, addrs, [v]] => .instr (.batch groups addrs v)
  | .all, [[g], [v]] => .instr (.all g v)
  | _, _ => .rejected .badOperands

/-- Decoding of any item. -/
def decode : Item → Decoded
  | .frame25 f => decodeFrame25 f
  | .symbol b => .instr (if b = 0#1 then .bit0 else .bit1)
  | .level b p => .instr (if b = 1#1 then .sethi p else .setlo p)
  | .hostreg pattern value => .instr (decodeHostreg pattern value)
  | .named op args => decodeNamed op args

/-- The 25 bits of a frame, field by field in the order of R71: preamble, group, value, address, stop. -/
def frameWord (g : BitVec 10) (v : BitVec 1) (a : BitVec 3) : Frame :=
  Config.preamble ++ g ++ v ++ a ++ Config.stopBit

/-- The pattern `1 rrrr` of a write (R81). -/
def writePattern (r : RegNum) : BitVec 5 := 1#1 ++ r

/-- The pattern `0 rrrr` of a read (R81). -/
def readPattern (r : RegNum) : BitVec 5 := 0#1 ++ r

/-- The item of an instruction, from the rows of R81. -/
def encode : Instr → Item
  | .on g a => .frame25 (frameWord g 0#1 a)
  | .off g a => .frame25 (frameWord g 1#1 a)
  | .bit0 => .symbol 0#1
  | .bit1 => .symbol 1#1
  | .gap => .named .gap []
  | .sethi p => .level 1#1 p
  | .setlo p => .level 0#1 p
  | .hold d => .named .hold [[d.toNat]]
  | .wrcfg r value => .hostreg (writePattern r) value
  | .rdreg r => .hostreg (readPattern r) 0
  | .start => .hostreg (writePattern 7#4) 1
  | .acq => .named .acq []
  | .drvinit => .named .drvinit []
  | .cfgout p => .named .cfgout [[p.toNat]]
  | .transmit => .named .transmit []
  | .send g a v => .named .send [[g], [a], [v]]
  | .pause d => .named .pause [[d]]
  | .batch groups addrs v => .named .batch [groups, addrs, [v]]
  | .all g v => .named .all [[g], [v]]

/-- The row of spec/opcode_table.json whose match and mask the item's bits meet, by mnemonic; a named item has no
pattern and meets none. The nine rows that have a pattern (R81). -/
def matchesRow (bits mask pat : Nat) : Bool := bits &&& mask == pat

/-- Does the item carry the bits the row of this instruction requires (match and mask of the table)? -/
def rowMatches : Instr → Item → Bool
  | .on _ _, .frame25 f => matchesRow f.toNat 0x1FF8011 0x0698001
  | .off _ _, .frame25 f => matchesRow f.toNat 0x1FF8011 0x0698011
  | .bit0, .symbol b => matchesRow b.toNat 0x1 0x0
  | .bit1, .symbol b => matchesRow b.toNat 0x1 0x1
  | .sethi _, .level b _ => matchesRow b.toNat 0x1 0x1
  | .setlo _, .level b _ => matchesRow b.toNat 0x1 0x0
  | .wrcfg _ _, .hostreg pattern _ => matchesRow pattern.toNat 0x10 0x10
  | .rdreg _, .hostreg pattern _ => matchesRow pattern.toNat 0x10 0x00
  | .start, .hostreg pattern _ => matchesRow pattern.toNat 0x1F 0x17
  | .gap, .named op _ => op == .gap
  | .hold _, .named op _ => op == .hold
  | .acq, .named op _ => op == .acq
  | .drvinit, .named op _ => op == .drvinit
  | .cfgout _, .named op _ => op == .cfgout
  | .transmit, .named op _ => op == .transmit
  | .send _ _ _, .named op _ => op == .send
  | .pause _, .named op _ => op == .pause
  | .batch _ _ _, .named op _ => op == .batch
  | .all _ _, .named op _ => op == .all
  | _, _ => false

/-- The written value that goes with a HOSTREG pattern of the table: the pattern 10111 is the row START, whose
value has bit 0 = 1 (R81); every other operand word is zero. -/
def tableValue (pattern : BitVec 5) : Nat :=
  if pattern = 0b10111#5 then 1 else 0

/-- The item a table word stands for. A word of 25 to 32 bits is a FRAME25 word. A shorter one is a SYMBOL bit if it
is 0 or 1, else a HOSTREG pattern; 5 bits are always a HOSTREG pattern. The table gives the words 0 and 1 to rows
of three formats, and the format is no part of a word: the first row in the table's order is taken (log 2). -/
def tableItem (nbits w : Nat) : Option Item :=
  if 25 ≤ nbits then
    if nbits ≤ 32 && w < 2 ^ 25 then some (.frame25 (BitVec.ofNat 25 w)) else none
  else if nbits ≤ 8 then
    if w < 2 && nbits != 5 then some (.symbol (BitVec.ofNat 1 w))
    else if w < 2 ^ 5 then some (.hostreg (BitVec.ofNat 5 w) (tableValue (BitVec.ofNat 5 w)))
    else none
  else none

/-- The instruction the decoder reads from a word of spec/opcode_table.json. -/
def decodeTableWord (nbits w : Nat) : Option Instr :=
  match tableItem nbits w with
  | some item => (decode item).toOption
  | none => none

end Sys2Proof
end

