-- ==== Sys2Proof/Machine/State.lean ====
section
/-! DEFINITION. The state of the block (spec/10_state.md R20 to R32), the model's own inputs and bookkeeping, the
reasons a step can stop, and the state after reset. -/

namespace Sys2Proof.Machine

/-- What the sequencer does next (R26). The numeric coding is not fixed by the spec, so there is none. -/
inductive Phase where
  | idle
  | acq
  | setHi
  | holdHi
  | setLo
  | holdLo
  | holdGap
  deriving DecidableEq, Repr

/-- `SEQ = (PHASE, REP, BIT)`, the sequencer position (R26). -/
structure Seq where
  phase : Phase
  rep : Count
  bit : BitVec 5
  deriving DecidableEq, Repr

/-- A line level (spec/00_scope.md R8, R30). -/
inductive Level where
  | high
  | low
  | unknown
  deriving DecidableEq, Repr

/-- The failure causes of spec/60_exceptions.md R190, the values of `ERR`. -/
inductive Failure where
  | none
  | pinInit
  | pinWrite
  | encoding
  deriving DecidableEq, Repr

/-- An event of the trace (spec/42_frame_repeater.md R170). -/
inductive Event where
  | drvInit
  | cfgOut (p : Pin)
  | set (p : Pin) (level : Level)
  | hold (d : Dur)
  deriving DecidableEq, Repr

/-- A record of time that passed (model bookkeeping, log 20): the setup draw of an acquisition, a timed interval
with its level, held duration and overhead (spec/41_pulse_transmitter.md R130), or a pause of the host (R165). -/
inductive Timed where
  | setup (t : Nat)
  | interval (level : Level) (held : Dur) (eps : Nat)
  | pause (d : Nat)
  deriving DecidableEq, Repr

/-- An input of the machine as plain data: the values scripted to come next, and how many were drawn so far. Past
the script a value is free: an opaque constant of Config applied to `used`. -/
structure Stream (α : Type) where
  script : List α
  used : Nat
  deriving DecidableEq, Repr

/-- Who raises it, and how it errs. -/
inductive Fault where
  /-- Raised by `step` in a state with FAULTED true: a run there has no meaning (R169, R226). Safe: the machine stops
  where hardware goes on, so nothing can be proved of what follows. -/
  | meaninglessRun
  deriving DecidableEq, Repr

/-- Who raises it, and how it errs. -/
inductive Refusal where
  /-- Raised by `exec` alone, for an instruction with no meaning yet. Safe. No arm raises it now. -/
  | notModelled (mnemonic : String)
  /-- Raised by START, and by the host macros that give START, while CFG_PIN was never written (R35, U6: refused, no
  step is taken). Safe. -/
  | startPinUnwritten
  /-- Raised by `step` when the next item is no operation of the block (R82: such a pattern can never be sent). Safe. -/
  | undecodable (why : Reject)
  deriving DecidableEq, Repr

/-- All the state of the block (R20), then the model's own fields. -/
@[ext]
structure State where
  /-- `CMD_GROUP`, `CMD_ADDR`, `CMD_ON` (R21). -/
  cmdGroup : BitVec 10
  cmdAddr : BitVec 3
  cmdOn : BitVec 1
  /-- `FRAME` (R23). -/
  frame : Frame
  /-- `CFG_PIN` with its written mark (R24, R35). -/
  cfgPin : Pin
  cfgPinWritten : Bool
  /-- `CFG_RETRIES`, `CFG_GAP`, `CFG_LATENCY` (R24). -/
  cfgRetries : Count
  cfgGap : Dur
  cfgLatency : Dur
  /-- `X_PIN`, `X_RETRIES`, `X_GAP`, `X_LAT` (R25). -/
  xPin : Pin
  xRetries : Count
  xGap : Dur
  xLat : Dur
  /-- The assignment that `T[0]` and `T[1]` hold: hardwired, no operation writes it (R22). -/
  bitTiming : BitTiming
  /-- `SEQ` and `TIMER` (R26). -/
  seq : Seq
  timer : Dur
  /-- `BUSY`, `DONE`, `ERR` (R27). -/
  busy : Bool
  done : Bool
  err : Failure
  /-- `GPIO_INIT` (R28). -/
  gpioInit : Bool
  /-- `CONFIGURED`, one bit per pin number (R29). -/
  configured : BitVec 256
  /-- `LEVEL[p]` for every pin number p (R30). -/
  levels : Vector Level 256
  /-- `TRACE` and `FAULTED` (R31). -/
  trace : List Event
  faulted : Bool
  /-- Model's own: the items handed to the machine and not yet run (log 1). -/
  prog : List Item
  /-- Model's own: what the last RDREG returned (R151, log 16). -/
  readData : BitVec 32
  /-- Model's own: the time that passed, oldest record first (log 20). -/
  times : List Timed
  /-- Model's own inputs: driver answers, interval overheads, setup times, who moves (log 6 to 9, 26). -/
  answers : Stream Answer
  eps : Stream Nat
  setups : Stream Nat
  turns : Stream Mover
  deriving DecidableEq, Repr

/-- Nothing scripted, nothing drawn: every value is free (log 26). -/
def Stream.free (α : Type) : Stream α := { script := [], used := 0 }

/-- The state after reset (R32, R220). The registers R32 calls unspecified are zero by the model's choice (log 10);
`CFG_RETRIES` is the open parameter (log 11); `bitTiming` is the default instantiation (log 12). -/
def State.reset : State :=
  { cmdGroup := 0, cmdAddr := 0, cmdOn := 0
    frame := 0
    cfgPin := 0, cfgPinWritten := false
    cfgRetries := Config.retriesDefault
    cfgGap := Config.gapDefault
    cfgLatency := Config.latencyDefault
    xPin := 0, xRetries := 0, xGap := 0, xLat := 0
    bitTiming := .standard
    seq := { phase := .idle, rep := 0, bit := 0 }
    timer := 0
    busy := false, done := false, err := .none
    gpioInit := false
    configured := 0
    levels := Vector.replicate 256 .unknown
    trace := [], faulted := false
    prog := [], readData := 0, times := []
    answers := Stream.free Answer
    eps := Stream.free Nat
    setups := Stream.free Nat
    turns := Stream.free Mover }

end Sys2Proof.Machine
end

