-- ==== Sys2Proof/Machine/Flags.lean ====
section
/-! DEFINITION. The status fields BUSY, DONE, ERR (spec/10_state.md R27, R33, spec/60_exceptions.md R190): the code of a
failure and the STATUS word. The three events that write the flags, START, completion and failure, are the operations
`State.startRun`, `State.finish` and `State.raise` of Ops; there are no arithmetic condition codes (R27). -/

namespace Sys2Proof.Machine

/-- The two bits of `ERR` (R190). -/
def Failure.code : Failure → BitVec 2
  | .none => 0#2
  | .pinInit => 1#2
  | .pinWrite => 2#2
  | .encoding => 3#2

/-- The `STATUS` register: bit 0 BUSY, bit 1 DONE, bits[3:2] ERR (R33). -/
def State.statusWord (s : State) : BitVec 4 :=
  s.err.code ++ BitVec.ofBool s.done ++ BitVec.ofBool s.busy

end Sys2Proof.Machine
end

