-- ==== Sys2Proof/Machine/Operands.lean ====
section
/-! DEFINITION. Operand forms: the encoder's assembly of a frame (spec/30_encoding.md R71 to R76, R80,
spec/40_frame_encoder.md R100), the bit of the frame in progress, the durations of a symbol and of the gap
(spec/41_pulse_transmitter.md R123, R129), and the host's register map (spec/10_state.md R33, R34). -/

namespace Sys2Proof.Machine

/-- The wire value bit: 0 when `on` is true, 1 when it is false (R74). -/
def valueBit (on : Bool) : BitVec 1 := if on then 0#1 else 1#1

/-- `ENCODE(group, address, on)` (R100): the operands reduced to their field widths, the value bit inverted, the five
fields in order. -/
def encodeFrame (group address : Nat) (on : Bool) : Frame :=
  frameWord (BitVec.ofNat 10 group) (valueBit on) (BitVec.ofNat 3 address)

/-- `F[i]`, the bit at sequence index i, index 0 sent first (R6). -/
def frameBit (f : Frame) (i : Nat) : Bool := f.getMsbD i

/-- The bits of a frame in the order of sending (R51). -/
def frameBits (f : Frame) : List Bool := (List.range Config.frameLen).map (frameBit f)

/-- The bit in progress, `FRAME[BIT]` (R161). -/
def State.currentBit (s : State) : Bool := frameBit s.frame s.seq.bit.toNat

/-- The frame START stores, `ENCODE(CMD_GROUP, CMD_ADDR, CMD_ON)` (R152). -/
def State.commandFrame (s : State) : Frame :=
  encodeFrame s.cmdGroup.toNat s.cmdAddr.toNat (s.cmdOn == 1#1)

/-- `T[b]` under an assignment of the pulse pairs (R22, R78). -/
def pulse (timing : BitTiming) (b : Bool) : PulsePair :=
  match timing, b with
  | .standard, false => Config.pairA
  | .standard, true => Config.pairB
  | .swapped, false => Config.pairB
  | .swapped, true => Config.pairA

/-- `sat(a, c) = max(0, a - c)` on naturals (R129). -/
def sat (a c : Dur) : Dur := if c ≤ a then a - c else 0

/-- `held_high(b)` (R123). -/
def State.heldHigh (s : State) (b : Bool) : Dur := sat (pulse s.bitTiming b).high s.xLat

/-- `held_low(b)` (R123). -/
def State.heldLow (s : State) (b : Bool) : Dur := sat (pulse s.bitTiming b).low s.xLat

/-- `held_gap` (R123). -/
def State.heldGap (s : State) : Dur := sat s.xGap s.xLat

/-- A host write to an operand or configuration register, reduced modulo 2^width (R33, R34); registers 8 and 9 and all
higher numbers ignore it, and so does register 7, whose START is a separate operation. -/
def State.storeReg (s : State) (r : RegNum) (value : Nat) : State :=
  match r.toNat with
  | 0 => { s with cmdGroup := BitVec.ofNat 10 value }
  | 1 => { s with cmdAddr := BitVec.ofNat 3 value }
  | 2 => { s with cmdOn := BitVec.ofNat 1 value }
  | 3 => { s with cfgPin := BitVec.ofNat 8 value, cfgPinWritten := true }
  | 4 => { s with cfgRetries := BitVec.ofNat 16 value }
  | 5 => { s with cfgGap := BitVec.ofNat 32 value }
  | 6 => { s with cfgLatency := BitVec.ofNat 32 value }
  | _ => s

end Sys2Proof.Machine
end

