-- ==== Sys2Proof/Machine/Ops.lean ====
section
/-! DEFINITION. The named operations the meanings are made of: drawing from the inputs, the pin state, the trace, the
failure entry (spec/60_exceptions.md R197) with the completion beside it, the driver operations (spec/20_memory.md
R54), the hold (spec/41_pulse_transmitter.md R120), and the host's register accesses. -/

namespace Sys2Proof.Machine

/-- The next value of an input: the script's, or the free one. -/
def Stream.head {α : Type} (free : Nat → α) (x : Stream α) : α :=
  match x.script with
  | v :: _ => v
  | [] => free x.used

/-- The input after one value was drawn. -/
def Stream.tail {α : Type} (x : Stream α) : Stream α :=
  { script := x.script.tail, used := x.used + 1 }

/-- What the driver will answer to the next operation (R54, U10). -/
def State.answer (s : State) : Answer := s.answers.head Config.freeAnswer

/-- The overhead of the next timed interval, `eps_k` (R130). -/
def State.nextEps (s : State) : Nat := s.eps.head Config.freeEps

/-- The setup time of the next acquisition, `t_setup` (R130, D29). -/
def State.nextSetup (s : State) : Nat := s.setups.head Config.freeSetup

/-- Which agent moves next where both could. -/
def State.turn (s : State) : Mover := s.turns.head Config.freeTurn

/-- An answer was given. -/
def State.popAnswer (s : State) : State := { s with answers := s.answers.tail }

/-- A choice of mover was used. -/
def State.popTurn (s : State) : State := { s with turns := s.turns.tail }

/-- `emit(e)`: append to the trace (R7, R170). -/
def State.emit (s : State) (e : Event) : State := { s with trace := s.trace ++ [e] }

/-- `LEVEL[p]` (R30). -/
def State.level (s : State) (p : Pin) : Level := s.levels[p.toNat]'p.isLt

/-- `LEVEL[p] <- l` (R30). -/
def State.setLevel (s : State) (p : Pin) (l : Level) : State :=
  { s with levels := s.levels.set p.toNat l p.isLt }

/-- Is p in `CONFIGURED`? (R29) -/
def State.isConfigured (s : State) (p : Pin) : Bool := s.configured.getLsbD p.toNat

/-- `CONFIGURED <- CONFIGURED + {p}` (R155). -/
def State.addConfigured (s : State) (p : Pin) : State :=
  { s with configured := s.configured ||| BitVec.twoPow 256 p.toNat }

/-- `GPIO_INIT <- 1` (R154). -/
def State.setGpioInit (s : State) : State := { s with gpioInit := true }

/-- `SEQ <- (phase, rep, bit)` (R7). -/
def State.moveTo (s : State) (phase : Phase) (rep : Count) (bit : BitVec 5) : State :=
  { s with seq := { phase := phase, rep := rep, bit := bit } }

/-- `FAULTED` set, for good (R226). -/
def State.setFaulted (s : State) : State := { s with faulted := true }

/-- `raise <Failure>`: the failure entry, one atomic step (R197). The trace is not appended to, and neither the
frame, the X_ copies, the operand and configuration registers, GPIO_INIT, CONFIGURED nor the line is touched. -/
def State.raise (s : State) (f : Failure) : State :=
  { s with
    err := f, busy := false, done := false
    seq := { phase := .idle, rep := 0, bit := 0 }, timer := 0 }

/-- *finish*: the completion of a transmission (R158, R161). There is no return from a failure (R198), so this and a new
START are the only ways on. -/
def State.finish (s : State) : State :=
  { s with busy := false, done := true, seq := { phase := .idle, rep := 0, bit := 0 } }

/-- How an operation ends: it ran to its end; it ended early in the state after a failure or a hazard, and nothing after
it is done; or it is refused. -/
inductive Res where
  | ok (s : State)
  | stopped (s : State)
  | refused (r : Refusal)
  deriving DecidableEq, Repr

/-- Go on with `f` after an operation that ran to its end; nothing after a failure is done (R197). -/
def Res.andThen (r : Res) (f : State → Res) : Res :=
  match r with
  | .ok s => f s
  | .stopped s => .stopped s
  | .refused why => .refused why

/-- The outcome of a whole instruction: a failure entry is a next state (R197). -/
def Res.outcome (r : Res) : Host.Outcome State Fault Refusal :=
  match r with
  | .ok s => .next s
  | .stopped s => .next s
  | .refused why => .refused why

/-- After a `Set(p, level)` answered ok: the level is written and the event recorded (R121, R122). -/
def State.setOk (s : State) (p : Pin) (l : Level) : State := (s.popAnswer.setLevel p l).emit (.set p l)

/-- After a `Set(p, level)` answered fail: the level is UNKNOWN and PIN_WRITE_FAILURE is raised (R121, R122, R193). -/
def State.setFail (s : State) (p : Pin) : State := (s.popAnswer.setLevel p .unknown).raise .pinWrite

/-- After a `DrvInit` answered ok: GPIO_INIT is set and the event recorded (R154). -/
def State.initOk (s : State) : State := s.popAnswer.setGpioInit.emit .drvInit

/-- After a `CfgOut(p)` answered ok: p joins CONFIGURED and the event is recorded, the level staying as it was (R155). -/
def State.cfgOk (s : State) (p : Pin) : State := (s.popAnswer.addConfigured p).emit (.cfgOut p)

/-- After a `DrvInit` or `CfgOut(p)` answered fail: PIN_INIT_FAILURE is raised (R154, R155, R192). -/
def State.acqFail (s : State) : State := s.popAnswer.raise .pinInit

/-- `Set(p, level)` (R54, R121, R122). -/
def doSet (p : Pin) (l : Level) (s : State) : Res :=
  match s.answer with
  | .ok => .ok (s.setOk p l)
  | .fail => .stopped (s.setFail p)

/-- `DrvInit` (R54, R154). -/
def doDrvInit (s : State) : Res :=
  match s.answer with
  | .ok => .ok s.initOk
  | .fail => .stopped s.acqFail

/-- `CfgOut(p)` (R54, R155). -/
def doCfgOut (p : Pin) (s : State) : Res :=
  match s.answer with
  | .ok => .ok (s.cfgOk p)
  | .fail => .stopped s.acqFail

/-- `TIMER <- d` (R120). -/
def State.loadTimer (s : State) (d : Dur) : State := { s with timer := d }

/-- One microsecond of a hold: `TIMER <- TIMER - 1` (R120, R201). -/
def State.tick (s : State) : State := { s with timer := s.timer - 1 }

/-- The loop of R120: n microseconds of a hold. `Laws.Ops.doHold_eq_ticks` proves that `doHold` is this loop. -/
def State.ticks : Nat → State → State
  | 0, s => s
  | n + 1, s => State.ticks n s.tick

/-- The record of a timed interval: the level of line X_PIN, the held duration, the overhead drawn (R130). -/
def State.recordInterval (s : State) (d : Dur) : State :=
  { s with
    times := s.times ++ [.interval (s.level s.xPin) d s.nextEps]
    eps := s.eps.tail }

/-- The record of an acquisition's setup time (R130, D29). -/
def State.recordSetup (s : State) : State :=
  { s with times := s.times ++ [.setup s.nextSetup], setups := s.setups.tail }

/-- The record of a pause of the host (R165). -/
def State.recordPause (s : State) (d : Nat) : State := { s with times := s.times ++ [.pause d] }

/-- `HOLD(d)` (R120): TIMER goes from d to 0 and the hold is recorded, `Hold(0)` too. It cannot fail. The whole count is
one step, which lasts d us (R10, R161; log 22). -/
def doHold (d : Dur) (s : State) : State := ((s.loadTimer 0).recordInterval d).emit (.hold d)

/-- The host's read of a register (R33, R151): CTRL reads as 0, numbers above 9 read as 0. -/
def State.loadReg (s : State) (r : RegNum) : BitVec 32 :=
  match r.toNat with
  | 0 => s.cmdGroup.setWidth 32
  | 1 => s.cmdAddr.setWidth 32
  | 2 => s.cmdOn.setWidth 32
  | 3 => s.cfgPin.setWidth 32
  | 4 => s.cfgRetries.setWidth 32
  | 5 => s.cfgGap
  | 6 => s.cfgLatency
  | 8 => s.statusWord.setWidth 32
  | 9 => s.frame.setWidth 32
  | _ => 0

/-- START where it is accepted: the frame and the configuration are sampled in one atomic step and the sequencer is put
at the acquisition (R59, R152). -/
def State.startRun (s : State) : State :=
  { s with
    frame := s.commandFrame
    xPin := s.cfgPin
    xRetries := s.cfgRetries
    xGap := s.cfgGap
    xLat := s.cfgLatency
    busy := true, done := false, err := .none
    seq := { phase := .acq, rep := 0, bit := 0 } }

/-- START with its preconditions (R152): while BUSY a hazard violation (R226), with CFG_PIN unwritten refused (R35). -/
def doStart (s : State) : Res :=
  if s.busy then .stopped s.setFaulted
  else if s.cfgPinWritten then .ok s.startRun
  else .refused .startPinUnwritten

/-- A host write of any register (R33, R36): a write to CTRL with bit 0 = 1 is START. -/
def doHostWrite (r : RegNum) (value : Nat) (s : State) : Res :=
  if isStartWrite r value then doStart s else .ok (s.storeReg r value)

end Sys2Proof.Machine
end

