-- ==== Sys2Proof/Machine/Pulse.lean ====
section
/-! DEFINITION. Family 41, the pulse-timing driver (spec/41_pulse_transmitter.md): HOLD, SETHI, SETLO, BIT0, BIT1, GAP.
Throughout, the pin of a symbol is X_PIN and the correction X_LAT. -/

namespace Sys2Proof.Machine

/-- One symbol (R124, R125): HIGH for `held_high(b)`, then LOW for `held_low(b)`; it stops at a failing Set. -/
def doSymbol (b : Bool) (s : State) : Res :=
  (doSet s.xPin .high s).andThen fun s1 =>
    (doSet s1.xPin .low (doHold (s1.heldHigh b) s1)).andThen fun s2 =>
      .ok (doHold (s2.heldLow b) s2)

/-- The gap (R126): one hold, no pin operation. -/
def doGap (s : State) : State := doHold s.heldGap s

/-- `HOLD d` (R120). -/
def execHold (d : Dur) (s : State) : Host.Outcome State Fault Refusal := .next (doHold d s)

/-- `SETHI p` (R121). -/
def execSetHi (p : Pin) (s : State) : Host.Outcome State Fault Refusal := (doSet p .high s).outcome

/-- `SETLO p` (R122). -/
def execSetLo (p : Pin) (s : State) : Host.Outcome State Fault Refusal := (doSet p .low s).outcome

/-- `BIT0` (R124). -/
def execBit0 (s : State) : Host.Outcome State Fault Refusal := (doSymbol false s).outcome

/-- `BIT1` (R125). -/
def execBit1 (s : State) : Host.Outcome State Fault Refusal := (doSymbol true s).outcome

/-- `GAP` (R126). -/
def execGap (s : State) : Host.Outcome State Fault Refusal := .next (doGap s)

end Sys2Proof.Machine
end

