-- ==== Sys2Proof/Machine/Repeater.lean ====
section
/-! DEFINITION. Family 42, the frame repeater (spec/42_frame_repeater.md): WRCFG, RDREG, START, ACQ, DRVINIT, CFGOUT,
TRANSMIT. -/

namespace Sys2Proof.Machine

/-- `DRVINIT` where GPIO_INIT is 0, nothing where it is 1 (R153). -/
def drvInitIfNeeded (s : State) : Res := if s.gpioInit then .ok s else doDrvInit s

/-- `CFGOUT p` where p is not in CONFIGURED, nothing where it is (R153). -/
def cfgOutIfNeeded (p : Pin) (s : State) : Res := if s.isConfigured p then .ok s else doCfgOut p s

/-- `ACQ(p)` with p = X_PIN (R153): the driver is initialised and the line an output, each once. The setup time is drawn
here (R130, D29; log 9). -/
def doAcq (s : State) : Res :=
  (drvInitIfNeeded s.recordSetup).andThen fun s1 => cfgOutIfNeeded s1.xPin s1

/-- The inner loop of R158: one symbol per bit, in order. -/
def sendBits : List Bool → State → Res
  | [], s => .ok s
  | b :: rest, s => (doSymbol b s).andThen fun s1 => sendBits rest s1

/-- One repetition (R158, R159): the 25 symbols of FRAME, then the gap, after the last frame too. -/
def sendFrame (s : State) : Res :=
  (sendBits (frameBits s.frame) s).andThen fun s1 => .ok (doGap s1)

/-- The outer loop of R158: n repetitions. -/
def sendFrames : Nat → State → Res
  | 0, s => .ok s
  | n + 1, s => (sendFrame s).andThen fun s1 => sendFrames n s1

/-- `TRANSMIT(FRAME, (X_PIN, X_RETRIES, X_GAP, X_LAT))`, the big step (R158, R160). -/
def doTransmit (s : State) : Res :=
  (doAcq s).andThen fun s1 =>
    (sendFrames s1.xRetries.toNat s1).andThen fun s2 => .ok s2.finish

/-- `WRCFG reg, value` (R150, R33, R34). -/
def execWrcfg (r : RegNum) (value : Nat) (s : State) : Host.Outcome State Fault Refusal :=
  (doHostWrite r value s).outcome

/-- `RDREG reg` (R151): the value read is returned, nothing else changes. -/
def execRdreg (r : RegNum) (s : State) : Host.Outcome State Fault Refusal :=
  .next { s with readData := s.loadReg r }

/-- `START` (R152). -/
def execStart (s : State) : Host.Outcome State Fault Refusal := (doStart s).outcome

/-- `ACQ p` (R153). -/
def execAcq (s : State) : Host.Outcome State Fault Refusal := (doAcq s).outcome

/-- `DRVINIT` (R154). -/
def execDrvinit (s : State) : Host.Outcome State Fault Refusal := (doDrvInit s).outcome

/-- `CFGOUT p` (R155). -/
def execCfgout (p : Pin) (s : State) : Host.Outcome State Fault Refusal := (doCfgOut p s).outcome

/-- `TRANSMIT` (R158). -/
def execTransmit (s : State) : Host.Outcome State Fault Refusal := (doTransmit s).outcome

end Sys2Proof.Machine
end

