-- ==== Sys2Proof/Machine/HostMacros.lean ====
section
/-! DEFINITION. The host macros of family 42 (spec/42_frame_repeater.md R164 to R167, spec/30_encoding.md R85 to R87):
SEND, PAUSE, BATCH, ALL. While the host waits in SEND it does nothing else, so the sequencer runs alone to the end of
its run (R164, log 5). -/

namespace Sys2Proof.Machine

/-- The host's program stops with the failure that ended a SEND (R164): nothing of it is left to run (log 19). -/
def State.stopProgram (s : State) : State := { s with prog := [] }

/-- The wait of SEND and what follows it (R164): the sequencer runs to BUSY = 0, and on ERR != 0 the host's program
stops. -/
def waitRun (s : State) : Res :=
  match doTransmit s with
  | .ok t => .ok t
  | .stopped t => .stopped t.stopProgram
  | .refused r => .refused r

/-- The three operand writes of SEND (R164). -/
def State.writeCommand (s : State) (g a v : Nat) : State :=
  ((s.storeReg 0 g).storeReg 1 a).storeReg 2 v

/-- `SEND(g, a, v)` (R164). -/
def doSend (g a v : Nat) (s : State) : Res :=
  (doStart (s.writeCommand g a v)).andThen waitRun

/-- The pairs of a batch, group-major (R86, R166). -/
def batchPairs (groups addrs : List Nat) : List (Nat × Nat) :=
  groups.flatMap fun g => addrs.map fun a => (g, a)

/-- The loop of BATCH (R166): SEND each pair, `PAUSE 200000` between two and none after the last; a failure ends it. -/
def sendPairs (v : Nat) : List (Nat × Nat) → State → Res
  | [], s => .ok s
  | (g, a) :: [], s => doSend g a v s
  | (g, a) :: next :: rest, s =>
    (doSend g a v s).andThen fun s1 => sendPairs v (next :: rest) (s1.recordPause Config.batchPause)

/-- `SEND g, a, v` (R164). -/
def execSend (g a v : Nat) (s : State) : Host.Outcome State Fault Refusal := (doSend g a v s).outcome

/-- `PAUSE d` (R165): the block does nothing and the line keeps its level. R165 speaks of an idle block only: a PAUSE given
while BUSY is run here all the same, as a move of the host, and its d is one more record in `times`, after those made
before it (DESIGN CHOICE, log 31). -/
def execPause (d : Nat) (s : State) : Host.Outcome State Fault Refusal := .next (s.recordPause d)

/-- `BATCH G ; A ; v` (R166, R86). -/
def execBatch (groups addrs : List Nat) (v : Nat) (s : State) : Host.Outcome State Fault Refusal :=
  (sendPairs v (batchPairs groups addrs) s).outcome

/-- `ALL g, v` is `SEND g, 6, v` (R167, R87). -/
def execAll (g v : Nat) (s : State) : Host.Outcome State Fault Refusal :=
  (doSend g Config.broadcastAddr v s).outcome

end Sys2Proof.Machine
end

