-- ==== Sys2Proof/Machine/Encoder.lean ====
section
/-! DEFINITION. Family 40, the frame encoder's two operations as a program runs them (spec/40_frame_encoder.md R101,
R102; spec/30_encoding.md R85: `ON g, a` is `SEND g, a, 1` and `OFF g, a` is `SEND g, a, 0`). The encoder itself, a pure
function, is `encodeFrame` in Operands (R100, R103); START stores its result in FRAME (log 3). -/

namespace Sys2Proof.Machine

/-- `ON g, a` (R101, R85): the frame sent is `ENCODE(g, a, true)`. -/
def execOn (g : BitVec 10) (a : BitVec 3) (s : State) : Host.Outcome State Fault Refusal :=
  (doSend g.toNat a.toNat 1 s).outcome

/-- `OFF g, a` (R102, R85): the frame sent is `ENCODE(g, a, false)`. -/
def execOff (g : BitVec 10) (a : BitVec 3) (s : State) : Host.Outcome State Fault Refusal :=
  (doSend g.toNat a.toNat 0 s).outcome

end Sys2Proof.Machine
end

