-- ==== Sys2Proof/Machine/Dispatch.lean ====
section
/-! DEFINITION. One arm per instruction: its meaning. -/

namespace Sys2Proof.Machine

def exec (i : Instr) (s : State) : Host.Outcome State Fault Refusal :=
  match i with
  | .on g a => Sys2Proof.Machine.execOn g a s
  | .off g a => Sys2Proof.Machine.execOff g a s
  | .bit0 => Sys2Proof.Machine.execBit0 s
  | .bit1 => Sys2Proof.Machine.execBit1 s
  | .gap => Sys2Proof.Machine.execGap s
  | .sethi p => Sys2Proof.Machine.execSetHi p s
  | .setlo p => Sys2Proof.Machine.execSetLo p s
  | .hold d => Sys2Proof.Machine.execHold d s
  | .wrcfg r value => Sys2Proof.Machine.execWrcfg r value s
  | .rdreg r => Sys2Proof.Machine.execRdreg r s
  | .start => Sys2Proof.Machine.execStart s
  | .acq => Sys2Proof.Machine.execAcq s
  | .drvinit => Sys2Proof.Machine.execDrvinit s
  | .cfgout p => Sys2Proof.Machine.execCfgout p s
  | .transmit => Sys2Proof.Machine.execTransmit s
  | .send g a v => Sys2Proof.Machine.execSend g a v s
  | .pause d => Sys2Proof.Machine.execPause d s
  | .batch groups addrs v => Sys2Proof.Machine.execBatch groups addrs v s
  | .all g v => Sys2Proof.Machine.execAll g v s

end Sys2Proof.Machine
end

