-- ==== Sys2Proof/Machine/Sequencer.lean ====
section
/-! DEFINITION. What a step of the machine is: the sequencer's row of spec/42_frame_repeater.md R161, or the next item
of the program handed to the machine, and which of the two moves. -/

namespace Sys2Proof.Machine

/-- The host operations of R81, as against the sequencer's own. PAUSE is one of them while the sequencer is at work too
(DESIGN CHOICE, log 31: R165 speaks of an idle block). -/
def isHostOp : Instr → Bool
  | .on _ _ => true
  | .off _ _ => true
  | .wrcfg _ _ => true
  | .rdreg _ => true
  | .start => true
  | .send _ _ _ => true
  | .pause _ => true
  | .batch _ _ _ => true
  | .all _ _ => true
  | .bit0 => false
  | .bit1 => false
  | .gap => false
  | .sethi _ => false
  | .setlo _ => false
  | .hold _ => false
  | .acq => false
  | .drvinit => false
  | .cfgout _ => false
  | .transmit => false

/-- The step of the sequencer's present phase (R161, column "step"). -/
def State.seqInstr (s : State) : Option Instr :=
  match s.seq.phase with
  | .idle => none
  | .acq => some .acq
  | .setHi => some (.sethi s.xPin)
  | .holdHi => some (.hold (s.heldHigh s.currentBit))
  | .setLo => some (.setlo s.xPin)
  | .holdLo => some (.hold (s.heldLow s.currentBit))
  | .holdGap => some .gap

/-- The next `SEQ` (R161, column "next SEQ"), *finish* included. -/
def State.advance (s : State) : State :=
  match s.seq.phase with
  | .idle => s
  | .acq => if s.xRetries = 0 then s.finish else s.moveTo .setHi 0 0
  | .setHi => s.moveTo .holdHi s.seq.rep s.seq.bit
  | .holdHi => s.moveTo .setLo s.seq.rep s.seq.bit
  | .setLo => s.moveTo .holdLo s.seq.rep s.seq.bit
  | .holdLo =>
    if s.seq.bit.toNat < 24 then s.moveTo .setHi s.seq.rep (s.seq.bit + 1)
    else s.moveTo .holdGap s.seq.rep 24
  | .holdGap =>
    if s.seq.rep.toNat + 1 < s.xRetries.toNat then s.moveTo .setHi (s.seq.rep + 1) 0 else s.finish

/-- After a step of the sequencer: a step that raised is at the failure entry, idle, and stays there; any other goes to
its next `SEQ` (R161). -/
def State.advanceUnlessRaised (s : State) : State :=
  if s.seq.phase = .idle then s else s.advance

/-- One step of the sequencer (R161). -/
def sequencerStep (s : State) : Host.Outcome State Fault Refusal :=
  match s.seqInstr with
  | none => .next s
  | some i =>
    match exec i s with
    | .next t => .next t.advanceUnlessRaised
    | .fault r => .fault r
    | .refused r => .refused r

/-- One step of the program handed to the machine: its next item is decoded and run. With nothing left the block does
nothing and keeps all its state (spec/60_exceptions.md R205). -/
def programStep (s : State) : Host.Outcome State Fault Refusal :=
  match s.prog with
  | [] => .next s
  | item :: rest =>
    match decode item with
    | .instr i => exec i { s with prog := rest }
    | .rejected why => .refused (.undecodable why)

/-- Could the host move while the sequencer is at work? It may write, read and START at any time (R36, R225). An
operation of the sequencer itself waits until the sequencer is idle (log 4). -/
def State.hostReady (s : State) : Bool :=
  match s.prog with
  | [] => false
  | item :: _ =>
    match decode item with
    | .instr i => isHostOp i
    | .rejected _ => true

/-- One step of the machine. A run in a state with FAULTED true has no meaning (R169). Where both agents could move the
choice is an input (log 6). -/
def machineStep (s : State) : Host.Outcome State Fault Refusal :=
  if s.faulted then .fault .meaninglessRun
  else if s.seq.phase = .idle then programStep s
  else if s.hostReady then
    match s.turn with
    | .host => programStep s.popTurn
    | .sequencer => sequencerStep s.popTurn
  else sequencerStep s

/-- The state with the sequencer idle and an item placed first, so that the very next step runs it. -/
def State.placeItem (s : State) (item : Item) : State :=
  { s.moveTo .idle 0 0 with prog := item :: s.prog, busy := false, faulted := false }

/-- The state with the item of a table word placed first; a word that is no item leaves the program empty-handed. -/
def State.placeWord (s : State) (nbits w : Nat) : State :=
  match tableItem nbits w with
  | some item => s.placeItem item
  | none => s

end Sys2Proof.Machine
end

