-- ==== Sys2Proof/Machine/Step.lean ====
section
/-! DEFINITION. The step of the machine, and the placing of a table word where it takes its next operation from. -/

namespace Sys2Proof.Machine

/-- One step: the sequencer's or the host program's (spec/00_scope.md R10, spec/42_frame_repeater.md R161). -/
def step (s : State) : Host.Outcome State Fault Refusal := machineStep s

/-- The state with the operation of a table word placed as the very next one (log 1, log 2). -/
def State.withFetchWord (s : State) (nbits w : Nat) : State := s.placeWord nbits w

end Sys2Proof.Machine
end

