-- ==== Sys2Proof/Safety.lean ====
section
/-! DEFINITION. The terms in which claims about the block are stated: what a run sends, when it ended well
(spec/42_frame_repeater.md R169, R170), what time it took (spec/41_pulse_transmitter.md R130), which states the block can
be in, and two states that differ only in timing or only in the host's registers. -/

namespace Sys2Proof.Machine

/-- The first k answers of the pin driver are scripted and are all ok: the premise "every answer was ok" (U10). -/
def AnswersOk (k : Nat) (s : State) : Prop := s.answers.script.take k = List.replicate k Answer.ok

/-- The next answers are k times ok, then fail. -/
def FailsAfter (k : Nat) (s : State) : Prop :=
  s.answers.script.take (k + 1) = List.replicate k Answer.ok ++ [Answer.fail]

/-- The number of driver operations that the acquisition of the state's X_PIN needs (R153). -/
def State.acqOps (s : State) : Nat := (!s.gpioInit).toNat + (!s.isConfigured s.xPin).toNat

/-- The events of the acquisition of X_PIN (R153, R170). -/
def State.acqEvents (s : State) : List Event :=
  (if s.gpioInit then [] else [.drvInit]) ++ (if s.isConfigured s.xPin then [] else [.cfgOut s.xPin])

/-- The four events of one symbol (R124, R125, R170). -/
def State.symbolEvents (s : State) (b : Bool) : List Event :=
  [.set s.xPin .high, .hold (s.heldHigh b), .set s.xPin .low, .hold (s.heldLow b)]

/-- The 101 events of one repetition: 25 symbols and the gap (R168, R170). -/
def State.frameEvents (s : State) : List Event :=
  (frameBits s.frame).flatMap s.symbolEvents ++ [.hold s.heldGap]

/-- N repetitions (R168). -/
def State.framesEvents (s : State) (n : Nat) : List Event := (List.replicate n s.frameEvents).flatten

/-- The events of a failure-free transmission (R170). -/
def State.runEvents (s : State) : List Event := s.acqEvents ++ s.framesEvents s.xRetries.toNat

/-- Is the event an operation of the pin driver, as against a hold? -/
def Event.isPinOp : Event → Bool
  | .drvInit => true
  | .cfgOut _ => true
  | .set _ _ => true
  | .hold _ => false

/-- The held duration of an event. -/
def Event.heldTime : Event → Nat
  | .hold d => d.toNat
  | .drvInit => 0
  | .cfgOut _ => 0
  | .set _ _ => 0

/-- The time the sequencer itself waits in a list of events. -/
def heldTotal (es : List Event) : Nat := (es.map Event.heldTime).sum

/-- The time that really passes in a record: `obs_k = h_k + eps_k` (R130). -/
def Timed.observed : Timed → Nat
  | .setup t => t
  | .interval _ held eps => held.toNat + eps
  | .pause d => d

/-- The sum of the times in a list of records (R235). A pause given while BUSY counts beside the run's own intervals,
although it passed at the same time (DESIGN CHOICE, log 31): with none in the run the sum is the time that passes. -/
def observedTotal (ts : List Timed) : Nat := (ts.map Timed.observed).sum

/-- The held durations of the records. -/
def heldOfTimes (ts : List Timed) : List Dur :=
  ts.filterMap fun
    | .interval _ held _ => some held
    | _ => none

/-- The held durations of the trace. -/
def heldOfTrace (es : List Event) : List Dur :=
  es.filterMap fun
    | .hold d => some d
    | _ => none

/-- A run has ended well (R169). -/
def State.EndedWell (s : State) : Prop :=
  s.busy = false ∧ s.done = true ∧ s.err = .none ∧ s.faulted = false

/-- A run has failed (R169). -/
def State.Failed (s : State) : Prop := s.busy = false ∧ s.done = false ∧ s.err ≠ .none

/-- SEND can begin: the block is idle and CFG_PIN was written (R152). -/
def State.Ready (s : State) : Prop := s.busy = false ∧ s.cfgPinWritten = true

/-- The state in which the transmission of `SEND g, a, v` begins. -/
def State.sendStart (s : State) (g a v : Nat) : State := (s.writeCommand g a v).startRun

/-- The width of a writable register (R33). -/
def regWidth (r : RegNum) : Nat :=
  match r.toNat with
  | 0 => 10
  | 1 => 3
  | 2 => 1
  | 3 => 8
  | 4 => 16
  | _ => 32

/-- The value the host reads in a register, as R33 and R151 give it. -/
def State.regValue (s : State) (r : RegNum) : Nat :=
  match r.toNat with
  | 0 => s.cmdGroup.toNat
  | 1 => s.cmdAddr.toNat
  | 2 => s.cmdOn.toNat
  | 3 => s.cfgPin.toNat
  | 4 => s.cfgRetries.toNat
  | 5 => s.cfgGap.toNat
  | 6 => s.cfgLatency.toNat
  | 8 => s.busy.toNat + 2 * s.done.toNat + 4 * s.err.code.toNat
  | 9 => s.frame.toNat
  | _ => 0

/-- Nothing from outside the sequencer is to come: no hazard, no item handed over. -/
def State.Quiet (s : State) : Prop := s.faulted = false ∧ s.prog = []

/-- What a run of the sequencer leaves as it was: everything but its own position and timer, the flags, the acquisition
state, the line levels, the trace, the records of time and the inputs it drew from. -/
def RunFrame (s t : State) : Prop :=
  t = { s with
    seq := t.seq, timer := t.timer, busy := t.busy, done := t.done, err := t.err
    gpioInit := t.gpioInit, configured := t.configured, levels := t.levels
    trace := t.trace, times := t.times, answers := t.answers, eps := t.eps, setups := t.setups }

/-- What a BATCH leaves as it was: the frame of its runs, and beside it the command and what START samples of command and
configuration (R152, R166). -/
def BatchFrame (s t : State) : Prop :=
  t = { s with
    cmdGroup := t.cmdGroup, cmdAddr := t.cmdAddr, cmdOn := t.cmdOn, frame := t.frame
    xPin := t.xPin, xRetries := t.xRetries, xGap := t.xGap, xLat := t.xLat
    seq := t.seq, timer := t.timer, busy := t.busy, done := t.done, err := t.err
    gpioInit := t.gpioInit, configured := t.configured, levels := t.levels
    trace := t.trace, times := t.times, answers := t.answers, eps := t.eps, setups := t.setups }

/-- The failure entry of a step that changed nothing before it failed, up to the line levels (R197): the state s with ERR,
the flags, the position and the timer as R197 says, one answer drawn. -/
def State.failed (s : State) (f : Failure) : State :=
  { s with
    err := f, busy := false, done := false
    seq := { phase := .idle, rep := 0, bit := 0 }, timer := 0
    answers := s.answers.tail }

/-- What `SEND g, a, v` leaves when every pin operation was answered ok (R164): the command is in the operand registers,
the frame is its encoding, the trace has grown by the whole run, the run has ended well and the line is LOW. -/
structure SentWell (s t : State) (g a v : Nat) : Prop where
  frame : t.frame = encodeFrame g a (v % 2 == 1)
  group : t.cmdGroup.toNat = g % 1024
  addr : t.cmdAddr.toNat = a % 8
  on : t.cmdOn.toNat = v % 2
  trace : t.trace = s.trace ++ (s.sendStart g a v).runEvents
  ended : t.busy = false ∧ t.done = true ∧ t.err = .none
  idle : t.seq = { phase := .idle, rep := 0, bit := 0 }
  line : s.cfgRetries ≠ 0 → t.level s.cfgPin = .low
  others : ∀ q, q ≠ s.cfgPin → t.level q = s.level q
  rest : RunFrame (s.sendStart g a v) t

/-- Every item handed to the machine is a host operation: what a real host can give (R81, R225). -/
def State.HostProgram (s : State) : Prop :=
  ∀ item ∈ s.prog, ∀ i, decode item = .instr i → isHostOp i = true

/-- The states the block can be in (R26, R27, R30, R135, R152, R153). -/
structure State.Inv (s : State) : Prop where
  /-- The outside gives host operations only. -/
  host : s.HostProgram
  /-- BUSY is 1 exactly while the sequencer is at work (R27, R161). -/
  busy : s.busy = true ↔ s.seq.phase ≠ .idle
  /-- Idle, the position is (IDLE, 0, 0); at the acquisition it is (ACQ, 0, 0) (R26, R152). -/
  home : s.seq.phase = .idle ∨ s.seq.phase = .acq → s.seq.rep = 0 ∧ s.seq.bit = 0
  /-- No hold is left running between two steps (R120, R161). -/
  timer : s.timer = 0
  /-- BIT is the index of a frame bit (R26, R53), 24 in the gap (R161). -/
  bit : s.seq.bit.toNat ≤ 24
  gapBit : s.seq.phase = .holdGap → s.seq.bit = 24
  /-- REP is the index of a repetition (R26). -/
  rep : s.seq.phase ≠ .idle → s.seq.phase ≠ .acq → s.seq.rep.toNat < s.xRetries.toNat
  /-- While BUSY, DONE and ERR are clear (R27, R152). -/
  clear : s.busy = true → s.done = false ∧ s.err = .none
  /-- DONE and ERR exclude each other (R27, R225). -/
  doneErr : s.done = true → s.err = .none
  /-- ENCODING_ERROR is never raised (R191). -/
  noEncodingError : s.err ≠ .encoding
  /-- A frame in flight is one the encoder produces (R23, R82). -/
  frame : s.busy = true → Producible s.frame = true
  /-- A transmission begins only after CFG_PIN was written (R35). -/
  written : s.busy = true → s.cfgPinWritten = true
  /-- After the acquisition the driver is initialised and the line an output (R153). -/
  acquired : s.seq.phase ≠ .idle → s.seq.phase ≠ .acq → s.gpioInit = true ∧ s.isConfigured s.xPin = true
  /-- The line is HIGH in the HIGH phase of a symbol and LOW from its LOW phase to the next symbol (R135). -/
  levelHigh : s.seq.phase = .holdHi ∨ s.seq.phase = .setLo → s.level s.xPin = .high
  levelLow : s.seq.phase = .holdLo ∨ s.seq.phase = .holdGap → s.level s.xPin = .low
  levelNext : s.seq.phase = .setHi → (s.seq.rep ≠ 0 ∨ s.seq.bit ≠ 0) → s.level s.xPin = .low
  /-- A pin is configured only after the driver was initialised (R153), and a line driven only after it was configured. -/
  driver : ∀ p, s.isConfigured p = true → s.gpioInit = true
  driven : ∀ p, s.level p ≠ .unknown → s.isConfigured p = true

/-- The acquisition operations are issued at most once each, as long as they succeed (R55, R154, R155): the trace holds
one `DrvInit` exactly if GPIO_INIT is 1, one `CfgOut(p)` exactly if p is in CONFIGURED. -/
def State.AcqOnce (s : State) : Prop :=
  s.trace.count .drvInit = s.gpioInit.toNat ∧
    ∀ p, s.trace.count (.cfgOut p) = (s.isConfigured p).toNat

/-- The state without what only timing decides: the draws and the records of time (R130, R132). -/
def State.eraseTiming (s : State) : State :=
  { s with times := [], eps := Stream.free Nat, setups := Stream.free Nat }

/-- The state without what the host writes and keeps: the operand and configuration registers (R36, R59), the read data
and the program. -/
def State.eraseHost (s : State) : State :=
  { s with
    cmdGroup := 0, cmdAddr := 0, cmdOn := 0
    cfgPin := 0, cfgPinWritten := false, cfgRetries := 0, cfgGap := 0, cfgLatency := 0
    readData := 0, prog := [] }

/-- Two outcomes that agree after `f` has left something out of the next state. -/
def SameOutcome (f : State → State) (x y : Host.Outcome State Fault Refusal) : Prop :=
  match x, y with
  | .next s, .next t => f s = f t
  | .fault r, .fault r' => r = r'
  | .refused r, .refused r' => r = r'
  | _, _ => False

end Sys2Proof.Machine
end

