-- ==== Sys2Proof/Certificates/Slice0/Obligations.lean ====
section
/-! DEFINITION. The statements for the provers. Each docstring names the rule of spec/ that the statement formalises. -/

open Sys2Proof Sys2Proof.Machine

/-- Decoding an encoded well-formed instruction gives it back, for every instruction and every operand (R81, R85). -/
def Obligations.DecodeEncode : Prop :=
  ∀ i : Instr, i.wellFormed = true → decode (encode i) = .instr i

/-- Words written out from R71, R78, R81 decode to the operations they stand for. -/
def Obligations.SampleWordsDecode : Prop :=
  decode (.frame25 0b0011010011000000000100001#25) = .instr (.on 1 0) ∧
  decode (.frame25 0b0011010011111111111111101#25) = .instr (.off 1023 6) ∧
  decode (.symbol 0b0#1) = .instr .bit0 ∧
  decode (.symbol 0b1#1) = .instr .bit1 ∧
  decode (.level 0b1#1 17) = .instr (.sethi 17) ∧
  decode (.hostreg 0b10100#5 10) = .instr (.wrcfg 4 10) ∧
  decode (.hostreg 0b10111#5 1) = .instr .start ∧
  decode (.hostreg 0b01000#5 0) = .instr (.rdreg 8)

/-- R100: `int(ENCODE(group, address, on)) = 0x698001 + (g << 5) + (v << 4) + (a << 1)` for operands of any size, which wrap. -/
def Obligations.EncodeInteger : Prop :=
  ∀ (group address : Nat) (on : Bool),
    (encodeFrame group address on).toNat =
      0x698001 + (group % 1024) <<< 5 + (if on then 0 else 1) <<< 4 + (address % 8) <<< 1 ∧
    encodeFrame (group + 1024) address on = encodeFrame group address on ∧
    encodeFrame group (address + 8) on = encodeFrame group address on

/-- R105: the shape of every frame, injectivity, the number of ones, and the nominal duration that does not depend on it. -/
def Obligations.FrameShape : Prop :=
  (∀ (group address : Nat) (on : Bool),
    (frameBits (encodeFrame group address on)).length = 25 ∧
    (∀ i < 10, frameBit (encodeFrame group address on) i = Config.preamble.getMsbD i) ∧
    (∀ j < 10, frameBit (encodeFrame group address on) (10 + j) = (group % 1024).testBit (9 - j)) ∧
    frameBit (encodeFrame group address on) 20 = !on ∧
    (∀ j < 3, frameBit (encodeFrame group address on) (21 + j) = (address % 8).testBit (2 - j)) ∧
    frameBit (encodeFrame group address on) 24 = true ∧
    6 ≤ (frameBits (encodeFrame group address on)).count true ∧
    (frameBits (encodeFrame group address on)).count true ≤ 20) ∧
  (frameBits (encodeFrame 0 0 true)).count true = 6 ∧
  (frameBits (encodeFrame 1023 7 false)).count true = 20 ∧
  (∀ (g g' a a' : Nat) (on on' : Bool), g < 1024 → g' < 1024 → a < 8 → a' < 8 →
    encodeFrame g a on = encodeFrame g' a' on' → g = g' ∧ a = a' ∧ on = on') ∧
  (∀ (timing : BitTiming) (f : Frame),
    ((frameBits f).map fun b => (pulse timing b).high.toNat + (pulse timing b).low.toNat).sum = 25 * 1188)

/-- R88: the decode helper, by sequence indices, and its agreement with the encoder. -/
def Obligations.DecodeHelper : Prop :=
  (∀ f : Frame, (∀ i < 10, frameBit f i = Config.preamble.getMsbD i) → frameBit f 24 = true →
    ∃ g a on, decodeFrame f = some (g, a, on) ∧ (∀ j < 10, g.getMsbD j = frameBit f (10 + j)) ∧
      on = !frameBit f 20 ∧ (∀ j < 3, a.getMsbD j = frameBit f (21 + j))) ∧
  (∀ f : Frame, ¬((∀ i < 10, frameBit f i = Config.preamble.getMsbD i) ∧ frameBit f 24 = true) →
    decodeFrame f = none) ∧
  (∀ (g a : Nat) (on : Bool), g < 1024 → a < 8 →
    decodeFrame (encodeFrame g a on) = some (BitVec.ofNat 10 g, BitVec.ofNat 3 a, on))

/-- R81, R82: a 25-bit pattern can be sent exactly if it is some command's frame; such a pattern matches exactly one of
the rows ON and OFF, and any other pattern matches neither. -/
def Obligations.ProducibleFrames : Prop :=
  ∀ f : Frame,
    (Producible f = true ↔ ∃ g a on, f = encodeFrame g a on) ∧
    (Producible f = true →
      (matchesRow f.toNat 0x1FF8011 0x0698001 = true ↔ matchesRow f.toNat 0x1FF8011 0x0698011 = false)) ∧
    (Producible f = false →
      matchesRow f.toNat 0x1FF8011 0x0698001 = false ∧ matchesRow f.toNat 0x1FF8011 0x0698011 = false)

/-- R101, R102: ON and OFF of one socket encode `on` true and false and differ in index 20 alone; the integer views
differ by 16. -/
def Obligations.OnOffDiffer : Prop :=
  ∀ (g : BitVec 10) (a : BitVec 3),
    encode (.on g a) = .frame25 (encodeFrame g.toNat a.toNat true) ∧
    encode (.off g a) = .frame25 (encodeFrame g.toNat a.toNat false) ∧
    (encodeFrame g.toNat a.toNat false).toNat = (encodeFrame g.toNat a.toNat true).toNat + 16 ∧
    (∀ i < 25, i ≠ 20 →
      frameBit (encodeFrame g.toNat a.toNat false) i = frameBit (encodeFrame g.toNat a.toNat true) i) ∧
    frameBit (encodeFrame g.toNat a.toNat true) 20 = false ∧
    frameBit (encodeFrame g.toNat a.toNat false) 20 = true

/-- R150: a host write stores `value mod 2^width` in its register, marks CFG_PIN written, and changes nothing else,
whatever BUSY is; writes to registers 8 and above do nothing. -/
def Obligations.WrcfgStores : Prop :=
  (∀ (r : RegNum) (v : Nat) (s : State), r.toNat ≤ 6 →
    ∃ t, exec (.wrcfg r v) s = .next t ∧
      t.regValue r = v % 2 ^ regWidth r ∧
      (∀ r', r' ≠ r → t.regValue r' = s.regValue r') ∧
      t.cfgPinWritten = (s.cfgPinWritten || r == 3) ∧
      t = { s with
        cmdGroup := t.cmdGroup, cmdAddr := t.cmdAddr, cmdOn := t.cmdOn
        cfgPin := t.cfgPin, cfgPinWritten := t.cfgPinWritten
        cfgRetries := t.cfgRetries, cfgGap := t.cfgGap, cfgLatency := t.cfgLatency }) ∧
  (∀ (r : RegNum) (v : Nat) (s : State), 8 ≤ r.toNat → exec (.wrcfg r v) s = .next s)

/-- R33: a write to CTRL with bit 0 = 1 is START, with bit 0 = 0 it does nothing. -/
def Obligations.CtrlWrite : Prop :=
  ∀ (v : Nat) (s : State),
    (v % 2 = 1 → exec (.wrcfg 7 v) s = exec .start s) ∧ (v % 2 = 0 → exec (.wrcfg 7 v) s = .next s)

/-- R151: a read returns the register (STATUS is BUSY + 2*DONE + 4*ERR, CTRL and the numbers above 9 are 0) and has no
side effect. -/
def Obligations.RdregReturns : Prop :=
  ∀ (r : RegNum) (s : State),
    ∃ t, exec (.rdreg r) s = .next t ∧ t.readData.toNat = s.regValue r ∧ t = { s with readData := t.readData }

/-- R152, R35: START samples the command and the configuration in one step and begins at the acquisition; with CFG_PIN
unwritten it is refused; the written mark is 0 after reset and 1 after a write. -/
def Obligations.StartBegins : Prop :=
  (∀ s : State, s.busy = false → s.cfgPinWritten = true →
    exec .start s = .next { s with
      frame := encodeFrame s.cmdGroup.toNat s.cmdAddr.toNat (s.cmdOn == 1)
      xPin := s.cfgPin, xRetries := s.cfgRetries, xGap := s.cfgGap, xLat := s.cfgLatency
      busy := true, done := false, err := .none
      seq := { phase := .acq, rep := 0, bit := 0 } }) ∧
  (∀ s : State, s.busy = false → s.cfgPinWritten = false → exec .start s = .refused .startPinUnwritten) ∧
  (∀ s : State, s.busy = true → ∃ t, exec .start s = .next t ∧ t.faulted = true) ∧
  State.reset.cfgPinWritten = false ∧
  (∀ (v : Nat) (s t : State), exec (.wrcfg 3 v) s = .next t → t.cfgPinWritten = true)

/-- R226, R31, R169: START while BUSY sets FAULTED; no instruction clears it; `step` gives a run with FAULTED true no
meaning (that it stops there is the model's choice, log 14). -/
def Obligations.FaultedForever : Prop :=
  (∀ s : State, s.busy = true → ∃ t, exec .start s = .next t ∧ t.faulted = true) ∧
  (∀ (i : Instr) (s t : State), exec i s = .next t → s.faulted = true → t.faulted = true) ∧
  (∀ s : State, s.faulted = true → step s = .fault .meaninglessRun)

/-- R59, R36, R23, R25: while BUSY no step changes FRAME or the X_ copies. -/
def Obligations.RunKeepsItsSample : Prop :=
  ∀ s t : State, s.busy = true → step s = .next t →
    t.frame = s.frame ∧ t.xPin = s.xPin ∧ t.xRetries = s.xRetries ∧ t.xGap = s.xGap ∧ t.xLat = s.xLat

/-- R59: what the host writes after START reaches no operation of the run: two states that differ only in the operand and
configuration registers, the read data and the host's program take the same step of the sequencer. -/
def Obligations.RunIgnoresHostWrites : Prop :=
  ∀ s s' : State, s.eraseHost = s'.eraseHost →
    SameOutcome State.eraseHost (sequencerStep s) (sequencerStep s')

/-- R154: DRVINIT, answered ok and answered fail. -/
def Obligations.DrvinitResult : Prop :=
  ∀ s : State,
    (s.answer = .ok → exec .drvinit s = .next { s with
      gpioInit := true, trace := s.trace ++ [.drvInit], answers := s.answers.tail }) ∧
    (s.answer = .fail → exec .drvinit s = .next (s.failed .pinInit))

/-- R155: CFGOUT, answered ok and answered fail; LEVEL[p] stays as it was. -/
def Obligations.CfgoutResult : Prop :=
  ∀ (p : Pin) (s : State),
    (s.answer = .ok → ∃ t, exec (.cfgout p) s = .next t ∧
      (∀ q, t.isConfigured q = (s.isConfigured q || q == p)) ∧
      t = { s with configured := t.configured, trace := s.trace ++ [.cfgOut p], answers := s.answers.tail }) ∧
    (s.answer = .fail → exec (.cfgout p) s = .next (s.failed .pinInit))

/-- R121: SETHI, answered ok and answered fail. -/
def Obligations.SethiResult : Prop :=
  ∀ (p : Pin) (s : State),
    (s.answer = .ok → ∃ t, exec (.sethi p) s = .next t ∧ t.level p = .high ∧
      (∀ q, q ≠ p → t.level q = s.level q) ∧
      t = { s with levels := t.levels, trace := s.trace ++ [.set p .high], answers := s.answers.tail }) ∧
    (s.answer = .fail → ∃ t, exec (.sethi p) s = .next t ∧ t.level p = .unknown ∧
      (∀ q, q ≠ p → t.level q = s.level q) ∧ t = { s.failed .pinWrite with levels := t.levels })

/-- R122: SETLO, answered ok and answered fail. -/
def Obligations.SetloResult : Prop :=
  ∀ (p : Pin) (s : State),
    (s.answer = .ok → ∃ t, exec (.setlo p) s = .next t ∧ t.level p = .low ∧
      (∀ q, q ≠ p → t.level q = s.level q) ∧
      t = { s with levels := t.levels, trace := s.trace ++ [.set p .low], answers := s.answers.tail }) ∧
    (s.answer = .fail → ∃ t, exec (.setlo p) s = .next t ∧ t.level p = .unknown ∧
      (∀ q, q ≠ p → t.level q = s.level q) ∧ t = { s.failed .pinWrite with levels := t.levels })

/-- R120: HOLD d loads TIMER with d, counts it down to 0 microsecond by microsecond, and records Hold(d), Hold(0) too;
nothing else changes but the record of the interval. -/
def Obligations.HoldResult : Prop :=
  ∀ (d : Dur) (s : State),
    exec (.hold d) s = .next { s with
      timer := 0, trace := s.trace ++ [.hold d]
      times := s.times ++ [.interval (s.level s.xPin) d s.nextEps], eps := s.eps.tail } ∧
    exec (.hold d) s = .next (((State.ticks d.toNat { s with timer := d }).recordInterval d).emit (.hold d)) ∧
    (∀ n : Nat, n < d.toNat → (State.ticks n { s with timer := d }).timer.toNat = d.toNat - n)

/-- R124: BIT0, with both Sets answered ok, with the first failing, with the second failing; the held durations at the
default correction under either assignment. -/
def Obligations.Bit0Result : Prop :=
  ∀ s : State,
    (AnswersOk 2 s → ∃ t, exec .bit0 s = .next t ∧
      t.trace = s.trace ++ [.set s.xPin .high, .hold (sat (pulse s.bitTiming false).high s.xLat),
        .set s.xPin .low, .hold (sat (pulse s.bitTiming false).low s.xLat)] ∧
      t.level s.xPin = .low ∧ (∀ q, q ≠ s.xPin → t.level q = s.level q) ∧
      t = { s with timer := 0, levels := t.levels, trace := t.trace, times := t.times, answers := t.answers, eps := t.eps }) ∧
    (FailsAfter 0 s → ∃ t, exec .bit0 s = .next t ∧ t.trace = s.trace ∧ t.level s.xPin = .unknown ∧
      (∀ q, q ≠ s.xPin → t.level q = s.level q) ∧ t = { s.failed .pinWrite with levels := t.levels }) ∧
    (FailsAfter 1 s → ∃ t, exec .bit0 s = .next t ∧
      t.trace = s.trace ++ [.set s.xPin .high, .hold (sat (pulse s.bitTiming false).high s.xLat)] ∧
      t.level s.xPin = .unknown ∧ (∀ q, q ≠ s.xPin → t.level q = s.level q) ∧
      t = { s.failed .pinWrite with
        levels := t.levels, trace := t.trace, times := t.times, answers := t.answers, eps := t.eps }) ∧
    (s.bitTiming = .standard → s.xLat = 80 → s.heldHigh false = 858 ∧ s.heldLow false = 170) ∧
    (s.bitTiming = .swapped → s.xLat = 80 → s.heldHigh false = 327 ∧ s.heldLow false = 701)

/-- R125: BIT1, with both Sets answered ok, with the first failing, with the second failing; the held durations at the
default correction under either assignment. -/
def Obligations.Bit1Result : Prop :=
  ∀ s : State,
    (AnswersOk 2 s → ∃ t, exec .bit1 s = .next t ∧
      t.trace = s.trace ++ [.set s.xPin .high, .hold (sat (pulse s.bitTiming true).high s.xLat),
        .set s.xPin .low, .hold (sat (pulse s.bitTiming true).low s.xLat)] ∧
      t.level s.xPin = .low ∧ (∀ q, q ≠ s.xPin → t.level q = s.level q) ∧
      t = { s with timer := 0, levels := t.levels, trace := t.trace, times := t.times, answers := t.answers, eps := t.eps }) ∧
    (FailsAfter 0 s → ∃ t, exec .bit1 s = .next t ∧ t.trace = s.trace ∧ t.level s.xPin = .unknown ∧
      (∀ q, q ≠ s.xPin → t.level q = s.level q) ∧ t = { s.failed .pinWrite with levels := t.levels }) ∧
    (FailsAfter 1 s → ∃ t, exec .bit1 s = .next t ∧
      t.trace = s.trace ++ [.set s.xPin .high, .hold (sat (pulse s.bitTiming true).high s.xLat)] ∧
      t.level s.xPin = .unknown ∧ (∀ q, q ≠ s.xPin → t.level q = s.level q) ∧
      t = { s.failed .pinWrite with
        levels := t.levels, trace := t.trace, times := t.times, answers := t.answers, eps := t.eps }) ∧
    (s.bitTiming = .standard → s.xLat = 80 → s.heldHigh true = 327 ∧ s.heldLow true = 701) ∧
    (s.bitTiming = .swapped → s.xLat = 80 → s.heldHigh true = 858 ∧ s.heldLow true = 170)

/-- R126: GAP is one hold of sat(X_GAP, C), with no pin operation and no change of a level; X_GAP <= C gives Hold(0), the
defaults give Hold(19920). -/
def Obligations.GapResult : Prop :=
  ∀ s : State,
    exec .gap s = .next { s with
      timer := 0, trace := s.trace ++ [.hold (sat s.xGap s.xLat)]
      times := s.times ++ [.interval (s.level s.xPin) (sat s.xGap s.xLat) s.nextEps], eps := s.eps.tail } ∧
    (s.xGap.toNat ≤ s.xLat.toNat → sat s.xGap s.xLat = 0) ∧
    (s.xGap = 20000 → s.xLat = 80 → sat s.xGap s.xLat = 19920)

/-- R129: `sat(a, c) = max(0, a - c)`, and with the source's values no interval saturates for C <= 250. -/
def Obligations.SaturatingSubtraction : Prop :=
  (∀ a c : Dur, ((sat a c).toNat : Int) = max 0 ((a.toNat : Int) - (c.toNat : Int))) ∧
  (∀ (timing : BitTiming) (b : Bool) (c : Dur), c.toNat ≤ 250 →
    (sat (pulse timing b).high c).toNat + c.toNat = (pulse timing b).high.toNat ∧
    (sat (pulse timing b).low c).toNat + c.toNat = (pulse timing b).low.toNat)

/-- R127: the two durations of a bit sum to 1188 us whatever the bit and the assignment; held, to 1188 - 2C as long as no
interval of it saturates, and not to that when one does. -/
def Obligations.BitTimingInvariant : Prop :=
  (∀ (timing : BitTiming) (b : Bool), (pulse timing b).high.toNat + (pulse timing b).low.toNat = 1188) ∧
  (∀ (s : State) (b : Bool),
    ((s.heldHigh b).toNat + (s.heldLow b).toNat : Int) = 1188 - 2 * (s.xLat.toNat : Int) ↔
      s.xLat.toNat ≤ (pulse s.bitTiming b).high.toNat ∧ s.xLat.toNat ≤ (pulse s.bitTiming b).low.toNat)

/-- R131: if the overhead of an interval is C and the interval does not saturate, its observed duration is the nominal
one: for any held interval, for the two intervals of a symbol, and for the gap. -/
def Obligations.CalibratedCase : Prop :=
  (∀ (s : State) (nominal : Dur), s.nextEps = s.xLat.toNat → s.xLat.toNat ≤ nominal.toNat →
    ∃ t r, exec (.hold (sat nominal s.xLat)) s = .next t ∧ t.times = s.times ++ [r] ∧ r.observed = nominal.toNat) ∧
  (∀ (s : State) (b : Bool), AnswersOk 2 s → s.eps.script.take 2 = List.replicate 2 s.xLat.toNat → s.xLat.toNat ≤ 250 →
    ∃ t r r', exec (if b then .bit1 else .bit0) s = .next t ∧ t.times = s.times ++ [r, r'] ∧
      r.observed = (pulse s.bitTiming b).high.toNat ∧ r'.observed = (pulse s.bitTiming b).low.toNat) ∧
  (∀ s : State, s.nextEps = s.xLat.toNat → s.xLat.toNat ≤ s.xGap.toNat →
    ∃ t r, exec .gap s = .next t ∧ t.times = s.times ++ [r] ∧ r.observed = s.xGap.toNat)

/-- R132, R130: the draws of time stretch intervals and nothing else: two states that differ only in the draws to come and
in the records of time take the same step, up to the records of time. -/
def Obligations.DisturbedTiming : Prop :=
  ∀ s s' : State, s.eraseTiming = s'.eraseTiming → SameOutcome State.eraseTiming (step s) (step s')

/-- R153: ACQ initialises the driver and configures the line, each if it is needed; a failing operation of it raises
PIN_INIT_FAILURE with the earlier one kept. That the setup time of the transmission (R130, D29) is drawn and recorded here,
also when nothing is to be acquired, is the model's choice (log 9): the spec gives no instant of the draw. -/
def Obligations.AcqResult : Prop :=
  (∀ s : State, AnswersOk s.acqOps s → ∃ t, exec .acq s = .next t ∧
    t.trace = s.trace ++ s.acqEvents ∧ t.gpioInit = true ∧
    (∀ q, t.isConfigured q = (s.isConfigured q || q == s.xPin)) ∧
    t = { s with
      gpioInit := true, configured := t.configured, trace := t.trace
      times := s.times ++ [.setup s.nextSetup], setups := s.setups.tail, answers := t.answers }) ∧
  (∀ s : State, s.gpioInit = true → s.isConfigured s.xPin = true →
    exec .acq s = .next { s with times := s.times ++ [.setup s.nextSetup], setups := s.setups.tail }) ∧
  (∀ (s : State) (k : Nat), k < s.acqOps → FailsAfter k s → ∃ t, exec .acq s = .next t ∧
    t.trace = s.trace ++ s.acqEvents.take k ∧ t.Failed ∧ t.err = .pinInit ∧
    t.levels = s.levels ∧ t.configured = s.configured ∧ t.gpioInit = (s.gpioInit || k == 1) ∧ RunFrame s t)

/-- R55, R28, R29: as long as they succeed, DrvInit is issued at most once and CfgOut(p) at most once for each p, in every
run of a host's program: the trace holds as many as GPIO_INIT and CONFIGURED say, and every step keeps that. -/
def Obligations.AcquisitionOnce : Prop :=
  ∀ s t : State, s.HostProgram → s.AcqOnce → step s = .next t → t.AcqOnce

/-- R156, R28, R29: GPIO_INIT and CONFIGURED only grow. -/
def Obligations.AcquisitionGrows : Prop :=
  ∀ s t : State, step s = .next t →
    (s.gpioInit = true → t.gpioInit = true) ∧ (∀ p, s.isConfigured p = true → t.isConfigured p = true)

/-- R158, R159, R160, R169, R170: with every answer ok, TRANSMIT acquires the pin, sends FRAME X_RETRIES times, each
followed by the gap, and finishes; the line ends LOW if anything was sent and is untouched otherwise. -/
def Obligations.TransmitCompletes : Prop :=
  ∀ s : State, AnswersOk (s.acqOps + 50 * s.xRetries.toNat) s →
    ∃ t, exec .transmit s = .next t ∧
      t.trace = s.trace ++ s.acqEvents ++ (List.replicate s.xRetries.toNat
        ((frameBits s.frame).flatMap (fun b =>
          [.set s.xPin .high, .hold (sat (pulse s.bitTiming b).high s.xLat),
            .set s.xPin .low, .hold (sat (pulse s.bitTiming b).low s.xLat)]) ++ [.hold (sat s.xGap s.xLat)])).flatten ∧
      t.busy = false ∧ t.done = true ∧ t.err = s.err ∧ t.seq = { phase := .idle, rep := 0, bit := 0 } ∧
      t.gpioInit = true ∧ (∀ q, t.isConfigured q = (s.isConfigured q || q == s.xPin)) ∧
      (s.xRetries = 0 → t.levels = s.levels) ∧
      (s.xRetries ≠ 0 → t.level s.xPin = .low) ∧
      (∀ q, q ≠ s.xPin → t.level q = s.level q) ∧
      t.answers.script = s.answers.script.drop (s.acqOps + 50 * s.xRetries.toNat) ∧
      RunFrame s t

/-- R168: a failure-free transmission with X_RETRIES = N issues exactly 25 N Sets to HIGH, 25 N Sets to LOW and 51 N holds
on its line, as N identical blocks of 101 events after the acquisition; so does any number of such blocks. -/
def Obligations.RepetitionCounts : Prop :=
  (∀ s : State, AnswersOk (s.acqOps + 50 * s.xRetries.toNat) s →
    ∃ t block, exec .transmit s = .next t ∧
      t.trace = s.trace ++ s.acqEvents ++ (List.replicate s.xRetries.toNat block).flatten ∧
      block.length = 101 ∧
      block = (frameBits s.frame).flatMap s.symbolEvents ++ [.hold s.heldGap] ∧
      t.trace.count (.set s.xPin .high) = s.trace.count (.set s.xPin .high) + 25 * s.xRetries.toNat ∧
      t.trace.count (.set s.xPin .low) = s.trace.count (.set s.xPin .low) + 25 * s.xRetries.toNat ∧
      (heldOfTrace t.trace).length = (heldOfTrace s.trace).length + 51 * s.xRetries.toNat) ∧
  (∀ (s : State) (n : Nat),
    (s.framesEvents n).length = 101 * n ∧
    (s.framesEvents n).count (.set s.xPin .high) = 25 * n ∧
    (s.framesEvents n).count (.set s.xPin .low) = 25 * n ∧
    (heldOfTrace (s.framesEvents n)).length = 51 * n)

/-- R160: with X_RETRIES = 0 only the acquisition runs, no Set and no Hold is issued, and DONE is set at once. -/
def Obligations.TransmitNoRetries : Prop :=
  ∀ s : State, s.xRetries = 0 → AnswersOk s.acqOps s →
    ∃ t, exec .transmit s = .next t ∧ t.trace = s.trace ++ s.acqEvents ∧ t.busy = false ∧ t.done = true ∧
      t.levels = s.levels ∧ heldOfTimes t.times = heldOfTimes s.times

/-- R197, R192, R193: the failure entry of each operation the driver can fail: ERR and STATUS name the failure, the block is
idle, nothing is appended to the trace, and everything else stays but the level of the line of a failed Set. -/
def Obligations.FailureEntry : Prop :=
  ∀ (s : State) (p : Pin), s.answer = .fail →
    (∃ t, exec .drvinit s = .next t ∧ t = s.failed .pinInit ∧ t.statusWord = 4) ∧
    (∃ t, exec (.cfgout p) s = .next t ∧ t = s.failed .pinInit ∧ t.statusWord = 4) ∧
    (∃ t, exec (.sethi p) s = .next t ∧ t = { s.failed .pinWrite with levels := t.levels } ∧
      t.level p = .unknown ∧ (∀ q, q ≠ p → t.level q = s.level q) ∧ t.statusWord = 8) ∧
    (∃ t, exec (.setlo p) s = .next t ∧ t = { s.failed .pinWrite with levels := t.levels } ∧
      t.level p = .unknown ∧ (∀ q, q ≠ p → t.level q = s.level q) ∧ t.statusWord = 8)

/-- R196, R197: a transmission whose first failing pin operation is the k-th reports that one: exactly the events before it
have happened, the failure is PIN_INIT_FAILURE in the acquisition and PIN_WRITE_FAILURE after it, and nothing follows. -/
def Obligations.EarliestFailure : Prop :=
  ∀ (s : State) (k : Nat), k < s.acqOps + 50 * s.xRetries.toNat → FailsAfter k s →
    ∃ t l e, exec .transmit s = .next t ∧
      t.trace = s.trace ++ l ∧ l ++ [e] <+: s.runEvents ∧ e.isPinOp = true ∧ (l.filter Event.isPinOp).length = k ∧
      t.err = (if k < s.acqOps then .pinInit else .pinWrite) ∧
      t.busy = false ∧ t.done = false ∧ t.seq = { phase := .idle, rep := 0, bit := 0 } ∧ t.timer = 0 ∧
      (k < s.acqOps → t.levels = s.levels) ∧
      (s.acqOps ≤ k → t.level s.xPin = .unknown) ∧
      (∀ q, q ≠ s.xPin → t.level q = s.level q) ∧ RunFrame s t

/-- R158, R59, R197: whatever the driver answers, TRANSMIT ends in a next state with BUSY clear, changes nothing outside its
frame, drives no line but X_PIN, configures no other pin, and only adds to the trace. -/
def Obligations.TransmitFrame : Prop :=
  ∀ s : State, ∃ t, exec .transmit s = .next t ∧ t.busy = false ∧ t.seq = { phase := .idle, rep := 0, bit := 0 } ∧
    RunFrame s t ∧ s.trace <+: t.trace ∧ (∀ q, q ≠ s.xPin → t.level q = s.level q) ∧
    (∀ q, q ≠ s.xPin → t.isConfigured q = s.isConfigured q)

/-- R161: the small-step table and the big-step pseudocode perform the same operations in the same order, whatever the
driver answers: from the acquisition, at most 1 + 101 N steps of the machine lead to the state TRANSMIT gives. -/
def Obligations.SmallStepsEqualBigStep : Prop :=
  ∀ s : State, s.Quiet → s.seq = { phase := .acq, rep := 0, bit := 0 } →
    ∃ k, k ≤ 1 + 101 * s.xRetries.toNat ∧ Host.Core.run Sys2Proof.core k s = exec .transmit s

/-- R162, R225: once started, a run ends: from any legal state with BUSY = 1 and nothing more from the host, at most
1 + 101 N steps lead to BUSY = 0 with exactly one of DONE = 1 and ERR != 0. -/
def Obligations.RunEnds : Prop :=
  ∀ s : State, s.Inv → s.Quiet → s.busy = true →
    ∃ k t, k ≤ 1 + 101 * s.xRetries.toNat ∧ Host.Core.run Sys2Proof.core k s = .next t ∧ t.busy = false ∧
      ((t.done = true ∧ t.err = .none) ∨ (t.done = false ∧ t.err ≠ .none))

/-- R161: the small-step table, row by row. -/
def Obligations.SmallStepTable : Prop :=
  ∀ s : State, s.Quiet →
    (s.seq.phase = .idle → step s = .next s) ∧
    (s.seq.phase = .acq → AnswersOk s.acqOps s → ∃ t, step s = .next t ∧ t.trace = s.trace ++ s.acqEvents ∧
      t.levels = s.levels ∧
      (s.xRetries = 0 → t.seq = { phase := .idle, rep := 0, bit := 0 } ∧ t.busy = false ∧ t.done = true) ∧
      (s.xRetries ≠ 0 → t.seq = { phase := .setHi, rep := 0, bit := 0 } ∧ t.busy = s.busy ∧ t.done = s.done)) ∧
    (s.seq.phase = .setHi → s.answer = .ok → ∃ t, step s = .next t ∧ t.trace = s.trace ++ [.set s.xPin .high] ∧
      t.level s.xPin = .high ∧ t.seq = { s.seq with phase := .holdHi } ∧ t.busy = s.busy) ∧
    (s.seq.phase = .holdHi → ∃ t, step s = .next t ∧
      t.trace = s.trace ++ [.hold (sat (pulse s.bitTiming (frameBit s.frame s.seq.bit.toNat)).high s.xLat)] ∧
      t.levels = s.levels ∧ t.seq = { s.seq with phase := .setLo } ∧ t.busy = s.busy) ∧
    (s.seq.phase = .setLo → s.answer = .ok → ∃ t, step s = .next t ∧ t.trace = s.trace ++ [.set s.xPin .low] ∧
      t.level s.xPin = .low ∧ t.seq = { s.seq with phase := .holdLo } ∧ t.busy = s.busy) ∧
    (s.seq.phase = .holdLo → ∃ t, step s = .next t ∧
      t.trace = s.trace ++ [.hold (sat (pulse s.bitTiming (frameBit s.frame s.seq.bit.toNat)).low s.xLat)] ∧
      t.levels = s.levels ∧ t.busy = s.busy ∧
      (s.seq.bit.toNat < 24 → t.seq = { phase := .setHi, rep := s.seq.rep, bit := s.seq.bit + 1 }) ∧
      (24 ≤ s.seq.bit.toNat → t.seq = { phase := .holdGap, rep := s.seq.rep, bit := 24 })) ∧
    (s.seq.phase = .holdGap → ∃ t, step s = .next t ∧ t.trace = s.trace ++ [.hold (sat s.xGap s.xLat)] ∧
      t.levels = s.levels ∧
      (s.seq.rep.toNat + 1 < s.xRetries.toNat →
        t.seq = { phase := .setHi, rep := s.seq.rep + 1, bit := 0 } ∧ t.busy = s.busy) ∧
      (s.xRetries.toNat ≤ s.seq.rep.toNat + 1 →
        t.seq = { phase := .idle, rep := 0, bit := 0 } ∧ t.busy = false ∧ t.done = true)) ∧
    (s.seq.phase = .setHi ∨ s.seq.phase = .setLo → s.answer = .fail → ∃ t, step s = .next t ∧
      t.seq = { phase := .idle, rep := 0, bit := 0 } ∧ t.busy = false ∧ t.err = .pinWrite ∧ t.trace = s.trace) ∧
    (∀ k, s.seq.phase = .acq → k < s.acqOps → FailsAfter k s → ∃ t, step s = .next t ∧
      t.seq = { phase := .idle, rep := 0, bit := 0 } ∧ t.busy = false ∧ t.err = .pinInit ∧
      t.trace = s.trace ++ s.acqEvents.take k)

/-- A step runs the decoded instruction: the next item of the program when the sequencer is idle or when it is the host's
turn, the instruction SEQ names otherwise, followed by the move to the next SEQ unless it raised (R161, R205). The model's choice, not the spec's words: the program
handed over in `prog` (log 1), an item that is an operation of the sequencer waiting while it is at work (log 4), the
choice of who moves, `turn` (log 6), and the refusal of an item that is no operation of the block (log 30). -/
def Obligations.StepRunsDecoded : Prop :=
  (∀ (s : State) (item : Item) (rest : List Item) (i : Instr),
    s.faulted = false → s.prog = item :: rest → decode item = .instr i →
      (s.seq.phase = .idle → step s = exec i { s with prog := rest }) ∧
      (s.seq.phase ≠ .idle → isHostOp i = true → s.turn = .host →
        step s = exec i { s with prog := rest, turns := s.turns.tail }) ∧
      (s.seq.phase ≠ .idle → isHostOp i = true → s.turn = .sequencer →
        step s = sequencerStep { s with turns := s.turns.tail }) ∧
      (s.seq.phase ≠ .idle → isHostOp i = false → step s = sequencerStep s)) ∧
  (∀ (s : State) (item : Item) (rest : List Item) (why : Reject),
    s.faulted = false → s.prog = item :: rest → decode item = .rejected why → s.seq.phase = .idle →
      step s = .refused (.undecodable why)) ∧
  (∀ s : State, s.faulted = false → s.prog = [] → s.seq.phase = .idle → step s = .next s) ∧
  (∀ s : State, s.faulted = false → s.prog = [] → s.seq.phase ≠ .idle → step s = sequencerStep s) ∧
  (∀ (s t : State) (i : Instr), s.seqInstr = some i → exec i s = .next t →
    sequencerStep s = .next (if t.seq.phase = .idle then t else t.advance))

/-- R164, R85, R101, R102, R167: with every answer ok, SEND g, a, v writes the command, sends its frame CFG_RETRIES times on
CFG_PIN and ends well; ON is SEND with v = 1, OFF with v = 0, ALL with address 6. -/
def Obligations.SendCompletes : Prop :=
  (∀ (s : State) (g a v : Nat), s.Ready →
    AnswersOk ((s.sendStart g a v).acqOps + 50 * s.cfgRetries.toNat) s →
      (∃ t, exec (.send g a v) s = .next t ∧ SentWell s t g a v)) ∧
  (∀ (s : State) (g : BitVec 10) (a : BitVec 3), s.Ready →
    AnswersOk ((s.sendStart g.toNat a.toNat 1).acqOps + 50 * s.cfgRetries.toNat) s →
      (∃ t, exec (.on g a) s = .next t ∧ SentWell s t g.toNat a.toNat 1 ∧
        t.frame = encodeFrame g.toNat a.toNat true)) ∧
  (∀ (s : State) (g : BitVec 10) (a : BitVec 3), s.Ready →
    AnswersOk ((s.sendStart g.toNat a.toNat 0).acqOps + 50 * s.cfgRetries.toNat) s →
      (∃ t, exec (.off g a) s = .next t ∧ SentWell s t g.toNat a.toNat 0 ∧
        t.frame = encodeFrame g.toNat a.toNat false)) ∧
  (∀ (s : State) (g v : Nat), s.Ready →
    AnswersOk ((s.sendStart g 6 v).acqOps + 50 * s.cfgRetries.toNat) s →
      (∃ t, exec (.all g v) s = .next t ∧ SentWell s t g 6 v))

/-- R164: when a pin operation of its run fails, SEND leaves the failure in ERR and the host's program stops; the command
was written and the rest is the frame of the run. That nothing of the program is left is the model's (log 19). -/
def Obligations.SendFails : Prop :=
  ∀ (s : State) (g a v k : Nat), s.Ready →
    k < (s.sendStart g a v).acqOps + 50 * s.cfgRetries.toNat → FailsAfter k s →
      ∃ t, exec (.send g a v) s = .next t ∧ t.Failed ∧ t.prog = [] ∧
        t.err = (if k < (s.sendStart g a v).acqOps then .pinInit else .pinWrite) ∧
        (∀ q, q ≠ s.cfgPin → t.level q = s.level q) ∧
        RunFrame (s.sendStart g a v) { t with prog := s.prog }

/-- R167: ALL g, v is SEND g, 6, v. -/
def Obligations.AllIsSend : Prop :=
  ∀ (g v : Nat) (s : State), exec (.all g v) s = exec (.send g 6 v) s

/-- R166, R86: with every answer ok, BATCH sends one run per pair of the cartesian product, group-major, acquires the pin
once, and pauses 200000 us between two runs, not before the first and not after the last: the records of time are those
of the runs, each a setup time and one interval per hold of its pair's frames, with one pause between each two. A batch
with an empty list does nothing (log 29). That a run's records begin with its setup time is the model's (log 9). -/
def Obligations.BatchCompletes : Prop :=
  ∀ (s : State) (groups addrs : List Nat) (v : Nat) (pairs : List (Nat × Nat)), s.Ready →
    pairs = groups.flatMap (fun g => addrs.map fun a => (g, a)) →
    AnswersOk (s.startRun.acqOps + 50 * s.cfgRetries.toNat * pairs.length) s →
      ∃ (t : State) (runs : List (List Timed)), exec (.batch groups addrs v) s = .next t ∧
        t.trace = s.trace ++ (if pairs = [] then [] else s.startRun.acqEvents) ++
          pairs.flatMap (fun q => (s.sendStart q.1 q.2 v).framesEvents s.cfgRetries.toNat) ∧
        (pairs ≠ [] → t.busy = false ∧ t.done = true ∧ t.err = .none) ∧
        t.times = s.times ++ List.intercalate [.pause 200000] runs ∧
        runs.map heldOfTimes =
          pairs.map (fun q => heldOfTrace ((s.sendStart q.1 q.2 v).framesEvents s.cfgRetries.toNat)) ∧
        (∀ r ∈ runs, ∃ setup rest, r = .setup setup :: rest ∧ ∀ x ∈ rest, ∃ l d e, x = .interval l d e) ∧
        t.times.count (.pause 200000) = s.times.count (.pause 200000) + (pairs.length - 1) ∧
        (pairs = [] → t = s) ∧
        (pairs ≠ [] → s.cfgRetries ≠ 0 → t.level s.cfgPin = .low) ∧
        (∀ q, q ≠ s.cfgPin → t.level q = s.level q) ∧
        (∀ q, t.isConfigured q = (s.isConfigured q || (!pairs.isEmpty && q == s.cfgPin))) ∧
        BatchFrame s t

/-- R166: the loop of BATCH, pair by pair, for any list of pairs: a SEND that fails ends it in the state that SEND leaves,
and the remaining pairs are not sent; after a SEND that did not fail the remaining pairs follow, a pause of 200000 us
later. BATCH is that loop over its pairs, group-major, and its first SEND's failure is its end. -/
def Obligations.BatchStopsAtFailure : Prop :=
  (∀ (s t : State) (g a v : Nat) (rest : List (Nat × Nat)), s.Ready →
    exec (.send g a v) s = .next t → t.err ≠ .none →
      (sendPairs v ((g, a) :: rest) s).outcome = .next t) ∧
  (∀ (s t : State) (g a v : Nat) (q : Nat × Nat) (rest : List (Nat × Nat)), s.Ready →
    exec (.send g a v) s = .next t → t.err = .none →
      sendPairs v ((g, a) :: q :: rest) s =
        sendPairs v (q :: rest) { t with times := t.times ++ [.pause 200000] }) ∧
  (∀ (s : State) (groups addrs : List Nat) (v : Nat),
    exec (.batch groups addrs v) s =
      (sendPairs v (groups.flatMap fun g => addrs.map fun a => (g, a)) s).outcome) ∧
  (∀ (s t : State) (g a v : Nat) (groups addrs : List Nat), s.Ready →
    exec (.send g a v) s = .next t → t.err ≠ .none →
      exec (.batch (g :: groups) (a :: addrs) v) s = .next t)

/-- R166, R164, R196: a batch whose k-th pin operation is the first to fail, in whichever of its runs that is: the runs
before have happened, the failing run up to that operation, and the remaining pairs are not sent. `j` is the index of the
failing run; there were j pauses. The host's program stops (R164; that nothing of it is left is log 19). -/
def Obligations.BatchEarliestFailure : Prop :=
  ∀ (s : State) (groups addrs : List Nat) (v k j : Nat) (pairs : List (Nat × Nat)), s.Ready →
    pairs = groups.flatMap (fun g => addrs.map fun a => (g, a)) → pairs ≠ [] →
    k < s.startRun.acqOps + 50 * s.cfgRetries.toNat * pairs.length → FailsAfter k s →
    j = (k - s.startRun.acqOps) / (50 * s.cfgRetries.toNat) →
      ∃ (t : State) (l : List Event) (e : Event) (q : Nat × Nat), exec (.batch groups addrs v) s = .next t ∧
        t.trace = s.trace ++ l ∧
        l ++ [e] <+: s.startRun.acqEvents ++
          pairs.flatMap (fun q => (s.sendStart q.1 q.2 v).framesEvents s.cfgRetries.toNat) ∧
        e.isPinOp = true ∧ (l.filter Event.isPinOp).length = k ∧
        t.Failed ∧ t.err = (if k < s.startRun.acqOps then .pinInit else .pinWrite) ∧ t.prog = [] ∧
        pairs[j]? = some q ∧ t.frame = encodeFrame q.1 q.2 (v % 2 == 1) ∧
        t.cmdGroup.toNat = q.1 % 1024 ∧ t.cmdAddr.toNat = q.2 % 8 ∧ t.cmdOn.toNat = v % 2 ∧
        t.times.count (.pause 200000) = s.times.count (.pause 200000) + j ∧
        (s.startRun.acqOps ≤ k → t.level s.cfgPin = .unknown) ∧
        (∀ q, q ≠ s.cfgPin → t.level q = s.level q) ∧
        BatchFrame s { t with prog := s.prog }

/-- R165: PAUSE d passes host time and does nothing to the block. R165 speaks of an idle block: that the same holds while BUSY
is the model's choice (log 31). -/
def Obligations.PauseResult : Prop :=
  ∀ (d : Nat) (s : State), ∃ t, exec (.pause d) s = .next t ∧
    observedTotal t.times = observedTotal s.times + d ∧ heldOfTimes t.times = heldOfTimes s.times ∧
    t = { s with times := t.times }

/-- R22: no operation writes the hardwired timing table. -/
def Obligations.TimingHardwired : Prop :=
  ∀ s t : State, step s = .next t → t.bitTiming = s.bitTiming

/-- R31: the trace only grows. -/
def Obligations.TraceGrows : Prop :=
  ∀ s t : State, step s = .next t → s.trace <+: t.trace

/-- R120, R130: one timed interval per HOLD: the records of time hold the held durations of the trace, in order. -/
def Obligations.OneIntervalPerHold : Prop :=
  ∀ s t : State, heldOfTimes s.times = heldOfTrace s.trace → step s = .next t →
    heldOfTimes t.times = heldOfTrace t.trace

/-- R32, R220: the reset values that the spec states. -/
def Obligations.ResetValues : Prop :=
  State.reset.cfgPinWritten = false ∧ State.reset.cfgRetries = Config.retriesDefault ∧
  State.reset.cfgGap = 20000 ∧ State.reset.cfgLatency = 80 ∧
  State.reset.seq = { phase := .idle, rep := 0, bit := 0 } ∧ State.reset.timer = 0 ∧
  State.reset.busy = false ∧ State.reset.done = false ∧ State.reset.err = .none ∧
  State.reset.gpioInit = false ∧ (∀ p, State.reset.isConfigured p = false) ∧
  (∀ p, State.reset.level p = .unknown) ∧ State.reset.trace = [] ∧ State.reset.faulted = false

/-- The state after reset is a legal one, and nothing was acquired in it (R32, R220). -/
def Obligations.ResetInvariant : Prop :=
  State.reset.Inv ∧ State.reset.AcqOnce ∧ heldOfTimes State.reset.times = heldOfTrace State.reset.trace

/-- Every step leads from a legal state to a legal state (R26, R27, R135, R152, R153, R161). -/
def Obligations.StepKeepsInvariant : Prop :=
  ∀ s t : State, s.Inv → step s = .next t → t.Inv

/-- R232, R233, R234: the held time of a transmission of N repetitions, and of any n repetitions, when nothing saturates. -/
def Obligations.HeldTime : Prop :=
  (∀ s : State, s.xLat.toNat ≤ 250 → s.xLat.toNat ≤ s.xGap.toNat →
    AnswersOk (s.acqOps + 50 * s.xRetries.toNat) s →
      ∃ t, exec .transmit s = .next t ∧
        heldTotal t.trace = heldTotal s.trace +
          s.xRetries.toNat * (25 * (1188 - 2 * s.xLat.toNat) + (s.xGap.toNat - s.xLat.toNat))) ∧
  (∀ (s : State) (n : Nat), s.xLat.toNat ≤ 250 → s.xLat.toNat ≤ s.xGap.toNat →
    heldTotal (s.framesEvents n) = n * (25 * (1188 - 2 * s.xLat.toNat) + (s.xGap.toNat - s.xLat.toNat)))

/-- R235: in the calibrated case a run lasts its setup time and N times 29700 us and the gap. -/
def Obligations.ObservedTime : Prop :=
  ∀ s : State, AnswersOk (s.acqOps + 50 * s.xRetries.toNat) s →
    s.eps.script.take (51 * s.xRetries.toNat) = List.replicate (51 * s.xRetries.toNat) s.xLat.toNat →
    s.xLat.toNat ≤ 250 → s.xLat.toNat ≤ s.xGap.toNat →
      ∃ t, exec .transmit s = .next t ∧
        observedTotal t.times = observedTotal s.times + s.nextSetup + s.xRetries.toNat * (29700 + s.xGap.toNat)

/-- R236: in the calibrated case a batch of m commands lasts m runs, each with its own setup time, and m - 1 pauses of
200000 us. -/
def Obligations.BatchTime : Prop :=
  ∀ (s : State) (groups addrs : List Nat) (v m : Nat) (setups : List Nat), s.Ready →
    m = groups.length * addrs.length →
    AnswersOk (s.startRun.acqOps + 50 * s.cfgRetries.toNat * m) s →
    s.eps.script.take (51 * s.cfgRetries.toNat * m) = List.replicate (51 * s.cfgRetries.toNat * m) s.cfgLatency.toNat →
    setups.length = m → s.setups.script.take m = setups →
    s.cfgLatency.toNat ≤ 250 → s.cfgLatency.toNat ≤ s.cfgGap.toNat →
      ∃ t, exec (.batch groups addrs v) s = .next t ∧
        observedTotal t.times = observedTotal s.times +
          setups.sum + m * (s.cfgRetries.toNat * (29700 + s.cfgGap.toNat)) + (m - 1) * 200000

/-- R233: the nominal time a frame holds the line HIGH depends on its bits: `938 z + 407 w` for z zeros and w ones by
default, with z + w = 25 and 6 <= w <= 20; the pairs change places under the other assignment. -/
def Obligations.FrameHighTime : Prop :=
  ∀ (g a : Nat) (on : Bool) (z w : Nat),
    z = (frameBits (encodeFrame g a on)).count false → w = (frameBits (encodeFrame g a on)).count true →
      z + w = 25 ∧ 6 ≤ w ∧ w ≤ 20 ∧
      ((frameBits (encodeFrame g a on)).map fun b => (pulse .standard b).high.toNat).sum = 938 * z + 407 * w ∧
      ((frameBits (encodeFrame g a on)).map fun b => (pulse .swapped b).high.toNat).sum = 407 * z + 938 * w

/-- R162, R195, R36: no host operation changes the course of a run: while BUSY it writes operand and configuration
registers, the read data, the record of time and FAULTED at most. The record of time is written by a PAUSE given while
BUSY, which is the model's choice (log 31). -/
def Obligations.NoCancellation : Prop :=
  ∀ (i : Instr) (s t : State), isHostOp i = true → s.busy = true → exec i s = .next t →
    t = { s with
      cmdGroup := t.cmdGroup, cmdAddr := t.cmdAddr, cmdOn := t.cmdOn
      cfgPin := t.cfgPin, cfgPinWritten := t.cfgPinWritten
      cfgRetries := t.cfgRetries, cfgGap := t.cfgGap, cfgLatency := t.cfgLatency
      readData := t.readData, times := t.times, faulted := t.faulted }

/-- R30, R57, R126: a line changes its level by a Set and nothing else: these operations leave every line as it is. -/
def Obligations.LevelsChangeBySetOnly : Prop :=
  ∀ (s t : State) (i : Instr),
    (i = .gap ∨ (∃ d, i = .hold d) ∨ (∃ r v, i = .wrcfg r v) ∨ (∃ r, i = .rdreg r) ∨ i = .start ∨ i = .acq ∨
      i = .drvinit ∨ (∃ p, i = .cfgout p) ∨ (∃ d, i = .pause d)) →
    exec i s = .next t → t.levels = s.levels
end

