-- ==== Sys2Proof/Laws/State.lean ====
section
/-! SUPPORT. One lemma per field per named update of the state, and the same for a hold: no later proof unfolds a record
update. An equation of two states goes field by field (ext1, then simp), never by rfl: Lean compares nested updates
field by field again and again. -/

namespace Sys2Proof.Machine

variable (s : State) (e : Event) (p : Pin) (l : Level) (f : Failure) (d : Dur) (n : Nat)
variable (ph : Phase) (rp : Count) (bt : BitVec 5) (q : Pin) (b : Bool)

/-! `popAnswer` -/
@[simp] theorem State.popAnswer_cmdGroup : s.popAnswer.cmdGroup = s.cmdGroup := rfl
@[simp] theorem State.popAnswer_cmdAddr : s.popAnswer.cmdAddr = s.cmdAddr := rfl
@[simp] theorem State.popAnswer_cmdOn : s.popAnswer.cmdOn = s.cmdOn := rfl
@[simp] theorem State.popAnswer_frame : s.popAnswer.frame = s.frame := rfl
@[simp] theorem State.popAnswer_cfgPin : s.popAnswer.cfgPin = s.cfgPin := rfl
@[simp] theorem State.popAnswer_cfgPinWritten : s.popAnswer.cfgPinWritten = s.cfgPinWritten := rfl
@[simp] theorem State.popAnswer_cfgRetries : s.popAnswer.cfgRetries = s.cfgRetries := rfl
@[simp] theorem State.popAnswer_cfgGap : s.popAnswer.cfgGap = s.cfgGap := rfl
@[simp] theorem State.popAnswer_cfgLatency : s.popAnswer.cfgLatency = s.cfgLatency := rfl
@[simp] theorem State.popAnswer_xPin : s.popAnswer.xPin = s.xPin := rfl
@[simp] theorem State.popAnswer_xRetries : s.popAnswer.xRetries = s.xRetries := rfl
@[simp] theorem State.popAnswer_xGap : s.popAnswer.xGap = s.xGap := rfl
@[simp] theorem State.popAnswer_xLat : s.popAnswer.xLat = s.xLat := rfl
@[simp] theorem State.popAnswer_bitTiming : s.popAnswer.bitTiming = s.bitTiming := rfl
@[simp] theorem State.popAnswer_seq : s.popAnswer.seq = s.seq := rfl
@[simp] theorem State.popAnswer_timer : s.popAnswer.timer = s.timer := rfl
@[simp] theorem State.popAnswer_busy : s.popAnswer.busy = s.busy := rfl
@[simp] theorem State.popAnswer_done : s.popAnswer.done = s.done := rfl
@[simp] theorem State.popAnswer_err : s.popAnswer.err = s.err := rfl
@[simp] theorem State.popAnswer_gpioInit : s.popAnswer.gpioInit = s.gpioInit := rfl
@[simp] theorem State.popAnswer_configured : s.popAnswer.configured = s.configured := rfl
@[simp] theorem State.popAnswer_levels : s.popAnswer.levels = s.levels := rfl
@[simp] theorem State.popAnswer_trace : s.popAnswer.trace = s.trace := rfl
@[simp] theorem State.popAnswer_faulted : s.popAnswer.faulted = s.faulted := rfl
@[simp] theorem State.popAnswer_prog : s.popAnswer.prog = s.prog := rfl
@[simp] theorem State.popAnswer_readData : s.popAnswer.readData = s.readData := rfl
@[simp] theorem State.popAnswer_times : s.popAnswer.times = s.times := rfl
@[simp] theorem State.popAnswer_answers : s.popAnswer.answers = s.answers.tail := rfl
@[simp] theorem State.popAnswer_eps : s.popAnswer.eps = s.eps := rfl
@[simp] theorem State.popAnswer_setups : s.popAnswer.setups = s.setups := rfl
@[simp] theorem State.popAnswer_turns : s.popAnswer.turns = s.turns := rfl
@[simp] theorem State.popAnswer_level : s.popAnswer.level q = s.level q := rfl
@[simp] theorem State.popAnswer_isConfigured : s.popAnswer.isConfigured q = s.isConfigured q := rfl
@[simp] theorem State.popAnswer_heldHigh : s.popAnswer.heldHigh b = s.heldHigh b := rfl
@[simp] theorem State.popAnswer_heldLow : s.popAnswer.heldLow b = s.heldLow b := rfl
@[simp] theorem State.popAnswer_heldGap : s.popAnswer.heldGap = s.heldGap := rfl
@[simp] theorem State.popAnswer_nextEps : s.popAnswer.nextEps = s.nextEps := rfl
@[simp] theorem State.popAnswer_nextSetup : s.popAnswer.nextSetup = s.nextSetup := rfl
@[simp] theorem State.popAnswer_currentBit : s.popAnswer.currentBit = s.currentBit := rfl

/-! `popTurn` -/
@[simp] theorem State.popTurn_cmdGroup : s.popTurn.cmdGroup = s.cmdGroup := rfl
@[simp] theorem State.popTurn_cmdAddr : s.popTurn.cmdAddr = s.cmdAddr := rfl
@[simp] theorem State.popTurn_cmdOn : s.popTurn.cmdOn = s.cmdOn := rfl
@[simp] theorem State.popTurn_frame : s.popTurn.frame = s.frame := rfl
@[simp] theorem State.popTurn_cfgPin : s.popTurn.cfgPin = s.cfgPin := rfl
@[simp] theorem State.popTurn_cfgPinWritten : s.popTurn.cfgPinWritten = s.cfgPinWritten := rfl
@[simp] theorem State.popTurn_cfgRetries : s.popTurn.cfgRetries = s.cfgRetries := rfl
@[simp] theorem State.popTurn_cfgGap : s.popTurn.cfgGap = s.cfgGap := rfl
@[simp] theorem State.popTurn_cfgLatency : s.popTurn.cfgLatency = s.cfgLatency := rfl
@[simp] theorem State.popTurn_xPin : s.popTurn.xPin = s.xPin := rfl
@[simp] theorem State.popTurn_xRetries : s.popTurn.xRetries = s.xRetries := rfl
@[simp] theorem State.popTurn_xGap : s.popTurn.xGap = s.xGap := rfl
@[simp] theorem State.popTurn_xLat : s.popTurn.xLat = s.xLat := rfl
@[simp] theorem State.popTurn_bitTiming : s.popTurn.bitTiming = s.bitTiming := rfl
@[simp] theorem State.popTurn_seq : s.popTurn.seq = s.seq := rfl
@[simp] theorem State.popTurn_timer : s.popTurn.timer = s.timer := rfl
@[simp] theorem State.popTurn_busy : s.popTurn.busy = s.busy := rfl
@[simp] theorem State.popTurn_done : s.popTurn.done = s.done := rfl
@[simp] theorem State.popTurn_err : s.popTurn.err = s.err := rfl
@[simp] theorem State.popTurn_gpioInit : s.popTurn.gpioInit = s.gpioInit := rfl
@[simp] theorem State.popTurn_configured : s.popTurn.configured = s.configured := rfl
@[simp] theorem State.popTurn_levels : s.popTurn.levels = s.levels := rfl
@[simp] theorem State.popTurn_trace : s.popTurn.trace = s.trace := rfl
@[simp] theorem State.popTurn_faulted : s.popTurn.faulted = s.faulted := rfl
@[simp] theorem State.popTurn_prog : s.popTurn.prog = s.prog := rfl
@[simp] theorem State.popTurn_readData : s.popTurn.readData = s.readData := rfl
@[simp] theorem State.popTurn_times : s.popTurn.times = s.times := rfl
@[simp] theorem State.popTurn_answers : s.popTurn.answers = s.answers := rfl
@[simp] theorem State.popTurn_eps : s.popTurn.eps = s.eps := rfl
@[simp] theorem State.popTurn_setups : s.popTurn.setups = s.setups := rfl
@[simp] theorem State.popTurn_turns : s.popTurn.turns = s.turns.tail := rfl
@[simp] theorem State.popTurn_level : s.popTurn.level q = s.level q := rfl
@[simp] theorem State.popTurn_isConfigured : s.popTurn.isConfigured q = s.isConfigured q := rfl
@[simp] theorem State.popTurn_answer : s.popTurn.answer = s.answer := rfl
@[simp] theorem State.popTurn_heldHigh : s.popTurn.heldHigh b = s.heldHigh b := rfl
@[simp] theorem State.popTurn_heldLow : s.popTurn.heldLow b = s.heldLow b := rfl
@[simp] theorem State.popTurn_heldGap : s.popTurn.heldGap = s.heldGap := rfl
@[simp] theorem State.popTurn_nextEps : s.popTurn.nextEps = s.nextEps := rfl
@[simp] theorem State.popTurn_nextSetup : s.popTurn.nextSetup = s.nextSetup := rfl
@[simp] theorem State.popTurn_currentBit : s.popTurn.currentBit = s.currentBit := rfl

/-! `emit` -/
@[simp] theorem State.emit_cmdGroup : (s.emit e).cmdGroup = s.cmdGroup := rfl
@[simp] theorem State.emit_cmdAddr : (s.emit e).cmdAddr = s.cmdAddr := rfl
@[simp] theorem State.emit_cmdOn : (s.emit e).cmdOn = s.cmdOn := rfl
@[simp] theorem State.emit_frame : (s.emit e).frame = s.frame := rfl
@[simp] theorem State.emit_cfgPin : (s.emit e).cfgPin = s.cfgPin := rfl
@[simp] theorem State.emit_cfgPinWritten : (s.emit e).cfgPinWritten = s.cfgPinWritten := rfl
@[simp] theorem State.emit_cfgRetries : (s.emit e).cfgRetries = s.cfgRetries := rfl
@[simp] theorem State.emit_cfgGap : (s.emit e).cfgGap = s.cfgGap := rfl
@[simp] theorem State.emit_cfgLatency : (s.emit e).cfgLatency = s.cfgLatency := rfl
@[simp] theorem State.emit_xPin : (s.emit e).xPin = s.xPin := rfl
@[simp] theorem State.emit_xRetries : (s.emit e).xRetries = s.xRetries := rfl
@[simp] theorem State.emit_xGap : (s.emit e).xGap = s.xGap := rfl
@[simp] theorem State.emit_xLat : (s.emit e).xLat = s.xLat := rfl
@[simp] theorem State.emit_bitTiming : (s.emit e).bitTiming = s.bitTiming := rfl
@[simp] theorem State.emit_seq : (s.emit e).seq = s.seq := rfl
@[simp] theorem State.emit_timer : (s.emit e).timer = s.timer := rfl
@[simp] theorem State.emit_busy : (s.emit e).busy = s.busy := rfl
@[simp] theorem State.emit_done : (s.emit e).done = s.done := rfl
@[simp] theorem State.emit_err : (s.emit e).err = s.err := rfl
@[simp] theorem State.emit_gpioInit : (s.emit e).gpioInit = s.gpioInit := rfl
@[simp] theorem State.emit_configured : (s.emit e).configured = s.configured := rfl
@[simp] theorem State.emit_levels : (s.emit e).levels = s.levels := rfl
@[simp] theorem State.emit_trace : (s.emit e).trace = s.trace ++ [e] := rfl
@[simp] theorem State.emit_faulted : (s.emit e).faulted = s.faulted := rfl
@[simp] theorem State.emit_prog : (s.emit e).prog = s.prog := rfl
@[simp] theorem State.emit_readData : (s.emit e).readData = s.readData := rfl
@[simp] theorem State.emit_times : (s.emit e).times = s.times := rfl
@[simp] theorem State.emit_answers : (s.emit e).answers = s.answers := rfl
@[simp] theorem State.emit_eps : (s.emit e).eps = s.eps := rfl
@[simp] theorem State.emit_setups : (s.emit e).setups = s.setups := rfl
@[simp] theorem State.emit_turns : (s.emit e).turns = s.turns := rfl
@[simp] theorem State.emit_level : (s.emit e).level q = s.level q := rfl
@[simp] theorem State.emit_isConfigured : (s.emit e).isConfigured q = s.isConfigured q := rfl
@[simp] theorem State.emit_answer : (s.emit e).answer = s.answer := rfl
@[simp] theorem State.emit_heldHigh : (s.emit e).heldHigh b = s.heldHigh b := rfl
@[simp] theorem State.emit_heldLow : (s.emit e).heldLow b = s.heldLow b := rfl
@[simp] theorem State.emit_heldGap : (s.emit e).heldGap = s.heldGap := rfl
@[simp] theorem State.emit_nextEps : (s.emit e).nextEps = s.nextEps := rfl
@[simp] theorem State.emit_nextSetup : (s.emit e).nextSetup = s.nextSetup := rfl
@[simp] theorem State.emit_currentBit : (s.emit e).currentBit = s.currentBit := rfl

/-! `setLevel` -/
@[simp] theorem State.setLevel_cmdGroup : (s.setLevel p l).cmdGroup = s.cmdGroup := rfl
@[simp] theorem State.setLevel_cmdAddr : (s.setLevel p l).cmdAddr = s.cmdAddr := rfl
@[simp] theorem State.setLevel_cmdOn : (s.setLevel p l).cmdOn = s.cmdOn := rfl
@[simp] theorem State.setLevel_frame : (s.setLevel p l).frame = s.frame := rfl
@[simp] theorem State.setLevel_cfgPin : (s.setLevel p l).cfgPin = s.cfgPin := rfl
@[simp] theorem State.setLevel_cfgPinWritten : (s.setLevel p l).cfgPinWritten = s.cfgPinWritten := rfl
@[simp] theorem State.setLevel_cfgRetries : (s.setLevel p l).cfgRetries = s.cfgRetries := rfl
@[simp] theorem State.setLevel_cfgGap : (s.setLevel p l).cfgGap = s.cfgGap := rfl
@[simp] theorem State.setLevel_cfgLatency : (s.setLevel p l).cfgLatency = s.cfgLatency := rfl
@[simp] theorem State.setLevel_xPin : (s.setLevel p l).xPin = s.xPin := rfl
@[simp] theorem State.setLevel_xRetries : (s.setLevel p l).xRetries = s.xRetries := rfl
@[simp] theorem State.setLevel_xGap : (s.setLevel p l).xGap = s.xGap := rfl
@[simp] theorem State.setLevel_xLat : (s.setLevel p l).xLat = s.xLat := rfl
@[simp] theorem State.setLevel_bitTiming : (s.setLevel p l).bitTiming = s.bitTiming := rfl
@[simp] theorem State.setLevel_seq : (s.setLevel p l).seq = s.seq := rfl
@[simp] theorem State.setLevel_timer : (s.setLevel p l).timer = s.timer := rfl
@[simp] theorem State.setLevel_busy : (s.setLevel p l).busy = s.busy := rfl
@[simp] theorem State.setLevel_done : (s.setLevel p l).done = s.done := rfl
@[simp] theorem State.setLevel_err : (s.setLevel p l).err = s.err := rfl
@[simp] theorem State.setLevel_gpioInit : (s.setLevel p l).gpioInit = s.gpioInit := rfl
@[simp] theorem State.setLevel_configured : (s.setLevel p l).configured = s.configured := rfl
@[simp] theorem State.setLevel_levels : (s.setLevel p l).levels = s.levels.set p.toNat l p.isLt := rfl
@[simp] theorem State.setLevel_trace : (s.setLevel p l).trace = s.trace := rfl
@[simp] theorem State.setLevel_faulted : (s.setLevel p l).faulted = s.faulted := rfl
@[simp] theorem State.setLevel_prog : (s.setLevel p l).prog = s.prog := rfl
@[simp] theorem State.setLevel_readData : (s.setLevel p l).readData = s.readData := rfl
@[simp] theorem State.setLevel_times : (s.setLevel p l).times = s.times := rfl
@[simp] theorem State.setLevel_answers : (s.setLevel p l).answers = s.answers := rfl
@[simp] theorem State.setLevel_eps : (s.setLevel p l).eps = s.eps := rfl
@[simp] theorem State.setLevel_setups : (s.setLevel p l).setups = s.setups := rfl
@[simp] theorem State.setLevel_turns : (s.setLevel p l).turns = s.turns := rfl
@[simp] theorem State.setLevel_isConfigured : (s.setLevel p l).isConfigured q = s.isConfigured q := rfl
@[simp] theorem State.setLevel_answer : (s.setLevel p l).answer = s.answer := rfl
@[simp] theorem State.setLevel_heldHigh : (s.setLevel p l).heldHigh b = s.heldHigh b := rfl
@[simp] theorem State.setLevel_heldLow : (s.setLevel p l).heldLow b = s.heldLow b := rfl
@[simp] theorem State.setLevel_heldGap : (s.setLevel p l).heldGap = s.heldGap := rfl
@[simp] theorem State.setLevel_nextEps : (s.setLevel p l).nextEps = s.nextEps := rfl
@[simp] theorem State.setLevel_nextSetup : (s.setLevel p l).nextSetup = s.nextSetup := rfl
@[simp] theorem State.setLevel_currentBit : (s.setLevel p l).currentBit = s.currentBit := rfl

/-! `addConfigured` -/
@[simp] theorem State.addConfigured_cmdGroup : (s.addConfigured p).cmdGroup = s.cmdGroup := rfl
@[simp] theorem State.addConfigured_cmdAddr : (s.addConfigured p).cmdAddr = s.cmdAddr := rfl
@[simp] theorem State.addConfigured_cmdOn : (s.addConfigured p).cmdOn = s.cmdOn := rfl
@[simp] theorem State.addConfigured_frame : (s.addConfigured p).frame = s.frame := rfl
@[simp] theorem State.addConfigured_cfgPin : (s.addConfigured p).cfgPin = s.cfgPin := rfl
@[simp] theorem State.addConfigured_cfgPinWritten : (s.addConfigured p).cfgPinWritten = s.cfgPinWritten := rfl
@[simp] theorem State.addConfigured_cfgRetries : (s.addConfigured p).cfgRetries = s.cfgRetries := rfl
@[simp] theorem State.addConfigured_cfgGap : (s.addConfigured p).cfgGap = s.cfgGap := rfl
@[simp] theorem State.addConfigured_cfgLatency : (s.addConfigured p).cfgLatency = s.cfgLatency := rfl
@[simp] theorem State.addConfigured_xPin : (s.addConfigured p).xPin = s.xPin := rfl
@[simp] theorem State.addConfigured_xRetries : (s.addConfigured p).xRetries = s.xRetries := rfl
@[simp] theorem State.addConfigured_xGap : (s.addConfigured p).xGap = s.xGap := rfl
@[simp] theorem State.addConfigured_xLat : (s.addConfigured p).xLat = s.xLat := rfl
@[simp] theorem State.addConfigured_bitTiming : (s.addConfigured p).bitTiming = s.bitTiming := rfl
@[simp] theorem State.addConfigured_seq : (s.addConfigured p).seq = s.seq := rfl
@[simp] theorem State.addConfigured_timer : (s.addConfigured p).timer = s.timer := rfl
@[simp] theorem State.addConfigured_busy : (s.addConfigured p).busy = s.busy := rfl
@[simp] theorem State.addConfigured_done : (s.addConfigured p).done = s.done := rfl
@[simp] theorem State.addConfigured_err : (s.addConfigured p).err = s.err := rfl
@[simp] theorem State.addConfigured_gpioInit : (s.addConfigured p).gpioInit = s.gpioInit := rfl
@[simp] theorem State.addConfigured_configured : (s.addConfigured p).configured = s.configured ||| BitVec.twoPow 256 p.toNat := rfl
@[simp] theorem State.addConfigured_levels : (s.addConfigured p).levels = s.levels := rfl
@[simp] theorem State.addConfigured_trace : (s.addConfigured p).trace = s.trace := rfl
@[simp] theorem State.addConfigured_faulted : (s.addConfigured p).faulted = s.faulted := rfl
@[simp] theorem State.addConfigured_prog : (s.addConfigured p).prog = s.prog := rfl
@[simp] theorem State.addConfigured_readData : (s.addConfigured p).readData = s.readData := rfl
@[simp] theorem State.addConfigured_times : (s.addConfigured p).times = s.times := rfl
@[simp] theorem State.addConfigured_answers : (s.addConfigured p).answers = s.answers := rfl
@[simp] theorem State.addConfigured_eps : (s.addConfigured p).eps = s.eps := rfl
@[simp] theorem State.addConfigured_setups : (s.addConfigured p).setups = s.setups := rfl
@[simp] theorem State.addConfigured_turns : (s.addConfigured p).turns = s.turns := rfl
@[simp] theorem State.addConfigured_level : (s.addConfigured p).level q = s.level q := rfl
@[simp] theorem State.addConfigured_answer : (s.addConfigured p).answer = s.answer := rfl
@[simp] theorem State.addConfigured_heldHigh : (s.addConfigured p).heldHigh b = s.heldHigh b := rfl
@[simp] theorem State.addConfigured_heldLow : (s.addConfigured p).heldLow b = s.heldLow b := rfl
@[simp] theorem State.addConfigured_heldGap : (s.addConfigured p).heldGap = s.heldGap := rfl
@[simp] theorem State.addConfigured_nextEps : (s.addConfigured p).nextEps = s.nextEps := rfl
@[simp] theorem State.addConfigured_nextSetup : (s.addConfigured p).nextSetup = s.nextSetup := rfl
@[simp] theorem State.addConfigured_currentBit : (s.addConfigured p).currentBit = s.currentBit := rfl

/-! `setGpioInit` -/
@[simp] theorem State.setGpioInit_cmdGroup : s.setGpioInit.cmdGroup = s.cmdGroup := rfl
@[simp] theorem State.setGpioInit_cmdAddr : s.setGpioInit.cmdAddr = s.cmdAddr := rfl
@[simp] theorem State.setGpioInit_cmdOn : s.setGpioInit.cmdOn = s.cmdOn := rfl
@[simp] theorem State.setGpioInit_frame : s.setGpioInit.frame = s.frame := rfl
@[simp] theorem State.setGpioInit_cfgPin : s.setGpioInit.cfgPin = s.cfgPin := rfl
@[simp] theorem State.setGpioInit_cfgPinWritten : s.setGpioInit.cfgPinWritten = s.cfgPinWritten := rfl
@[simp] theorem State.setGpioInit_cfgRetries : s.setGpioInit.cfgRetries = s.cfgRetries := rfl
@[simp] theorem State.setGpioInit_cfgGap : s.setGpioInit.cfgGap = s.cfgGap := rfl
@[simp] theorem State.setGpioInit_cfgLatency : s.setGpioInit.cfgLatency = s.cfgLatency := rfl
@[simp] theorem State.setGpioInit_xPin : s.setGpioInit.xPin = s.xPin := rfl
@[simp] theorem State.setGpioInit_xRetries : s.setGpioInit.xRetries = s.xRetries := rfl
@[simp] theorem State.setGpioInit_xGap : s.setGpioInit.xGap = s.xGap := rfl
@[simp] theorem State.setGpioInit_xLat : s.setGpioInit.xLat = s.xLat := rfl
@[simp] theorem State.setGpioInit_bitTiming : s.setGpioInit.bitTiming = s.bitTiming := rfl
@[simp] theorem State.setGpioInit_seq : s.setGpioInit.seq = s.seq := rfl
@[simp] theorem State.setGpioInit_timer : s.setGpioInit.timer = s.timer := rfl
@[simp] theorem State.setGpioInit_busy : s.setGpioInit.busy = s.busy := rfl
@[simp] theorem State.setGpioInit_done : s.setGpioInit.done = s.done := rfl
@[simp] theorem State.setGpioInit_err : s.setGpioInit.err = s.err := rfl
@[simp] theorem State.setGpioInit_gpioInit : s.setGpioInit.gpioInit = true := rfl
@[simp] theorem State.setGpioInit_configured : s.setGpioInit.configured = s.configured := rfl
@[simp] theorem State.setGpioInit_levels : s.setGpioInit.levels = s.levels := rfl
@[simp] theorem State.setGpioInit_trace : s.setGpioInit.trace = s.trace := rfl
@[simp] theorem State.setGpioInit_faulted : s.setGpioInit.faulted = s.faulted := rfl
@[simp] theorem State.setGpioInit_prog : s.setGpioInit.prog = s.prog := rfl
@[simp] theorem State.setGpioInit_readData : s.setGpioInit.readData = s.readData := rfl
@[simp] theorem State.setGpioInit_times : s.setGpioInit.times = s.times := rfl
@[simp] theorem State.setGpioInit_answers : s.setGpioInit.answers = s.answers := rfl
@[simp] theorem State.setGpioInit_eps : s.setGpioInit.eps = s.eps := rfl
@[simp] theorem State.setGpioInit_setups : s.setGpioInit.setups = s.setups := rfl
@[simp] theorem State.setGpioInit_turns : s.setGpioInit.turns = s.turns := rfl
@[simp] theorem State.setGpioInit_level : s.setGpioInit.level q = s.level q := rfl
@[simp] theorem State.setGpioInit_isConfigured : s.setGpioInit.isConfigured q = s.isConfigured q := rfl
@[simp] theorem State.setGpioInit_answer : s.setGpioInit.answer = s.answer := rfl
@[simp] theorem State.setGpioInit_heldHigh : s.setGpioInit.heldHigh b = s.heldHigh b := rfl
@[simp] theorem State.setGpioInit_heldLow : s.setGpioInit.heldLow b = s.heldLow b := rfl
@[simp] theorem State.setGpioInit_heldGap : s.setGpioInit.heldGap = s.heldGap := rfl
@[simp] theorem State.setGpioInit_nextEps : s.setGpioInit.nextEps = s.nextEps := rfl
@[simp] theorem State.setGpioInit_nextSetup : s.setGpioInit.nextSetup = s.nextSetup := rfl
@[simp] theorem State.setGpioInit_currentBit : s.setGpioInit.currentBit = s.currentBit := rfl

/-! `moveTo` -/
@[simp] theorem State.moveTo_cmdGroup : (s.moveTo ph rp bt).cmdGroup = s.cmdGroup := rfl
@[simp] theorem State.moveTo_cmdAddr : (s.moveTo ph rp bt).cmdAddr = s.cmdAddr := rfl
@[simp] theorem State.moveTo_cmdOn : (s.moveTo ph rp bt).cmdOn = s.cmdOn := rfl
@[simp] theorem State.moveTo_frame : (s.moveTo ph rp bt).frame = s.frame := rfl
@[simp] theorem State.moveTo_cfgPin : (s.moveTo ph rp bt).cfgPin = s.cfgPin := rfl
@[simp] theorem State.moveTo_cfgPinWritten : (s.moveTo ph rp bt).cfgPinWritten = s.cfgPinWritten := rfl
@[simp] theorem State.moveTo_cfgRetries : (s.moveTo ph rp bt).cfgRetries = s.cfgRetries := rfl
@[simp] theorem State.moveTo_cfgGap : (s.moveTo ph rp bt).cfgGap = s.cfgGap := rfl
@[simp] theorem State.moveTo_cfgLatency : (s.moveTo ph rp bt).cfgLatency = s.cfgLatency := rfl
@[simp] theorem State.moveTo_xPin : (s.moveTo ph rp bt).xPin = s.xPin := rfl
@[simp] theorem State.moveTo_xRetries : (s.moveTo ph rp bt).xRetries = s.xRetries := rfl
@[simp] theorem State.moveTo_xGap : (s.moveTo ph rp bt).xGap = s.xGap := rfl
@[simp] theorem State.moveTo_xLat : (s.moveTo ph rp bt).xLat = s.xLat := rfl
@[simp] theorem State.moveTo_bitTiming : (s.moveTo ph rp bt).bitTiming = s.bitTiming := rfl
@[simp] theorem State.moveTo_seq : (s.moveTo ph rp bt).seq = { phase := ph, rep := rp, bit := bt } := rfl
@[simp] theorem State.moveTo_timer : (s.moveTo ph rp bt).timer = s.timer := rfl
@[simp] theorem State.moveTo_busy : (s.moveTo ph rp bt).busy = s.busy := rfl
@[simp] theorem State.moveTo_done : (s.moveTo ph rp bt).done = s.done := rfl
@[simp] theorem State.moveTo_err : (s.moveTo ph rp bt).err = s.err := rfl
@[simp] theorem State.moveTo_gpioInit : (s.moveTo ph rp bt).gpioInit = s.gpioInit := rfl
@[simp] theorem State.moveTo_configured : (s.moveTo ph rp bt).configured = s.configured := rfl
@[simp] theorem State.moveTo_levels : (s.moveTo ph rp bt).levels = s.levels := rfl
@[simp] theorem State.moveTo_trace : (s.moveTo ph rp bt).trace = s.trace := rfl
@[simp] theorem State.moveTo_faulted : (s.moveTo ph rp bt).faulted = s.faulted := rfl
@[simp] theorem State.moveTo_prog : (s.moveTo ph rp bt).prog = s.prog := rfl
@[simp] theorem State.moveTo_readData : (s.moveTo ph rp bt).readData = s.readData := rfl
@[simp] theorem State.moveTo_times : (s.moveTo ph rp bt).times = s.times := rfl
@[simp] theorem State.moveTo_answers : (s.moveTo ph rp bt).answers = s.answers := rfl
@[simp] theorem State.moveTo_eps : (s.moveTo ph rp bt).eps = s.eps := rfl
@[simp] theorem State.moveTo_setups : (s.moveTo ph rp bt).setups = s.setups := rfl
@[simp] theorem State.moveTo_turns : (s.moveTo ph rp bt).turns = s.turns := rfl
@[simp] theorem State.moveTo_level : (s.moveTo ph rp bt).level q = s.level q := rfl
@[simp] theorem State.moveTo_isConfigured : (s.moveTo ph rp bt).isConfigured q = s.isConfigured q := rfl
@[simp] theorem State.moveTo_answer : (s.moveTo ph rp bt).answer = s.answer := rfl
@[simp] theorem State.moveTo_heldHigh : (s.moveTo ph rp bt).heldHigh b = s.heldHigh b := rfl
@[simp] theorem State.moveTo_heldLow : (s.moveTo ph rp bt).heldLow b = s.heldLow b := rfl
@[simp] theorem State.moveTo_heldGap : (s.moveTo ph rp bt).heldGap = s.heldGap := rfl
@[simp] theorem State.moveTo_nextEps : (s.moveTo ph rp bt).nextEps = s.nextEps := rfl
@[simp] theorem State.moveTo_nextSetup : (s.moveTo ph rp bt).nextSetup = s.nextSetup := rfl

/-! `setFaulted` -/
@[simp] theorem State.setFaulted_cmdGroup : s.setFaulted.cmdGroup = s.cmdGroup := rfl
@[simp] theorem State.setFaulted_cmdAddr : s.setFaulted.cmdAddr = s.cmdAddr := rfl
@[simp] theorem State.setFaulted_cmdOn : s.setFaulted.cmdOn = s.cmdOn := rfl
@[simp] theorem State.setFaulted_frame : s.setFaulted.frame = s.frame := rfl
@[simp] theorem State.setFaulted_cfgPin : s.setFaulted.cfgPin = s.cfgPin := rfl
@[simp] theorem State.setFaulted_cfgPinWritten : s.setFaulted.cfgPinWritten = s.cfgPinWritten := rfl
@[simp] theorem State.setFaulted_cfgRetries : s.setFaulted.cfgRetries = s.cfgRetries := rfl
@[simp] theorem State.setFaulted_cfgGap : s.setFaulted.cfgGap = s.cfgGap := rfl
@[simp] theorem State.setFaulted_cfgLatency : s.setFaulted.cfgLatency = s.cfgLatency := rfl
@[simp] theorem State.setFaulted_xPin : s.setFaulted.xPin = s.xPin := rfl
@[simp] theorem State.setFaulted_xRetries : s.setFaulted.xRetries = s.xRetries := rfl
@[simp] theorem State.setFaulted_xGap : s.setFaulted.xGap = s.xGap := rfl
@[simp] theorem State.setFaulted_xLat : s.setFaulted.xLat = s.xLat := rfl
@[simp] theorem State.setFaulted_bitTiming : s.setFaulted.bitTiming = s.bitTiming := rfl
@[simp] theorem State.setFaulted_seq : s.setFaulted.seq = s.seq := rfl
@[simp] theorem State.setFaulted_timer : s.setFaulted.timer = s.timer := rfl
@[simp] theorem State.setFaulted_busy : s.setFaulted.busy = s.busy := rfl
@[simp] theorem State.setFaulted_done : s.setFaulted.done = s.done := rfl
@[simp] theorem State.setFaulted_err : s.setFaulted.err = s.err := rfl
@[simp] theorem State.setFaulted_gpioInit : s.setFaulted.gpioInit = s.gpioInit := rfl
@[simp] theorem State.setFaulted_configured : s.setFaulted.configured = s.configured := rfl
@[simp] theorem State.setFaulted_levels : s.setFaulted.levels = s.levels := rfl
@[simp] theorem State.setFaulted_trace : s.setFaulted.trace = s.trace := rfl
@[simp] theorem State.setFaulted_faulted : s.setFaulted.faulted = true := rfl
@[simp] theorem State.setFaulted_prog : s.setFaulted.prog = s.prog := rfl
@[simp] theorem State.setFaulted_readData : s.setFaulted.readData = s.readData := rfl
@[simp] theorem State.setFaulted_times : s.setFaulted.times = s.times := rfl
@[simp] theorem State.setFaulted_answers : s.setFaulted.answers = s.answers := rfl
@[simp] theorem State.setFaulted_eps : s.setFaulted.eps = s.eps := rfl
@[simp] theorem State.setFaulted_setups : s.setFaulted.setups = s.setups := rfl
@[simp] theorem State.setFaulted_turns : s.setFaulted.turns = s.turns := rfl
@[simp] theorem State.setFaulted_level : s.setFaulted.level q = s.level q := rfl
@[simp] theorem State.setFaulted_isConfigured : s.setFaulted.isConfigured q = s.isConfigured q := rfl
@[simp] theorem State.setFaulted_answer : s.setFaulted.answer = s.answer := rfl
@[simp] theorem State.setFaulted_heldHigh : s.setFaulted.heldHigh b = s.heldHigh b := rfl
@[simp] theorem State.setFaulted_heldLow : s.setFaulted.heldLow b = s.heldLow b := rfl
@[simp] theorem State.setFaulted_heldGap : s.setFaulted.heldGap = s.heldGap := rfl
@[simp] theorem State.setFaulted_nextEps : s.setFaulted.nextEps = s.nextEps := rfl
@[simp] theorem State.setFaulted_nextSetup : s.setFaulted.nextSetup = s.nextSetup := rfl
@[simp] theorem State.setFaulted_currentBit : s.setFaulted.currentBit = s.currentBit := rfl

/-! `raise` -/
@[simp] theorem State.raise_cmdGroup : (s.raise f).cmdGroup = s.cmdGroup := rfl
@[simp] theorem State.raise_cmdAddr : (s.raise f).cmdAddr = s.cmdAddr := rfl
@[simp] theorem State.raise_cmdOn : (s.raise f).cmdOn = s.cmdOn := rfl
@[simp] theorem State.raise_frame : (s.raise f).frame = s.frame := rfl
@[simp] theorem State.raise_cfgPin : (s.raise f).cfgPin = s.cfgPin := rfl
@[simp] theorem State.raise_cfgPinWritten : (s.raise f).cfgPinWritten = s.cfgPinWritten := rfl
@[simp] theorem State.raise_cfgRetries : (s.raise f).cfgRetries = s.cfgRetries := rfl
@[simp] theorem State.raise_cfgGap : (s.raise f).cfgGap = s.cfgGap := rfl
@[simp] theorem State.raise_cfgLatency : (s.raise f).cfgLatency = s.cfgLatency := rfl
@[simp] theorem State.raise_xPin : (s.raise f).xPin = s.xPin := rfl
@[simp] theorem State.raise_xRetries : (s.raise f).xRetries = s.xRetries := rfl
@[simp] theorem State.raise_xGap : (s.raise f).xGap = s.xGap := rfl
@[simp] theorem State.raise_xLat : (s.raise f).xLat = s.xLat := rfl
@[simp] theorem State.raise_bitTiming : (s.raise f).bitTiming = s.bitTiming := rfl
@[simp] theorem State.raise_seq : (s.raise f).seq = { phase := .idle, rep := 0, bit := 0 } := rfl
@[simp] theorem State.raise_timer : (s.raise f).timer = 0 := rfl
@[simp] theorem State.raise_busy : (s.raise f).busy = false := rfl
@[simp] theorem State.raise_done : (s.raise f).done = false := rfl
@[simp] theorem State.raise_err : (s.raise f).err = f := rfl
@[simp] theorem State.raise_gpioInit : (s.raise f).gpioInit = s.gpioInit := rfl
@[simp] theorem State.raise_configured : (s.raise f).configured = s.configured := rfl
@[simp] theorem State.raise_levels : (s.raise f).levels = s.levels := rfl
@[simp] theorem State.raise_trace : (s.raise f).trace = s.trace := rfl
@[simp] theorem State.raise_faulted : (s.raise f).faulted = s.faulted := rfl
@[simp] theorem State.raise_prog : (s.raise f).prog = s.prog := rfl
@[simp] theorem State.raise_readData : (s.raise f).readData = s.readData := rfl
@[simp] theorem State.raise_times : (s.raise f).times = s.times := rfl
@[simp] theorem State.raise_answers : (s.raise f).answers = s.answers := rfl
@[simp] theorem State.raise_eps : (s.raise f).eps = s.eps := rfl
@[simp] theorem State.raise_setups : (s.raise f).setups = s.setups := rfl
@[simp] theorem State.raise_turns : (s.raise f).turns = s.turns := rfl
@[simp] theorem State.raise_level : (s.raise f).level q = s.level q := rfl
@[simp] theorem State.raise_isConfigured : (s.raise f).isConfigured q = s.isConfigured q := rfl
@[simp] theorem State.raise_answer : (s.raise f).answer = s.answer := rfl
@[simp] theorem State.raise_heldHigh : (s.raise f).heldHigh b = s.heldHigh b := rfl
@[simp] theorem State.raise_heldLow : (s.raise f).heldLow b = s.heldLow b := rfl
@[simp] theorem State.raise_heldGap : (s.raise f).heldGap = s.heldGap := rfl
@[simp] theorem State.raise_nextEps : (s.raise f).nextEps = s.nextEps := rfl
@[simp] theorem State.raise_nextSetup : (s.raise f).nextSetup = s.nextSetup := rfl

/-! `finish` -/
@[simp] theorem State.finish_cmdGroup : s.finish.cmdGroup = s.cmdGroup := rfl
@[simp] theorem State.finish_cmdAddr : s.finish.cmdAddr = s.cmdAddr := rfl
@[simp] theorem State.finish_cmdOn : s.finish.cmdOn = s.cmdOn := rfl
@[simp] theorem State.finish_frame : s.finish.frame = s.frame := rfl
@[simp] theorem State.finish_cfgPin : s.finish.cfgPin = s.cfgPin := rfl
@[simp] theorem State.finish_cfgPinWritten : s.finish.cfgPinWritten = s.cfgPinWritten := rfl
@[simp] theorem State.finish_cfgRetries : s.finish.cfgRetries = s.cfgRetries := rfl
@[simp] theorem State.finish_cfgGap : s.finish.cfgGap = s.cfgGap := rfl
@[simp] theorem State.finish_cfgLatency : s.finish.cfgLatency = s.cfgLatency := rfl
@[simp] theorem State.finish_xPin : s.finish.xPin = s.xPin := rfl
@[simp] theorem State.finish_xRetries : s.finish.xRetries = s.xRetries := rfl
@[simp] theorem State.finish_xGap : s.finish.xGap = s.xGap := rfl
@[simp] theorem State.finish_xLat : s.finish.xLat = s.xLat := rfl
@[simp] theorem State.finish_bitTiming : s.finish.bitTiming = s.bitTiming := rfl
@[simp] theorem State.finish_seq : s.finish.seq = { phase := .idle, rep := 0, bit := 0 } := rfl
@[simp] theorem State.finish_timer : s.finish.timer = s.timer := rfl
@[simp] theorem State.finish_busy : s.finish.busy = false := rfl
@[simp] theorem State.finish_done : s.finish.done = true := rfl
@[simp] theorem State.finish_err : s.finish.err = s.err := rfl
@[simp] theorem State.finish_gpioInit : s.finish.gpioInit = s.gpioInit := rfl
@[simp] theorem State.finish_configured : s.finish.configured = s.configured := rfl
@[simp] theorem State.finish_levels : s.finish.levels = s.levels := rfl
@[simp] theorem State.finish_trace : s.finish.trace = s.trace := rfl
@[simp] theorem State.finish_faulted : s.finish.faulted = s.faulted := rfl
@[simp] theorem State.finish_prog : s.finish.prog = s.prog := rfl
@[simp] theorem State.finish_readData : s.finish.readData = s.readData := rfl
@[simp] theorem State.finish_times : s.finish.times = s.times := rfl
@[simp] theorem State.finish_answers : s.finish.answers = s.answers := rfl
@[simp] theorem State.finish_eps : s.finish.eps = s.eps := rfl
@[simp] theorem State.finish_setups : s.finish.setups = s.setups := rfl
@[simp] theorem State.finish_turns : s.finish.turns = s.turns := rfl
@[simp] theorem State.finish_level : s.finish.level q = s.level q := rfl
@[simp] theorem State.finish_isConfigured : s.finish.isConfigured q = s.isConfigured q := rfl
@[simp] theorem State.finish_answer : s.finish.answer = s.answer := rfl
@[simp] theorem State.finish_heldHigh : s.finish.heldHigh b = s.heldHigh b := rfl
@[simp] theorem State.finish_heldLow : s.finish.heldLow b = s.heldLow b := rfl
@[simp] theorem State.finish_heldGap : s.finish.heldGap = s.heldGap := rfl
@[simp] theorem State.finish_nextEps : s.finish.nextEps = s.nextEps := rfl
@[simp] theorem State.finish_nextSetup : s.finish.nextSetup = s.nextSetup := rfl

/-! `startRun` -/
@[simp] theorem State.startRun_cmdGroup : s.startRun.cmdGroup = s.cmdGroup := rfl
@[simp] theorem State.startRun_cmdAddr : s.startRun.cmdAddr = s.cmdAddr := rfl
@[simp] theorem State.startRun_cmdOn : s.startRun.cmdOn = s.cmdOn := rfl
@[simp] theorem State.startRun_frame : s.startRun.frame = s.commandFrame := rfl
@[simp] theorem State.startRun_cfgPin : s.startRun.cfgPin = s.cfgPin := rfl
@[simp] theorem State.startRun_cfgPinWritten : s.startRun.cfgPinWritten = s.cfgPinWritten := rfl
@[simp] theorem State.startRun_cfgRetries : s.startRun.cfgRetries = s.cfgRetries := rfl
@[simp] theorem State.startRun_cfgGap : s.startRun.cfgGap = s.cfgGap := rfl
@[simp] theorem State.startRun_cfgLatency : s.startRun.cfgLatency = s.cfgLatency := rfl
@[simp] theorem State.startRun_xPin : s.startRun.xPin = s.cfgPin := rfl
@[simp] theorem State.startRun_xRetries : s.startRun.xRetries = s.cfgRetries := rfl
@[simp] theorem State.startRun_xGap : s.startRun.xGap = s.cfgGap := rfl
@[simp] theorem State.startRun_xLat : s.startRun.xLat = s.cfgLatency := rfl
@[simp] theorem State.startRun_bitTiming : s.startRun.bitTiming = s.bitTiming := rfl
@[simp] theorem State.startRun_seq : s.startRun.seq = { phase := .acq, rep := 0, bit := 0 } := rfl
@[simp] theorem State.startRun_timer : s.startRun.timer = s.timer := rfl
@[simp] theorem State.startRun_busy : s.startRun.busy = true := rfl
@[simp] theorem State.startRun_done : s.startRun.done = false := rfl
@[simp] theorem State.startRun_err : s.startRun.err = .none := rfl
@[simp] theorem State.startRun_gpioInit : s.startRun.gpioInit = s.gpioInit := rfl
@[simp] theorem State.startRun_configured : s.startRun.configured = s.configured := rfl
@[simp] theorem State.startRun_levels : s.startRun.levels = s.levels := rfl
@[simp] theorem State.startRun_trace : s.startRun.trace = s.trace := rfl
@[simp] theorem State.startRun_faulted : s.startRun.faulted = s.faulted := rfl
@[simp] theorem State.startRun_prog : s.startRun.prog = s.prog := rfl
@[simp] theorem State.startRun_readData : s.startRun.readData = s.readData := rfl
@[simp] theorem State.startRun_times : s.startRun.times = s.times := rfl
@[simp] theorem State.startRun_answers : s.startRun.answers = s.answers := rfl
@[simp] theorem State.startRun_eps : s.startRun.eps = s.eps := rfl
@[simp] theorem State.startRun_setups : s.startRun.setups = s.setups := rfl
@[simp] theorem State.startRun_turns : s.startRun.turns = s.turns := rfl
@[simp] theorem State.startRun_level : s.startRun.level q = s.level q := rfl
@[simp] theorem State.startRun_isConfigured : s.startRun.isConfigured q = s.isConfigured q := rfl
@[simp] theorem State.startRun_answer : s.startRun.answer = s.answer := rfl
@[simp] theorem State.startRun_nextEps : s.startRun.nextEps = s.nextEps := rfl
@[simp] theorem State.startRun_nextSetup : s.startRun.nextSetup = s.nextSetup := rfl

/-! `recordInterval` -/
@[simp] theorem State.recordInterval_cmdGroup : (s.recordInterval d).cmdGroup = s.cmdGroup := rfl
@[simp] theorem State.recordInterval_cmdAddr : (s.recordInterval d).cmdAddr = s.cmdAddr := rfl
@[simp] theorem State.recordInterval_cmdOn : (s.recordInterval d).cmdOn = s.cmdOn := rfl
@[simp] theorem State.recordInterval_frame : (s.recordInterval d).frame = s.frame := rfl
@[simp] theorem State.recordInterval_cfgPin : (s.recordInterval d).cfgPin = s.cfgPin := rfl
@[simp] theorem State.recordInterval_cfgPinWritten : (s.recordInterval d).cfgPinWritten = s.cfgPinWritten := rfl
@[simp] theorem State.recordInterval_cfgRetries : (s.recordInterval d).cfgRetries = s.cfgRetries := rfl
@[simp] theorem State.recordInterval_cfgGap : (s.recordInterval d).cfgGap = s.cfgGap := rfl
@[simp] theorem State.recordInterval_cfgLatency : (s.recordInterval d).cfgLatency = s.cfgLatency := rfl
@[simp] theorem State.recordInterval_xPin : (s.recordInterval d).xPin = s.xPin := rfl
@[simp] theorem State.recordInterval_xRetries : (s.recordInterval d).xRetries = s.xRetries := rfl
@[simp] theorem State.recordInterval_xGap : (s.recordInterval d).xGap = s.xGap := rfl
@[simp] theorem State.recordInterval_xLat : (s.recordInterval d).xLat = s.xLat := rfl
@[simp] theorem State.recordInterval_bitTiming : (s.recordInterval d).bitTiming = s.bitTiming := rfl
@[simp] theorem State.recordInterval_seq : (s.recordInterval d).seq = s.seq := rfl
@[simp] theorem State.recordInterval_timer : (s.recordInterval d).timer = s.timer := rfl
@[simp] theorem State.recordInterval_busy : (s.recordInterval d).busy = s.busy := rfl
@[simp] theorem State.recordInterval_done : (s.recordInterval d).done = s.done := rfl
@[simp] theorem State.recordInterval_err : (s.recordInterval d).err = s.err := rfl
@[simp] theorem State.recordInterval_gpioInit : (s.recordInterval d).gpioInit = s.gpioInit := rfl
@[simp] theorem State.recordInterval_configured : (s.recordInterval d).configured = s.configured := rfl
@[simp] theorem State.recordInterval_levels : (s.recordInterval d).levels = s.levels := rfl
@[simp] theorem State.recordInterval_trace : (s.recordInterval d).trace = s.trace := rfl
@[simp] theorem State.recordInterval_faulted : (s.recordInterval d).faulted = s.faulted := rfl
@[simp] theorem State.recordInterval_prog : (s.recordInterval d).prog = s.prog := rfl
@[simp] theorem State.recordInterval_readData : (s.recordInterval d).readData = s.readData := rfl
@[simp] theorem State.recordInterval_times : (s.recordInterval d).times = s.times ++ [.interval (s.level s.xPin) d s.nextEps] := rfl
@[simp] theorem State.recordInterval_answers : (s.recordInterval d).answers = s.answers := rfl
@[simp] theorem State.recordInterval_eps : (s.recordInterval d).eps = s.eps.tail := rfl
@[simp] theorem State.recordInterval_setups : (s.recordInterval d).setups = s.setups := rfl
@[simp] theorem State.recordInterval_turns : (s.recordInterval d).turns = s.turns := rfl
@[simp] theorem State.recordInterval_level : (s.recordInterval d).level q = s.level q := rfl
@[simp] theorem State.recordInterval_isConfigured : (s.recordInterval d).isConfigured q = s.isConfigured q := rfl
@[simp] theorem State.recordInterval_answer : (s.recordInterval d).answer = s.answer := rfl
@[simp] theorem State.recordInterval_heldHigh : (s.recordInterval d).heldHigh b = s.heldHigh b := rfl
@[simp] theorem State.recordInterval_heldLow : (s.recordInterval d).heldLow b = s.heldLow b := rfl
@[simp] theorem State.recordInterval_heldGap : (s.recordInterval d).heldGap = s.heldGap := rfl
@[simp] theorem State.recordInterval_nextSetup : (s.recordInterval d).nextSetup = s.nextSetup := rfl
@[simp] theorem State.recordInterval_currentBit : (s.recordInterval d).currentBit = s.currentBit := rfl

/-! `recordSetup` -/
@[simp] theorem State.recordSetup_cmdGroup : s.recordSetup.cmdGroup = s.cmdGroup := rfl
@[simp] theorem State.recordSetup_cmdAddr : s.recordSetup.cmdAddr = s.cmdAddr := rfl
@[simp] theorem State.recordSetup_cmdOn : s.recordSetup.cmdOn = s.cmdOn := rfl
@[simp] theorem State.recordSetup_frame : s.recordSetup.frame = s.frame := rfl
@[simp] theorem State.recordSetup_cfgPin : s.recordSetup.cfgPin = s.cfgPin := rfl
@[simp] theorem State.recordSetup_cfgPinWritten : s.recordSetup.cfgPinWritten = s.cfgPinWritten := rfl
@[simp] theorem State.recordSetup_cfgRetries : s.recordSetup.cfgRetries = s.cfgRetries := rfl
@[simp] theorem State.recordSetup_cfgGap : s.recordSetup.cfgGap = s.cfgGap := rfl
@[simp] theorem State.recordSetup_cfgLatency : s.recordSetup.cfgLatency = s.cfgLatency := rfl
@[simp] theorem State.recordSetup_xPin : s.recordSetup.xPin = s.xPin := rfl
@[simp] theorem State.recordSetup_xRetries : s.recordSetup.xRetries = s.xRetries := rfl
@[simp] theorem State.recordSetup_xGap : s.recordSetup.xGap = s.xGap := rfl
@[simp] theorem State.recordSetup_xLat : s.recordSetup.xLat = s.xLat := rfl
@[simp] theorem State.recordSetup_bitTiming : s.recordSetup.bitTiming = s.bitTiming := rfl
@[simp] theorem State.recordSetup_seq : s.recordSetup.seq = s.seq := rfl
@[simp] theorem State.recordSetup_timer : s.recordSetup.timer = s.timer := rfl
@[simp] theorem State.recordSetup_busy : s.recordSetup.busy = s.busy := rfl
@[simp] theorem State.recordSetup_done : s.recordSetup.done = s.done := rfl
@[simp] theorem State.recordSetup_err : s.recordSetup.err = s.err := rfl
@[simp] theorem State.recordSetup_gpioInit : s.recordSetup.gpioInit = s.gpioInit := rfl
@[simp] theorem State.recordSetup_configured : s.recordSetup.configured = s.configured := rfl
@[simp] theorem State.recordSetup_levels : s.recordSetup.levels = s.levels := rfl
@[simp] theorem State.recordSetup_trace : s.recordSetup.trace = s.trace := rfl
@[simp] theorem State.recordSetup_faulted : s.recordSetup.faulted = s.faulted := rfl
@[simp] theorem State.recordSetup_prog : s.recordSetup.prog = s.prog := rfl
@[simp] theorem State.recordSetup_readData : s.recordSetup.readData = s.readData := rfl
@[simp] theorem State.recordSetup_times : s.recordSetup.times = s.times ++ [.setup s.nextSetup] := rfl
@[simp] theorem State.recordSetup_answers : s.recordSetup.answers = s.answers := rfl
@[simp] theorem State.recordSetup_eps : s.recordSetup.eps = s.eps := rfl
@[simp] theorem State.recordSetup_setups : s.recordSetup.setups = s.setups.tail := rfl
@[simp] theorem State.recordSetup_turns : s.recordSetup.turns = s.turns := rfl
@[simp] theorem State.recordSetup_level : s.recordSetup.level q = s.level q := rfl
@[simp] theorem State.recordSetup_isConfigured : s.recordSetup.isConfigured q = s.isConfigured q := rfl
@[simp] theorem State.recordSetup_answer : s.recordSetup.answer = s.answer := rfl
@[simp] theorem State.recordSetup_heldHigh : s.recordSetup.heldHigh b = s.heldHigh b := rfl
@[simp] theorem State.recordSetup_heldLow : s.recordSetup.heldLow b = s.heldLow b := rfl
@[simp] theorem State.recordSetup_heldGap : s.recordSetup.heldGap = s.heldGap := rfl
@[simp] theorem State.recordSetup_nextEps : s.recordSetup.nextEps = s.nextEps := rfl
@[simp] theorem State.recordSetup_currentBit : s.recordSetup.currentBit = s.currentBit := rfl

/-! `recordPause` -/
@[simp] theorem State.recordPause_cmdGroup : (s.recordPause n).cmdGroup = s.cmdGroup := rfl
@[simp] theorem State.recordPause_cmdAddr : (s.recordPause n).cmdAddr = s.cmdAddr := rfl
@[simp] theorem State.recordPause_cmdOn : (s.recordPause n).cmdOn = s.cmdOn := rfl
@[simp] theorem State.recordPause_frame : (s.recordPause n).frame = s.frame := rfl
@[simp] theorem State.recordPause_cfgPin : (s.recordPause n).cfgPin = s.cfgPin := rfl
@[simp] theorem State.recordPause_cfgPinWritten : (s.recordPause n).cfgPinWritten = s.cfgPinWritten := rfl
@[simp] theorem State.recordPause_cfgRetries : (s.recordPause n).cfgRetries = s.cfgRetries := rfl
@[simp] theorem State.recordPause_cfgGap : (s.recordPause n).cfgGap = s.cfgGap := rfl
@[simp] theorem State.recordPause_cfgLatency : (s.recordPause n).cfgLatency = s.cfgLatency := rfl
@[simp] theorem State.recordPause_xPin : (s.recordPause n).xPin = s.xPin := rfl
@[simp] theorem State.recordPause_xRetries : (s.recordPause n).xRetries = s.xRetries := rfl
@[simp] theorem State.recordPause_xGap : (s.recordPause n).xGap = s.xGap := rfl
@[simp] theorem State.recordPause_xLat : (s.recordPause n).xLat = s.xLat := rfl
@[simp] theorem State.recordPause_bitTiming : (s.recordPause n).bitTiming = s.bitTiming := rfl
@[simp] theorem State.recordPause_seq : (s.recordPause n).seq = s.seq := rfl
@[simp] theorem State.recordPause_timer : (s.recordPause n).timer = s.timer := rfl
@[simp] theorem State.recordPause_busy : (s.recordPause n).busy = s.busy := rfl
@[simp] theorem State.recordPause_done : (s.recordPause n).done = s.done := rfl
@[simp] theorem State.recordPause_err : (s.recordPause n).err = s.err := rfl
@[simp] theorem State.recordPause_gpioInit : (s.recordPause n).gpioInit = s.gpioInit := rfl
@[simp] theorem State.recordPause_configured : (s.recordPause n).configured = s.configured := rfl
@[simp] theorem State.recordPause_levels : (s.recordPause n).levels = s.levels := rfl
@[simp] theorem State.recordPause_trace : (s.recordPause n).trace = s.trace := rfl
@[simp] theorem State.recordPause_faulted : (s.recordPause n).faulted = s.faulted := rfl
@[simp] theorem State.recordPause_prog : (s.recordPause n).prog = s.prog := rfl
@[simp] theorem State.recordPause_readData : (s.recordPause n).readData = s.readData := rfl
@[simp] theorem State.recordPause_times : (s.recordPause n).times = s.times ++ [.pause n] := rfl
@[simp] theorem State.recordPause_answers : (s.recordPause n).answers = s.answers := rfl
@[simp] theorem State.recordPause_eps : (s.recordPause n).eps = s.eps := rfl
@[simp] theorem State.recordPause_setups : (s.recordPause n).setups = s.setups := rfl
@[simp] theorem State.recordPause_turns : (s.recordPause n).turns = s.turns := rfl
@[simp] theorem State.recordPause_level : (s.recordPause n).level q = s.level q := rfl
@[simp] theorem State.recordPause_isConfigured : (s.recordPause n).isConfigured q = s.isConfigured q := rfl
@[simp] theorem State.recordPause_answer : (s.recordPause n).answer = s.answer := rfl
@[simp] theorem State.recordPause_heldHigh : (s.recordPause n).heldHigh b = s.heldHigh b := rfl
@[simp] theorem State.recordPause_heldLow : (s.recordPause n).heldLow b = s.heldLow b := rfl
@[simp] theorem State.recordPause_heldGap : (s.recordPause n).heldGap = s.heldGap := rfl
@[simp] theorem State.recordPause_nextEps : (s.recordPause n).nextEps = s.nextEps := rfl
@[simp] theorem State.recordPause_nextSetup : (s.recordPause n).nextSetup = s.nextSetup := rfl
@[simp] theorem State.recordPause_currentBit : (s.recordPause n).currentBit = s.currentBit := rfl

/-! `stopProgram` -/
@[simp] theorem State.stopProgram_cmdGroup : s.stopProgram.cmdGroup = s.cmdGroup := rfl
@[simp] theorem State.stopProgram_cmdAddr : s.stopProgram.cmdAddr = s.cmdAddr := rfl
@[simp] theorem State.stopProgram_cmdOn : s.stopProgram.cmdOn = s.cmdOn := rfl
@[simp] theorem State.stopProgram_frame : s.stopProgram.frame = s.frame := rfl
@[simp] theorem State.stopProgram_cfgPin : s.stopProgram.cfgPin = s.cfgPin := rfl
@[simp] theorem State.stopProgram_cfgPinWritten : s.stopProgram.cfgPinWritten = s.cfgPinWritten := rfl
@[simp] theorem State.stopProgram_cfgRetries : s.stopProgram.cfgRetries = s.cfgRetries := rfl
@[simp] theorem State.stopProgram_cfgGap : s.stopProgram.cfgGap = s.cfgGap := rfl
@[simp] theorem State.stopProgram_cfgLatency : s.stopProgram.cfgLatency = s.cfgLatency := rfl
@[simp] theorem State.stopProgram_xPin : s.stopProgram.xPin = s.xPin := rfl
@[simp] theorem State.stopProgram_xRetries : s.stopProgram.xRetries = s.xRetries := rfl
@[simp] theorem State.stopProgram_xGap : s.stopProgram.xGap = s.xGap := rfl
@[simp] theorem State.stopProgram_xLat : s.stopProgram.xLat = s.xLat := rfl
@[simp] theorem State.stopProgram_bitTiming : s.stopProgram.bitTiming = s.bitTiming := rfl
@[simp] theorem State.stopProgram_seq : s.stopProgram.seq = s.seq := rfl
@[simp] theorem State.stopProgram_timer : s.stopProgram.timer = s.timer := rfl
@[simp] theorem State.stopProgram_busy : s.stopProgram.busy = s.busy := rfl
@[simp] theorem State.stopProgram_done : s.stopProgram.done = s.done := rfl
@[simp] theorem State.stopProgram_err : s.stopProgram.err = s.err := rfl
@[simp] theorem State.stopProgram_gpioInit : s.stopProgram.gpioInit = s.gpioInit := rfl
@[simp] theorem State.stopProgram_configured : s.stopProgram.configured = s.configured := rfl
@[simp] theorem State.stopProgram_levels : s.stopProgram.levels = s.levels := rfl
@[simp] theorem State.stopProgram_trace : s.stopProgram.trace = s.trace := rfl
@[simp] theorem State.stopProgram_faulted : s.stopProgram.faulted = s.faulted := rfl
@[simp] theorem State.stopProgram_prog : s.stopProgram.prog = [] := rfl
@[simp] theorem State.stopProgram_readData : s.stopProgram.readData = s.readData := rfl
@[simp] theorem State.stopProgram_times : s.stopProgram.times = s.times := rfl
@[simp] theorem State.stopProgram_answers : s.stopProgram.answers = s.answers := rfl
@[simp] theorem State.stopProgram_eps : s.stopProgram.eps = s.eps := rfl
@[simp] theorem State.stopProgram_setups : s.stopProgram.setups = s.setups := rfl
@[simp] theorem State.stopProgram_turns : s.stopProgram.turns = s.turns := rfl
@[simp] theorem State.stopProgram_level : s.stopProgram.level q = s.level q := rfl
@[simp] theorem State.stopProgram_isConfigured : s.stopProgram.isConfigured q = s.isConfigured q := rfl
@[simp] theorem State.stopProgram_answer : s.stopProgram.answer = s.answer := rfl
@[simp] theorem State.stopProgram_heldHigh : s.stopProgram.heldHigh b = s.heldHigh b := rfl
@[simp] theorem State.stopProgram_heldLow : s.stopProgram.heldLow b = s.heldLow b := rfl
@[simp] theorem State.stopProgram_heldGap : s.stopProgram.heldGap = s.heldGap := rfl
@[simp] theorem State.stopProgram_nextEps : s.stopProgram.nextEps = s.nextEps := rfl
@[simp] theorem State.stopProgram_nextSetup : s.stopProgram.nextSetup = s.nextSetup := rfl
@[simp] theorem State.stopProgram_currentBit : s.stopProgram.currentBit = s.currentBit := rfl

/-! `loadTimer` -/
@[simp] theorem State.loadTimer_cmdGroup : (s.loadTimer d).cmdGroup = s.cmdGroup := rfl
@[simp] theorem State.loadTimer_cmdAddr : (s.loadTimer d).cmdAddr = s.cmdAddr := rfl
@[simp] theorem State.loadTimer_cmdOn : (s.loadTimer d).cmdOn = s.cmdOn := rfl
@[simp] theorem State.loadTimer_frame : (s.loadTimer d).frame = s.frame := rfl
@[simp] theorem State.loadTimer_cfgPin : (s.loadTimer d).cfgPin = s.cfgPin := rfl
@[simp] theorem State.loadTimer_cfgPinWritten : (s.loadTimer d).cfgPinWritten = s.cfgPinWritten := rfl
@[simp] theorem State.loadTimer_cfgRetries : (s.loadTimer d).cfgRetries = s.cfgRetries := rfl
@[simp] theorem State.loadTimer_cfgGap : (s.loadTimer d).cfgGap = s.cfgGap := rfl
@[simp] theorem State.loadTimer_cfgLatency : (s.loadTimer d).cfgLatency = s.cfgLatency := rfl
@[simp] theorem State.loadTimer_xPin : (s.loadTimer d).xPin = s.xPin := rfl
@[simp] theorem State.loadTimer_xRetries : (s.loadTimer d).xRetries = s.xRetries := rfl
@[simp] theorem State.loadTimer_xGap : (s.loadTimer d).xGap = s.xGap := rfl
@[simp] theorem State.loadTimer_xLat : (s.loadTimer d).xLat = s.xLat := rfl
@[simp] theorem State.loadTimer_bitTiming : (s.loadTimer d).bitTiming = s.bitTiming := rfl
@[simp] theorem State.loadTimer_seq : (s.loadTimer d).seq = s.seq := rfl
@[simp] theorem State.loadTimer_timer : (s.loadTimer d).timer = d := rfl
@[simp] theorem State.loadTimer_busy : (s.loadTimer d).busy = s.busy := rfl
@[simp] theorem State.loadTimer_done : (s.loadTimer d).done = s.done := rfl
@[simp] theorem State.loadTimer_err : (s.loadTimer d).err = s.err := rfl
@[simp] theorem State.loadTimer_gpioInit : (s.loadTimer d).gpioInit = s.gpioInit := rfl
@[simp] theorem State.loadTimer_configured : (s.loadTimer d).configured = s.configured := rfl
@[simp] theorem State.loadTimer_levels : (s.loadTimer d).levels = s.levels := rfl
@[simp] theorem State.loadTimer_trace : (s.loadTimer d).trace = s.trace := rfl
@[simp] theorem State.loadTimer_faulted : (s.loadTimer d).faulted = s.faulted := rfl
@[simp] theorem State.loadTimer_prog : (s.loadTimer d).prog = s.prog := rfl
@[simp] theorem State.loadTimer_readData : (s.loadTimer d).readData = s.readData := rfl
@[simp] theorem State.loadTimer_times : (s.loadTimer d).times = s.times := rfl
@[simp] theorem State.loadTimer_answers : (s.loadTimer d).answers = s.answers := rfl
@[simp] theorem State.loadTimer_eps : (s.loadTimer d).eps = s.eps := rfl
@[simp] theorem State.loadTimer_setups : (s.loadTimer d).setups = s.setups := rfl
@[simp] theorem State.loadTimer_turns : (s.loadTimer d).turns = s.turns := rfl
@[simp] theorem State.loadTimer_level : (s.loadTimer d).level q = s.level q := rfl
@[simp] theorem State.loadTimer_isConfigured : (s.loadTimer d).isConfigured q = s.isConfigured q := rfl
@[simp] theorem State.loadTimer_answer : (s.loadTimer d).answer = s.answer := rfl
@[simp] theorem State.loadTimer_heldHigh : (s.loadTimer d).heldHigh b = s.heldHigh b := rfl
@[simp] theorem State.loadTimer_heldLow : (s.loadTimer d).heldLow b = s.heldLow b := rfl
@[simp] theorem State.loadTimer_heldGap : (s.loadTimer d).heldGap = s.heldGap := rfl
@[simp] theorem State.loadTimer_nextEps : (s.loadTimer d).nextEps = s.nextEps := rfl
@[simp] theorem State.loadTimer_nextSetup : (s.loadTimer d).nextSetup = s.nextSetup := rfl
@[simp] theorem State.loadTimer_currentBit : (s.loadTimer d).currentBit = s.currentBit := rfl

/-! `setOk` -/
@[simp] theorem State.setOk_cmdGroup : (s.setOk p l).cmdGroup = s.cmdGroup := by simp [State.setOk]
@[simp] theorem State.setOk_cmdAddr : (s.setOk p l).cmdAddr = s.cmdAddr := by simp [State.setOk]
@[simp] theorem State.setOk_cmdOn : (s.setOk p l).cmdOn = s.cmdOn := by simp [State.setOk]
@[simp] theorem State.setOk_frame : (s.setOk p l).frame = s.frame := by simp [State.setOk]
@[simp] theorem State.setOk_cfgPin : (s.setOk p l).cfgPin = s.cfgPin := by simp [State.setOk]
@[simp] theorem State.setOk_cfgPinWritten : (s.setOk p l).cfgPinWritten = s.cfgPinWritten := by simp [State.setOk]
@[simp] theorem State.setOk_cfgRetries : (s.setOk p l).cfgRetries = s.cfgRetries := by simp [State.setOk]
@[simp] theorem State.setOk_cfgGap : (s.setOk p l).cfgGap = s.cfgGap := by simp [State.setOk]
@[simp] theorem State.setOk_cfgLatency : (s.setOk p l).cfgLatency = s.cfgLatency := by simp [State.setOk]
@[simp] theorem State.setOk_xPin : (s.setOk p l).xPin = s.xPin := by simp [State.setOk]
@[simp] theorem State.setOk_xRetries : (s.setOk p l).xRetries = s.xRetries := by simp [State.setOk]
@[simp] theorem State.setOk_xGap : (s.setOk p l).xGap = s.xGap := by simp [State.setOk]
@[simp] theorem State.setOk_xLat : (s.setOk p l).xLat = s.xLat := by simp [State.setOk]
@[simp] theorem State.setOk_bitTiming : (s.setOk p l).bitTiming = s.bitTiming := by simp [State.setOk]
@[simp] theorem State.setOk_seq : (s.setOk p l).seq = s.seq := by simp [State.setOk]
@[simp] theorem State.setOk_timer : (s.setOk p l).timer = s.timer := by simp [State.setOk]
@[simp] theorem State.setOk_busy : (s.setOk p l).busy = s.busy := by simp [State.setOk]
@[simp] theorem State.setOk_done : (s.setOk p l).done = s.done := by simp [State.setOk]
@[simp] theorem State.setOk_err : (s.setOk p l).err = s.err := by simp [State.setOk]
@[simp] theorem State.setOk_gpioInit : (s.setOk p l).gpioInit = s.gpioInit := by simp [State.setOk]
@[simp] theorem State.setOk_configured : (s.setOk p l).configured = s.configured := by simp [State.setOk]
@[simp] theorem State.setOk_levels : (s.setOk p l).levels = s.levels.set p.toNat l p.isLt := by simp [State.setOk]
@[simp] theorem State.setOk_trace : (s.setOk p l).trace = s.trace ++ [.set p l] := by simp [State.setOk]
@[simp] theorem State.setOk_faulted : (s.setOk p l).faulted = s.faulted := by simp [State.setOk]
@[simp] theorem State.setOk_prog : (s.setOk p l).prog = s.prog := by simp [State.setOk]
@[simp] theorem State.setOk_readData : (s.setOk p l).readData = s.readData := by simp [State.setOk]
@[simp] theorem State.setOk_times : (s.setOk p l).times = s.times := by simp [State.setOk]
@[simp] theorem State.setOk_answers : (s.setOk p l).answers = s.answers.tail := by simp [State.setOk]
@[simp] theorem State.setOk_eps : (s.setOk p l).eps = s.eps := by simp [State.setOk]
@[simp] theorem State.setOk_setups : (s.setOk p l).setups = s.setups := by simp [State.setOk]
@[simp] theorem State.setOk_turns : (s.setOk p l).turns = s.turns := by simp [State.setOk]
@[simp] theorem State.setOk_isConfigured : (s.setOk p l).isConfigured q = s.isConfigured q := by simp [State.isConfigured]
@[simp] theorem State.setOk_heldHigh : (s.setOk p l).heldHigh b = s.heldHigh b := by simp [State.heldHigh]
@[simp] theorem State.setOk_heldLow : (s.setOk p l).heldLow b = s.heldLow b := by simp [State.heldLow]
@[simp] theorem State.setOk_heldGap : (s.setOk p l).heldGap = s.heldGap := by simp [State.heldGap]
@[simp] theorem State.setOk_nextEps : (s.setOk p l).nextEps = s.nextEps := by simp [State.nextEps]
@[simp] theorem State.setOk_nextSetup : (s.setOk p l).nextSetup = s.nextSetup := by simp [State.nextSetup]
@[simp] theorem State.setOk_currentBit : (s.setOk p l).currentBit = s.currentBit := by simp [State.currentBit]

/-! `setFail` -/
@[simp] theorem State.setFail_cmdGroup : (s.setFail p).cmdGroup = s.cmdGroup := by simp [State.setFail]
@[simp] theorem State.setFail_cmdAddr : (s.setFail p).cmdAddr = s.cmdAddr := by simp [State.setFail]
@[simp] theorem State.setFail_cmdOn : (s.setFail p).cmdOn = s.cmdOn := by simp [State.setFail]
@[simp] theorem State.setFail_frame : (s.setFail p).frame = s.frame := by simp [State.setFail]
@[simp] theorem State.setFail_cfgPin : (s.setFail p).cfgPin = s.cfgPin := by simp [State.setFail]
@[simp] theorem State.setFail_cfgPinWritten : (s.setFail p).cfgPinWritten = s.cfgPinWritten := by simp [State.setFail]
@[simp] theorem State.setFail_cfgRetries : (s.setFail p).cfgRetries = s.cfgRetries := by simp [State.setFail]
@[simp] theorem State.setFail_cfgGap : (s.setFail p).cfgGap = s.cfgGap := by simp [State.setFail]
@[simp] theorem State.setFail_cfgLatency : (s.setFail p).cfgLatency = s.cfgLatency := by simp [State.setFail]
@[simp] theorem State.setFail_xPin : (s.setFail p).xPin = s.xPin := by simp [State.setFail]
@[simp] theorem State.setFail_xRetries : (s.setFail p).xRetries = s.xRetries := by simp [State.setFail]
@[simp] theorem State.setFail_xGap : (s.setFail p).xGap = s.xGap := by simp [State.setFail]
@[simp] theorem State.setFail_xLat : (s.setFail p).xLat = s.xLat := by simp [State.setFail]
@[simp] theorem State.setFail_bitTiming : (s.setFail p).bitTiming = s.bitTiming := by simp [State.setFail]
@[simp] theorem State.setFail_seq : (s.setFail p).seq = { phase := .idle, rep := 0, bit := 0 } := by simp [State.setFail]
@[simp] theorem State.setFail_timer : (s.setFail p).timer = 0 := by simp [State.setFail]
@[simp] theorem State.setFail_busy : (s.setFail p).busy = false := by simp [State.setFail]
@[simp] theorem State.setFail_done : (s.setFail p).done = false := by simp [State.setFail]
@[simp] theorem State.setFail_err : (s.setFail p).err = .pinWrite := by simp [State.setFail]
@[simp] theorem State.setFail_gpioInit : (s.setFail p).gpioInit = s.gpioInit := by simp [State.setFail]
@[simp] theorem State.setFail_configured : (s.setFail p).configured = s.configured := by simp [State.setFail]
@[simp] theorem State.setFail_levels : (s.setFail p).levels = s.levels.set p.toNat .unknown p.isLt := by simp [State.setFail]
@[simp] theorem State.setFail_trace : (s.setFail p).trace = s.trace := by simp [State.setFail]
@[simp] theorem State.setFail_faulted : (s.setFail p).faulted = s.faulted := by simp [State.setFail]
@[simp] theorem State.setFail_prog : (s.setFail p).prog = s.prog := by simp [State.setFail]
@[simp] theorem State.setFail_readData : (s.setFail p).readData = s.readData := by simp [State.setFail]
@[simp] theorem State.setFail_times : (s.setFail p).times = s.times := by simp [State.setFail]
@[simp] theorem State.setFail_answers : (s.setFail p).answers = s.answers.tail := by simp [State.setFail]
@[simp] theorem State.setFail_eps : (s.setFail p).eps = s.eps := by simp [State.setFail]
@[simp] theorem State.setFail_setups : (s.setFail p).setups = s.setups := by simp [State.setFail]
@[simp] theorem State.setFail_turns : (s.setFail p).turns = s.turns := by simp [State.setFail]
@[simp] theorem State.setFail_isConfigured : (s.setFail p).isConfigured q = s.isConfigured q := by simp [State.isConfigured]
@[simp] theorem State.setFail_heldHigh : (s.setFail p).heldHigh b = s.heldHigh b := by simp [State.heldHigh]
@[simp] theorem State.setFail_heldLow : (s.setFail p).heldLow b = s.heldLow b := by simp [State.heldLow]
@[simp] theorem State.setFail_heldGap : (s.setFail p).heldGap = s.heldGap := by simp [State.heldGap]
@[simp] theorem State.setFail_nextEps : (s.setFail p).nextEps = s.nextEps := by simp [State.nextEps]
@[simp] theorem State.setFail_nextSetup : (s.setFail p).nextSetup = s.nextSetup := by simp [State.nextSetup]

/-! `initOk` -/
@[simp] theorem State.initOk_cmdGroup : s.initOk.cmdGroup = s.cmdGroup := by simp [State.initOk]
@[simp] theorem State.initOk_cmdAddr : s.initOk.cmdAddr = s.cmdAddr := by simp [State.initOk]
@[simp] theorem State.initOk_cmdOn : s.initOk.cmdOn = s.cmdOn := by simp [State.initOk]
@[simp] theorem State.initOk_frame : s.initOk.frame = s.frame := by simp [State.initOk]
@[simp] theorem State.initOk_cfgPin : s.initOk.cfgPin = s.cfgPin := by simp [State.initOk]
@[simp] theorem State.initOk_cfgPinWritten : s.initOk.cfgPinWritten = s.cfgPinWritten := by simp [State.initOk]
@[simp] theorem State.initOk_cfgRetries : s.initOk.cfgRetries = s.cfgRetries := by simp [State.initOk]
@[simp] theorem State.initOk_cfgGap : s.initOk.cfgGap = s.cfgGap := by simp [State.initOk]
@[simp] theorem State.initOk_cfgLatency : s.initOk.cfgLatency = s.cfgLatency := by simp [State.initOk]
@[simp] theorem State.initOk_xPin : s.initOk.xPin = s.xPin := by simp [State.initOk]
@[simp] theorem State.initOk_xRetries : s.initOk.xRetries = s.xRetries := by simp [State.initOk]
@[simp] theorem State.initOk_xGap : s.initOk.xGap = s.xGap := by simp [State.initOk]
@[simp] theorem State.initOk_xLat : s.initOk.xLat = s.xLat := by simp [State.initOk]
@[simp] theorem State.initOk_bitTiming : s.initOk.bitTiming = s.bitTiming := by simp [State.initOk]
@[simp] theorem State.initOk_seq : s.initOk.seq = s.seq := by simp [State.initOk]
@[simp] theorem State.initOk_timer : s.initOk.timer = s.timer := by simp [State.initOk]
@[simp] theorem State.initOk_busy : s.initOk.busy = s.busy := by simp [State.initOk]
@[simp] theorem State.initOk_done : s.initOk.done = s.done := by simp [State.initOk]
@[simp] theorem State.initOk_err : s.initOk.err = s.err := by simp [State.initOk]
@[simp] theorem State.initOk_gpioInit : s.initOk.gpioInit = true := by simp [State.initOk]
@[simp] theorem State.initOk_configured : s.initOk.configured = s.configured := by simp [State.initOk]
@[simp] theorem State.initOk_levels : s.initOk.levels = s.levels := by simp [State.initOk]
@[simp] theorem State.initOk_trace : s.initOk.trace = s.trace ++ [.drvInit] := by simp [State.initOk]
@[simp] theorem State.initOk_faulted : s.initOk.faulted = s.faulted := by simp [State.initOk]
@[simp] theorem State.initOk_prog : s.initOk.prog = s.prog := by simp [State.initOk]
@[simp] theorem State.initOk_readData : s.initOk.readData = s.readData := by simp [State.initOk]
@[simp] theorem State.initOk_times : s.initOk.times = s.times := by simp [State.initOk]
@[simp] theorem State.initOk_answers : s.initOk.answers = s.answers.tail := by simp [State.initOk]
@[simp] theorem State.initOk_eps : s.initOk.eps = s.eps := by simp [State.initOk]
@[simp] theorem State.initOk_setups : s.initOk.setups = s.setups := by simp [State.initOk]
@[simp] theorem State.initOk_turns : s.initOk.turns = s.turns := by simp [State.initOk]
@[simp] theorem State.initOk_level : s.initOk.level q = s.level q := by simp [State.level]
@[simp] theorem State.initOk_isConfigured : s.initOk.isConfigured q = s.isConfigured q := by simp [State.isConfigured]
@[simp] theorem State.initOk_heldHigh : s.initOk.heldHigh b = s.heldHigh b := by simp [State.heldHigh]
@[simp] theorem State.initOk_heldLow : s.initOk.heldLow b = s.heldLow b := by simp [State.heldLow]
@[simp] theorem State.initOk_heldGap : s.initOk.heldGap = s.heldGap := by simp [State.heldGap]
@[simp] theorem State.initOk_nextEps : s.initOk.nextEps = s.nextEps := by simp [State.nextEps]
@[simp] theorem State.initOk_nextSetup : s.initOk.nextSetup = s.nextSetup := by simp [State.nextSetup]
@[simp] theorem State.initOk_currentBit : s.initOk.currentBit = s.currentBit := by simp [State.currentBit]

/-! `cfgOk` -/
@[simp] theorem State.cfgOk_cmdGroup : (s.cfgOk p).cmdGroup = s.cmdGroup := by simp [State.cfgOk]
@[simp] theorem State.cfgOk_cmdAddr : (s.cfgOk p).cmdAddr = s.cmdAddr := by simp [State.cfgOk]
@[simp] theorem State.cfgOk_cmdOn : (s.cfgOk p).cmdOn = s.cmdOn := by simp [State.cfgOk]
@[simp] theorem State.cfgOk_frame : (s.cfgOk p).frame = s.frame := by simp [State.cfgOk]
@[simp] theorem State.cfgOk_cfgPin : (s.cfgOk p).cfgPin = s.cfgPin := by simp [State.cfgOk]
@[simp] theorem State.cfgOk_cfgPinWritten : (s.cfgOk p).cfgPinWritten = s.cfgPinWritten := by simp [State.cfgOk]
@[simp] theorem State.cfgOk_cfgRetries : (s.cfgOk p).cfgRetries = s.cfgRetries := by simp [State.cfgOk]
@[simp] theorem State.cfgOk_cfgGap : (s.cfgOk p).cfgGap = s.cfgGap := by simp [State.cfgOk]
@[simp] theorem State.cfgOk_cfgLatency : (s.cfgOk p).cfgLatency = s.cfgLatency := by simp [State.cfgOk]
@[simp] theorem State.cfgOk_xPin : (s.cfgOk p).xPin = s.xPin := by simp [State.cfgOk]
@[simp] theorem State.cfgOk_xRetries : (s.cfgOk p).xRetries = s.xRetries := by simp [State.cfgOk]
@[simp] theorem State.cfgOk_xGap : (s.cfgOk p).xGap = s.xGap := by simp [State.cfgOk]
@[simp] theorem State.cfgOk_xLat : (s.cfgOk p).xLat = s.xLat := by simp [State.cfgOk]
@[simp] theorem State.cfgOk_bitTiming : (s.cfgOk p).bitTiming = s.bitTiming := by simp [State.cfgOk]
@[simp] theorem State.cfgOk_seq : (s.cfgOk p).seq = s.seq := by simp [State.cfgOk]
@[simp] theorem State.cfgOk_timer : (s.cfgOk p).timer = s.timer := by simp [State.cfgOk]
@[simp] theorem State.cfgOk_busy : (s.cfgOk p).busy = s.busy := by simp [State.cfgOk]
@[simp] theorem State.cfgOk_done : (s.cfgOk p).done = s.done := by simp [State.cfgOk]
@[simp] theorem State.cfgOk_err : (s.cfgOk p).err = s.err := by simp [State.cfgOk]
@[simp] theorem State.cfgOk_gpioInit : (s.cfgOk p).gpioInit = s.gpioInit := by simp [State.cfgOk]
@[simp] theorem State.cfgOk_configured : (s.cfgOk p).configured = s.configured ||| BitVec.twoPow 256 p.toNat := by simp [State.cfgOk]
@[simp] theorem State.cfgOk_levels : (s.cfgOk p).levels = s.levels := by simp [State.cfgOk]
@[simp] theorem State.cfgOk_trace : (s.cfgOk p).trace = s.trace ++ [.cfgOut p] := by simp [State.cfgOk]
@[simp] theorem State.cfgOk_faulted : (s.cfgOk p).faulted = s.faulted := by simp [State.cfgOk]
@[simp] theorem State.cfgOk_prog : (s.cfgOk p).prog = s.prog := by simp [State.cfgOk]
@[simp] theorem State.cfgOk_readData : (s.cfgOk p).readData = s.readData := by simp [State.cfgOk]
@[simp] theorem State.cfgOk_times : (s.cfgOk p).times = s.times := by simp [State.cfgOk]
@[simp] theorem State.cfgOk_answers : (s.cfgOk p).answers = s.answers.tail := by simp [State.cfgOk]
@[simp] theorem State.cfgOk_eps : (s.cfgOk p).eps = s.eps := by simp [State.cfgOk]
@[simp] theorem State.cfgOk_setups : (s.cfgOk p).setups = s.setups := by simp [State.cfgOk]
@[simp] theorem State.cfgOk_turns : (s.cfgOk p).turns = s.turns := by simp [State.cfgOk]
@[simp] theorem State.cfgOk_level : (s.cfgOk p).level q = s.level q := by simp [State.level]
@[simp] theorem State.cfgOk_heldHigh : (s.cfgOk p).heldHigh b = s.heldHigh b := by simp [State.heldHigh]
@[simp] theorem State.cfgOk_heldLow : (s.cfgOk p).heldLow b = s.heldLow b := by simp [State.heldLow]
@[simp] theorem State.cfgOk_heldGap : (s.cfgOk p).heldGap = s.heldGap := by simp [State.heldGap]
@[simp] theorem State.cfgOk_nextEps : (s.cfgOk p).nextEps = s.nextEps := by simp [State.nextEps]
@[simp] theorem State.cfgOk_nextSetup : (s.cfgOk p).nextSetup = s.nextSetup := by simp [State.nextSetup]
@[simp] theorem State.cfgOk_currentBit : (s.cfgOk p).currentBit = s.currentBit := by simp [State.currentBit]

/-! `acqFail` -/
@[simp] theorem State.acqFail_cmdGroup : s.acqFail.cmdGroup = s.cmdGroup := by simp [State.acqFail]
@[simp] theorem State.acqFail_cmdAddr : s.acqFail.cmdAddr = s.cmdAddr := by simp [State.acqFail]
@[simp] theorem State.acqFail_cmdOn : s.acqFail.cmdOn = s.cmdOn := by simp [State.acqFail]
@[simp] theorem State.acqFail_frame : s.acqFail.frame = s.frame := by simp [State.acqFail]
@[simp] theorem State.acqFail_cfgPin : s.acqFail.cfgPin = s.cfgPin := by simp [State.acqFail]
@[simp] theorem State.acqFail_cfgPinWritten : s.acqFail.cfgPinWritten = s.cfgPinWritten := by simp [State.acqFail]
@[simp] theorem State.acqFail_cfgRetries : s.acqFail.cfgRetries = s.cfgRetries := by simp [State.acqFail]
@[simp] theorem State.acqFail_cfgGap : s.acqFail.cfgGap = s.cfgGap := by simp [State.acqFail]
@[simp] theorem State.acqFail_cfgLatency : s.acqFail.cfgLatency = s.cfgLatency := by simp [State.acqFail]
@[simp] theorem State.acqFail_xPin : s.acqFail.xPin = s.xPin := by simp [State.acqFail]
@[simp] theorem State.acqFail_xRetries : s.acqFail.xRetries = s.xRetries := by simp [State.acqFail]
@[simp] theorem State.acqFail_xGap : s.acqFail.xGap = s.xGap := by simp [State.acqFail]
@[simp] theorem State.acqFail_xLat : s.acqFail.xLat = s.xLat := by simp [State.acqFail]
@[simp] theorem State.acqFail_bitTiming : s.acqFail.bitTiming = s.bitTiming := by simp [State.acqFail]
@[simp] theorem State.acqFail_seq : s.acqFail.seq = { phase := .idle, rep := 0, bit := 0 } := by simp [State.acqFail]
@[simp] theorem State.acqFail_timer : s.acqFail.timer = 0 := by simp [State.acqFail]
@[simp] theorem State.acqFail_busy : s.acqFail.busy = false := by simp [State.acqFail]
@[simp] theorem State.acqFail_done : s.acqFail.done = false := by simp [State.acqFail]
@[simp] theorem State.acqFail_err : s.acqFail.err = .pinInit := by simp [State.acqFail]
@[simp] theorem State.acqFail_gpioInit : s.acqFail.gpioInit = s.gpioInit := by simp [State.acqFail]
@[simp] theorem State.acqFail_configured : s.acqFail.configured = s.configured := by simp [State.acqFail]
@[simp] theorem State.acqFail_levels : s.acqFail.levels = s.levels := by simp [State.acqFail]
@[simp] theorem State.acqFail_trace : s.acqFail.trace = s.trace := by simp [State.acqFail]
@[simp] theorem State.acqFail_faulted : s.acqFail.faulted = s.faulted := by simp [State.acqFail]
@[simp] theorem State.acqFail_prog : s.acqFail.prog = s.prog := by simp [State.acqFail]
@[simp] theorem State.acqFail_readData : s.acqFail.readData = s.readData := by simp [State.acqFail]
@[simp] theorem State.acqFail_times : s.acqFail.times = s.times := by simp [State.acqFail]
@[simp] theorem State.acqFail_answers : s.acqFail.answers = s.answers.tail := by simp [State.acqFail]
@[simp] theorem State.acqFail_eps : s.acqFail.eps = s.eps := by simp [State.acqFail]
@[simp] theorem State.acqFail_setups : s.acqFail.setups = s.setups := by simp [State.acqFail]
@[simp] theorem State.acqFail_turns : s.acqFail.turns = s.turns := by simp [State.acqFail]
@[simp] theorem State.acqFail_level : s.acqFail.level q = s.level q := by simp [State.level]
@[simp] theorem State.acqFail_isConfigured : s.acqFail.isConfigured q = s.isConfigured q := by simp [State.isConfigured]
@[simp] theorem State.acqFail_heldHigh : s.acqFail.heldHigh b = s.heldHigh b := by simp [State.heldHigh]
@[simp] theorem State.acqFail_heldLow : s.acqFail.heldLow b = s.heldLow b := by simp [State.heldLow]
@[simp] theorem State.acqFail_heldGap : s.acqFail.heldGap = s.heldGap := by simp [State.heldGap]
@[simp] theorem State.acqFail_nextEps : s.acqFail.nextEps = s.nextEps := by simp [State.nextEps]
@[simp] theorem State.acqFail_nextSetup : s.acqFail.nextSetup = s.nextSetup := by simp [State.nextSetup]

/-! `doHold` -/
@[simp] theorem doHold_cmdGroup : (doHold d s).cmdGroup = s.cmdGroup := by simp [doHold]
@[simp] theorem doHold_cmdAddr : (doHold d s).cmdAddr = s.cmdAddr := by simp [doHold]
@[simp] theorem doHold_cmdOn : (doHold d s).cmdOn = s.cmdOn := by simp [doHold]
@[simp] theorem doHold_frame : (doHold d s).frame = s.frame := by simp [doHold]
@[simp] theorem doHold_cfgPin : (doHold d s).cfgPin = s.cfgPin := by simp [doHold]
@[simp] theorem doHold_cfgPinWritten : (doHold d s).cfgPinWritten = s.cfgPinWritten := by simp [doHold]
@[simp] theorem doHold_cfgRetries : (doHold d s).cfgRetries = s.cfgRetries := by simp [doHold]
@[simp] theorem doHold_cfgGap : (doHold d s).cfgGap = s.cfgGap := by simp [doHold]
@[simp] theorem doHold_cfgLatency : (doHold d s).cfgLatency = s.cfgLatency := by simp [doHold]
@[simp] theorem doHold_xPin : (doHold d s).xPin = s.xPin := by simp [doHold]
@[simp] theorem doHold_xRetries : (doHold d s).xRetries = s.xRetries := by simp [doHold]
@[simp] theorem doHold_xGap : (doHold d s).xGap = s.xGap := by simp [doHold]
@[simp] theorem doHold_xLat : (doHold d s).xLat = s.xLat := by simp [doHold]
@[simp] theorem doHold_bitTiming : (doHold d s).bitTiming = s.bitTiming := by simp [doHold]
@[simp] theorem doHold_seq : (doHold d s).seq = s.seq := by simp [doHold]
@[simp] theorem doHold_timer : (doHold d s).timer = 0 := by simp [doHold]
@[simp] theorem doHold_busy : (doHold d s).busy = s.busy := by simp [doHold]
@[simp] theorem doHold_done : (doHold d s).done = s.done := by simp [doHold]
@[simp] theorem doHold_err : (doHold d s).err = s.err := by simp [doHold]
@[simp] theorem doHold_gpioInit : (doHold d s).gpioInit = s.gpioInit := by simp [doHold]
@[simp] theorem doHold_configured : (doHold d s).configured = s.configured := by simp [doHold]
@[simp] theorem doHold_levels : (doHold d s).levels = s.levels := by simp [doHold]
@[simp] theorem doHold_trace : (doHold d s).trace = s.trace ++ [.hold d] := by simp [doHold]
@[simp] theorem doHold_faulted : (doHold d s).faulted = s.faulted := by simp [doHold]
@[simp] theorem doHold_prog : (doHold d s).prog = s.prog := by simp [doHold]
@[simp] theorem doHold_readData : (doHold d s).readData = s.readData := by simp [doHold]
@[simp] theorem doHold_times : (doHold d s).times = s.times ++ [.interval (s.level s.xPin) d s.nextEps] := by simp [doHold]
@[simp] theorem doHold_answers : (doHold d s).answers = s.answers := by simp [doHold]
@[simp] theorem doHold_eps : (doHold d s).eps = s.eps.tail := by simp [doHold]
@[simp] theorem doHold_setups : (doHold d s).setups = s.setups := by simp [doHold]
@[simp] theorem doHold_turns : (doHold d s).turns = s.turns := by simp [doHold]
@[simp] theorem doHold_level : (doHold d s).level q = s.level q := by simp [State.level]
@[simp] theorem doHold_isConfigured : (doHold d s).isConfigured q = s.isConfigured q := by simp [State.isConfigured]
@[simp] theorem doHold_answer : (doHold d s).answer = s.answer := by simp [State.answer]
@[simp] theorem doHold_heldHigh : (doHold d s).heldHigh b = s.heldHigh b := by simp [State.heldHigh]
@[simp] theorem doHold_heldLow : (doHold d s).heldLow b = s.heldLow b := by simp [State.heldLow]
@[simp] theorem doHold_heldGap : (doHold d s).heldGap = s.heldGap := by simp [State.heldGap]
@[simp] theorem doHold_nextSetup : (doHold d s).nextSetup = s.nextSetup := by simp [State.nextSetup]
@[simp] theorem doHold_currentBit : (doHold d s).currentBit = s.currentBit := by simp [State.currentBit]

end Sys2Proof.Machine
end

