-- ==== Sys2Proof/Laws/Ops.lean ====
section
/-! SUPPORT. One lemma per shared operation, saying once what it can do: levels and CONFIGURED read after write, the
saturating subtraction, the hold as the microsecond loop of spec/41_pulse_transmitter.md R120, the driver operations, START
and the host's write. -/

namespace Sys2Proof.Machine

/-! Levels and CONFIGURED. -/

theorem level_setLevel (s : State) (p q : Pin) (l : Level) :
    (s.setLevel p l).level q = if q = p then l else s.level q := by
  simp only [State.level, State.setLevel_levels, Vector.getElem_set, BitVec.toNat_inj, eq_comm]

@[simp] theorem level_setLevel_same (s : State) (p : Pin) (l : Level) : (s.setLevel p l).level p = l := by
  simp [level_setLevel]

theorem level_setLevel_other (s : State) {p q : Pin} (l : Level) (h : q ≠ p) :
    (s.setLevel p l).level q = s.level q := by
  simp [level_setLevel, h]

theorem isConfigured_addConfigured (s : State) (p q : Pin) :
    (s.addConfigured p).isConfigured q = (s.isConfigured q || q == p) := by
  have hp : p.toNat < 256 := p.isLt
  simp only [State.isConfigured, State.addConfigured_configured, BitVec.getLsbD_or, BitVec.getLsbD_twoPow]
  congr 1
  simp [hp, eq_comm, ← BitVec.toNat_inj, Bool.beq_eq_decide_eq]

@[simp] theorem setOk_level (s : State) (p : Pin) (l : Level) : (s.setOk p l).level p = l :=
  level_setLevel_same s p l

@[simp] theorem setFail_level (s : State) (p : Pin) : (s.setFail p).level p = .unknown :=
  level_setLevel_same s p .unknown

theorem setOk_level_other (s : State) {p q : Pin} (l : Level) (h : q ≠ p) : (s.setOk p l).level q = s.level q :=
  level_setLevel_other s l h

theorem setFail_level_other (s : State) {p q : Pin} (h : q ≠ p) : (s.setFail p).level q = s.level q :=
  level_setLevel_other s .unknown h

theorem cfgOk_isConfigured (s : State) (p q : Pin) :
    (s.cfgOk p).isConfigured q = (s.isConfigured q || q == p) :=
  isConfigured_addConfigured s p q

@[simp] theorem reset_isConfigured (p : Pin) : State.reset.isConfigured p = false := by
  simp [State.isConfigured, State.reset]

@[simp] theorem reset_level (p : Pin) : State.reset.level p = .unknown := by
  simp [State.level, State.reset]

/-! Arithmetic. -/

/-- `sat` is subtraction of naturals (R129). -/
theorem sat_toNat (a c : Dur) : (sat a c).toNat = a.toNat - c.toNat := by
  unfold sat
  split
  · rename_i h; exact BitVec.toNat_sub_of_le h
  · rename_i h
    have := BitVec.not_le.mp h
    simp only [BitVec.lt_def] at this
    simp
    omega

/-! Streams. -/

@[simp] theorem Stream.head_cons {α : Type} (free : Nat → α) (v : α) (l : List α) (n : Nat) :
    Stream.head free ⟨v :: l, n⟩ = v := rfl

@[simp] theorem Stream.tail_script {α : Type} (x : Stream α) : x.tail.script = x.script.tail := rfl

/-- The next answer is the first one scripted. -/
theorem answer_of_cons {s : State} {a : Answer} {l : List Answer} (h : s.answers.script = a :: l) : s.answer = a := by
  simp [State.answer, Stream.head, h]

/-- The next overhead is the first one scripted. -/
theorem nextEps_of_cons {s : State} {n : Nat} {l : List Nat} (h : s.eps.script = n :: l) : s.nextEps = n := by
  simp [State.nextEps, Stream.head, h]

/-! The hold. -/

theorem ticks_eq (n : Nat) (s : State) : State.ticks n s = s.loadTimer (s.timer - BitVec.ofNat 32 n) := by
  induction n generalizing s with
  | zero => simp [State.ticks, State.loadTimer]
  | succ n ih =>
    rw [State.ticks, ih]
    simp only [State.loadTimer, State.tick]
    congr 1
    rw [show BitVec.ofNat 32 (n + 1) = 1 + BitVec.ofNat 32 n by
      apply BitVec.eq_of_toNat_eq; simp [BitVec.toNat_add, Nat.add_comm]]
    exact BitVec.sub_sub ..

/-- `doHold` is the loop of R120: TIMER is loaded with d and counted down microsecond by microsecond, then the hold is
recorded. -/
theorem doHold_eq_ticks (d : Dur) (s : State) :
    doHold d s = ((State.ticks d.toNat (s.loadTimer d)).recordInterval d).emit (.hold d) := by
  rw [ticks_eq]
  simp [doHold, State.loadTimer, State.recordInterval, State.emit, State.level, State.nextEps]

/-! Results. -/

@[simp] theorem Res.andThen_ok (s : State) (f : State → Res) : (Res.ok s).andThen f = f s := rfl
@[simp] theorem Res.andThen_stopped (s : State) (f : State → Res) : (Res.stopped s).andThen f = .stopped s := rfl
@[simp] theorem Res.andThen_refused (r : Refusal) (f : State → Res) : (Res.refused r).andThen f = .refused r := rfl
@[simp] theorem Res.outcome_ok (s : State) : (Res.ok s).outcome = .next s := rfl
@[simp] theorem Res.outcome_stopped (s : State) : (Res.stopped s).outcome = .next s := rfl
@[simp] theorem Res.outcome_refused (r : Refusal) : (Res.refused r).outcome = .refused r := rfl

theorem Res.andThen_assoc (r : Res) (f g : State → Res) :
    (r.andThen f).andThen g = r.andThen fun s => (f s).andThen g := by
  cases r <;> rfl

theorem Res.andThen_eq_ok {r : Res} {f : State → Res} {t : State} (h : r.andThen f = .ok t) :
    ∃ s, r = .ok s ∧ f s = .ok t := by
  cases r <;> simp_all

theorem Res.andThen_eq_stopped {r : Res} {f : State → Res} {t : State} (h : r.andThen f = .stopped t) :
    r = .stopped t ∨ ∃ s, r = .ok s ∧ f s = .stopped t := by
  cases r <;> simp_all

theorem Res.outcome_eq_next {r : Res} {t : State} (h : r.outcome = .next t) : r = .ok t ∨ r = .stopped t := by
  cases r <;> simp_all [Res.outcome]

/-! The driver operations. -/

theorem doSet_ok {s : State} (h : s.answer = .ok) (p : Pin) (l : Level) :
    doSet p l s = .ok (s.setOk p l) := by
  simp [doSet, h]

theorem doSet_fail {s : State} (h : s.answer = .fail) (p : Pin) (l : Level) :
    doSet p l s = .stopped (s.setFail p) := by
  simp [doSet, h]

/-- A Set either writes the level and records the event, or makes the level UNKNOWN and raises PIN_WRITE_FAILURE. -/
theorem doSet_cases (s : State) (p : Pin) (l : Level) :
    (s.answer = .ok ∧ doSet p l s = .ok (s.setOk p l)) ∨
      (s.answer = .fail ∧ doSet p l s = .stopped (s.setFail p)) := by
  cases h : s.answer
  · exact .inl ⟨rfl, doSet_ok h p l⟩
  · exact .inr ⟨rfl, doSet_fail h p l⟩

theorem doDrvInit_ok {s : State} (h : s.answer = .ok) :
    doDrvInit s = .ok s.initOk := by
  simp [doDrvInit, h]

theorem doDrvInit_fail {s : State} (h : s.answer = .fail) :
    doDrvInit s = .stopped s.acqFail := by
  simp [doDrvInit, h]

theorem doCfgOut_ok {s : State} (h : s.answer = .ok) (p : Pin) :
    doCfgOut p s = .ok (s.cfgOk p) := by
  simp [doCfgOut, h]

theorem doCfgOut_fail {s : State} (h : s.answer = .fail) (p : Pin) :
    doCfgOut p s = .stopped s.acqFail := by
  simp [doCfgOut, h]

/-- An initialisation, where it is needed, sets GPIO_INIT and records the event, or raises PIN_INIT_FAILURE. -/
theorem drvInitIfNeeded_cases (s : State) :
    (s.gpioInit = true ∧ drvInitIfNeeded s = .ok s) ∨
      (s.gpioInit = false ∧ s.answer = .ok ∧ drvInitIfNeeded s = .ok s.initOk) ∨
        (s.gpioInit = false ∧ s.answer = .fail ∧ drvInitIfNeeded s = .stopped s.acqFail) := by
  cases hg : s.gpioInit
  · cases ha : s.answer
    · exact .inr (.inl ⟨rfl, rfl, by simp [drvInitIfNeeded, hg, doDrvInit_ok ha]⟩)
    · exact .inr (.inr ⟨rfl, rfl, by simp [drvInitIfNeeded, hg, doDrvInit_fail ha]⟩)
  · exact .inl ⟨rfl, by simp [drvInitIfNeeded, hg]⟩

/-- A configuration, where it is needed, adds p to CONFIGURED and records the event, or raises PIN_INIT_FAILURE. -/
theorem cfgOutIfNeeded_cases (s : State) (p : Pin) :
    (s.isConfigured p = true ∧ cfgOutIfNeeded p s = .ok s) ∨
      (s.isConfigured p = false ∧ s.answer = .ok ∧
          cfgOutIfNeeded p s = .ok (s.cfgOk p)) ∨
        (s.isConfigured p = false ∧ s.answer = .fail ∧ cfgOutIfNeeded p s = .stopped s.acqFail) := by
  cases hg : s.isConfigured p
  · cases ha : s.answer
    · exact .inr (.inl ⟨rfl, rfl, by simp [cfgOutIfNeeded, hg, doCfgOut_ok ha]⟩)
    · exact .inr (.inr ⟨rfl, rfl, by simp [cfgOutIfNeeded, hg, doCfgOut_fail ha]⟩)
  · exact .inl ⟨rfl, by simp [cfgOutIfNeeded, hg]⟩

/-! START and the host's writes. -/

theorem doStart_busy {s : State} (h : s.busy = true) : doStart s = .stopped s.setFaulted := by
  simp [doStart, h]

theorem doStart_ready {s : State} (h : s.Ready) : doStart s = .ok s.startRun := by
  simp [doStart, h.1, h.2]

theorem doStart_unwritten {s : State} (hb : s.busy = false) (hw : s.cfgPinWritten = false) :
    doStart s = .refused .startPinUnwritten := by
  simp [doStart, hb, hw]

/-- START marks the run faulted, begins a run, or is refused. -/
theorem doStart_cases (s : State) :
    (s.busy = true ∧ doStart s = .stopped s.setFaulted) ∨ (s.Ready ∧ doStart s = .ok s.startRun) ∨
      (s.busy = false ∧ s.cfgPinWritten = false ∧ doStart s = .refused .startPinUnwritten) := by
  cases hb : s.busy
  · cases hw : s.cfgPinWritten
    · exact .inr (.inr ⟨rfl, rfl, doStart_unwritten hb hw⟩)
    · exact .inr (.inl ⟨⟨hb, hw⟩, doStart_ready ⟨hb, hw⟩⟩)
  · exact .inl ⟨rfl, doStart_busy hb⟩

/-- A host write changes nothing but the seven writable registers and the written mark. -/
theorem storeReg_frame (s : State) (r : RegNum) (v : Nat) :
    s.storeReg r v = { s with
      cmdGroup := (s.storeReg r v).cmdGroup, cmdAddr := (s.storeReg r v).cmdAddr, cmdOn := (s.storeReg r v).cmdOn
      cfgPin := (s.storeReg r v).cfgPin, cfgPinWritten := (s.storeReg r v).cfgPinWritten
      cfgRetries := (s.storeReg r v).cfgRetries, cfgGap := (s.storeReg r v).cfgGap
      cfgLatency := (s.storeReg r v).cfgLatency } := by
  unfold State.storeReg
  split <;> rfl

/-- A host write leaves what the host reads in every other register (R33). -/
theorem storeReg_regValue_other (s : State) {r r' : RegNum} (v : Nat) (h : r' ≠ r) :
    (s.storeReg r v).regValue r' = s.regValue r' := by
  have h1 : r'.toNat ≠ r.toNat := fun hc => h (BitVec.eq_of_toNat_eq hc)
  unfold State.storeReg
  split <;> unfold State.regValue <;> split <;> first | rfl | omega

/-- A host write of a writable register is read back reduced to its width (R34). -/
theorem storeReg_regValue (s : State) {r : RegNum} (v : Nat) (h : r.toNat ≤ 6) :
    (s.storeReg r v).regValue r = v % 2 ^ regWidth r := by
  unfold State.storeReg State.regValue regWidth
  split <;> simp_all
  omega

/-- Registers 7 and above ignore a plain write (R33). -/
theorem storeReg_ignored (s : State) {r : RegNum} (v : Nat) (h : 7 ≤ r.toNat) : s.storeReg r v = s := by
  unfold State.storeReg
  split <;> first | rfl | omega

/-- The three operand writes of SEND, as one update. -/
theorem writeCommand_eq (s : State) (g a v : Nat) :
    s.writeCommand g a v =
      { s with cmdGroup := BitVec.ofNat 10 g, cmdAddr := BitVec.ofNat 3 a, cmdOn := BitVec.ofNat 1 v } := rfl

/-- The frame START samples after the operand writes of SEND: the operands wrap (R34, R80, R152). -/
theorem writeCommand_commandFrame (s : State) (g a v : Nat) :
    (s.writeCommand g a v).commandFrame = encodeFrame g a (v % 2 == 1) := by
  rw [writeCommand_eq]
  simp only [State.commandFrame, encodeFrame, BitVec.toNat_ofNat]
  have hg : BitVec.ofNat 10 (g % 2 ^ 10) = BitVec.ofNat 10 g := by simp [← BitVec.toNat_inj]
  have ha : BitVec.ofNat 3 (a % 2 ^ 3) = BitVec.ofNat 3 a := by simp [← BitVec.toNat_inj]
  have hv : (BitVec.ofNat 1 v == 1#1) = (v % 2 == 1) := by
    rcases Nat.mod_two_eq_zero_or_one v with h | h <;> simp [h, ← BitVec.toNat_inj, Bool.beq_eq_decide_eq]
  rw [hg, ha, hv]

end Sys2Proof.Machine
end

