-- ==== Sys2Proof/Laws/Runs.lean ====
section
/-! SUPPORT. What a stretch of the sequencer's work does: a symbol, the bits of a frame, a repetition, n repetitions, the
acquisition (spec/41_pulse_transmitter.md R124 to R126, spec/42_frame_repeater.md R153, R158). -/

namespace Sys2Proof.Machine

/-! The premise on the driver's answers. -/

theorem AnswersOk.mono {j k : Nat} {s : State} (h : AnswersOk k s) (hj : j ≤ k) : AnswersOk j s := by
  have := congrArg (List.take j) h
  simpa [AnswersOk, List.take_take, List.take_replicate, Nat.min_eq_left hj] using this

theorem answersOk_succ {k : Nat} {s : State} :
    AnswersOk (k + 1) s ↔ ∃ l, s.answers.script = .ok :: l ∧ l.take k = List.replicate k .ok := by
  unfold AnswersOk
  cases h : s.answers.script <;> simp [List.replicate_succ]

theorem AnswersOk.head {k : Nat} {s : State} (h : AnswersOk (k + 1) s) : s.answer = .ok := by
  obtain ⟨l, hl, -⟩ := answersOk_succ.mp h
  exact answer_of_cons hl

/-- The premise about the answers after `j` of them were drawn. -/
theorem AnswersOk.drop {j k : Nat} {s t : State} (h : AnswersOk (j + k) s)
    (ht : t.answers.script = s.answers.script.drop j) : AnswersOk k t := by
  have := congrArg (List.drop j) h
  simpa [AnswersOk, ht, List.drop_take] using this

theorem AnswersOk.congr {k : Nat} {s t : State} (h : AnswersOk k s) (ht : t.answers = s.answers) : AnswersOk k t := by
  simpa [AnswersOk, ht] using h

theorem FailsAfter.drop {j k : Nat} {s t : State} (h : FailsAfter (j + k) s)
    (ht : t.answers.script = s.answers.script.drop j) : FailsAfter k t := by
  have := congrArg (List.drop j) h
  rw [List.drop_take, show j + k + 1 - j = k + 1 by omega] at this
  rw [FailsAfter, ht, this, List.drop_append_of_le_length (by simp)]
  simp

theorem FailsAfter.congr {k : Nat} {s t : State} (h : FailsAfter k s) (ht : t.answers = s.answers) : FailsAfter k t := by
  simpa [FailsAfter, ht] using h

theorem FailsAfter.answersOk {k : Nat} {s : State} (h : FailsAfter k s) : AnswersOk k s := by
  have := congrArg (List.take k) h
  simpa [AnswersOk, List.take_take, List.take_append] using this

theorem FailsAfter.answer {s : State} (h : FailsAfter 0 s) : s.answer = .fail := by
  unfold FailsAfter at h
  cases hs : s.answers.script with
  | nil => simp [hs] at h
  | cons a l =>
    simp [hs] at h
    exact h ▸ answer_of_cons hs

/-! Stretches of pulses. -/

/-- The sequencer has sent the events `es` between s and t and nothing failed. -/
structure Sent (s t : State) (es : List Event) : Prop where
  trace : t.trace = s.trace ++ es
  times : heldOfTimes t.times = heldOfTimes s.times ++ heldOfTrace es
  others : ∀ q, q ≠ s.xPin → t.level q = s.level q
  rest : t = { s with
    timer := t.timer, levels := t.levels, trace := t.trace, times := t.times, answers := t.answers, eps := t.eps }

theorem heldOfTrace_append (a b : List Event) : heldOfTrace (a ++ b) = heldOfTrace a ++ heldOfTrace b := by
  simp [heldOfTrace]

theorem heldOfTimes_append (a b : List Timed) : heldOfTimes (a ++ b) = heldOfTimes a ++ heldOfTimes b := by
  simp [heldOfTimes]

@[simp] theorem heldOfTrace_hold (d : Dur) : heldOfTrace [.hold d] = [d] := rfl
@[simp] theorem heldOfTrace_set (p : Pin) (l : Level) : heldOfTrace [.set p l] = [] := rfl
@[simp] theorem heldOfTrace_drvInit : heldOfTrace [.drvInit] = [] := rfl
@[simp] theorem heldOfTrace_cfgOut (p : Pin) : heldOfTrace [.cfgOut p] = [] := rfl
@[simp] theorem heldOfTimes_interval (l : Level) (d : Dur) (n : Nat) : heldOfTimes [.interval l d n] = [d] := rfl
@[simp] theorem heldOfTimes_setup (n : Nat) : heldOfTimes [.setup n] = [] := rfl
@[simp] theorem heldOfTimes_pause (n : Nat) : heldOfTimes [.pause n] = [] := rfl

theorem Sent.refl (s : State) : Sent s s [] :=
  ⟨by simp, by simp [heldOfTrace], fun _ _ => rfl, rfl⟩

/-- Everything that no pulse changes. -/
theorem Sent.keeps {s t : State} {es : List Event} (h : Sent s t es) :
    t.xPin = s.xPin ∧ t.xRetries = s.xRetries ∧ t.xGap = s.xGap ∧ t.xLat = s.xLat ∧ t.frame = s.frame ∧
      t.bitTiming = s.bitTiming ∧ t.seq = s.seq ∧ t.busy = s.busy ∧ t.done = s.done ∧ t.err = s.err ∧
      t.gpioInit = s.gpioInit ∧ t.configured = s.configured ∧ t.faulted = s.faulted ∧ t.prog = s.prog ∧
      t.setups = s.setups := by
  rw [h.rest]; simp

theorem Sent.trans {s t u : State} {a b : List Event} (h : Sent s t a) (k : Sent t u b) : Sent s u (a ++ b) := by
  refine ⟨by rw [k.trace, h.trace, List.append_assoc], ?_, ?_, ?_⟩
  · rw [k.times, h.times, heldOfTrace_append, List.append_assoc]
  · intro q hq
    rw [k.others q (by rw [h.keeps.1]; exact hq), h.others q hq]
  · rw [k.rest, h.rest]

/-- The held durations and the events of a symbol depend on what no pulse changes. -/
theorem Sent.symbolEvents {s t : State} {es : List Event} (h : Sent s t es) (b : Bool) :
    t.symbolEvents b = s.symbolEvents b := by
  obtain ⟨hp, -, -, hl, -, ht, -⟩ := h.keeps
  simp [State.symbolEvents, State.heldHigh, State.heldLow, hp, hl, ht]

theorem Sent.frameEvents {s t : State} {es : List Event} (h : Sent s t es) : t.frameEvents = s.frameEvents := by
  obtain ⟨-, -, hg, hl, hf, -⟩ := h.keeps
  have : t.symbolEvents = s.symbolEvents := funext h.symbolEvents
  simp [State.frameEvents, State.heldGap, hg, hl, hf, this]

theorem doHold_sent (d : Dur) (s : State) : Sent s (doHold d s) [.hold d] :=
  ⟨by simp, by simp [heldOfTimes_append], fun _ _ => rfl, rfl⟩

theorem setOk_sent {p : Pin} (l : Level) {s : State} (hp : p = s.xPin) : Sent s (s.setOk p l) [.set p l] :=
  ⟨by simp, by simp, fun q hq => setOk_level_other s l (hp ▸ hq), rfl⟩

/-- The first half of a symbol, its first Set answered ok: the HIGH phase (R124, R125). -/
def highDone (b : Bool) (s : State) : State := doHold (s.heldHigh b) (s.setOk s.xPin .high)

theorem highDone_sent (b : Bool) (s : State) : Sent s (highDone b s) [.set s.xPin .high, .hold (s.heldHigh b)] :=
  (setOk_sent .high rfl).trans (doHold_sent (s.heldHigh b) (s.setOk s.xPin .high))

@[simp] theorem highDone_script (b : Bool) (s : State) :
    (highDone b s).answers.script = s.answers.script.tail := rfl

theorem highDone_heldLow (b : Bool) (s : State) : (highDone b s).heldLow b = s.heldLow b := by
  obtain ⟨-, -, -, hl, -, ht, -⟩ := (highDone_sent b s).keeps
  simp [State.heldLow, hl, ht]

/-- The state after a symbol whose two Sets were answered ok. -/
def symbolDone (b : Bool) (s : State) : State :=
  doHold (s.heldLow b) ((highDone b s).setOk s.xPin .low)

/-- A symbol whose first Set is answered ok goes on from its HIGH phase (R124, R125). -/
theorem doSymbol_high {s : State} (b : Bool) (h : s.answer = .ok) :
    doSymbol b s = (doSet s.xPin .low (highDone b s)).andThen fun s2 => .ok (doHold (s2.heldLow b) s2) := by
  rw [doSymbol, doSet_ok h, Res.andThen_ok]
  rfl

/-- A symbol with both answers ok (R124, R125). -/
theorem doSymbol_ok {s : State} (b : Bool) (h : AnswersOk 2 s) : doSymbol b s = .ok (symbolDone b s) := by
  obtain ⟨l, hl, h1⟩ := answersOk_succ.mp h
  have h2 : (highDone b s).answer = .ok := by
    cases l with
    | nil => simp at h1
    | cons a l =>
      simp at h1
      subst h1
      exact answer_of_cons (l := l) (by simp [hl])
  rw [doSymbol_high b (answer_of_cons hl), doSet_ok h2, Res.andThen_ok, symbolDone, State.setOk_heldLow,
    highDone_heldLow]

theorem symbolDone_sent (b : Bool) (s : State) : Sent s (symbolDone b s) (s.symbolEvents b) := by
  have h1 := highDone_sent b s
  have h2 := setOk_sent .low (s := highDone b s) h1.keeps.1.symm
  have h3 := doHold_sent (s.heldLow b) ((highDone b s).setOk s.xPin .low)
  exact (h1.trans h2).trans h3

@[simp] theorem symbolDone_level (b : Bool) (s : State) : (symbolDone b s).level s.xPin = .low := by
  rw [symbolDone, doHold_level, setOk_level]

@[simp] theorem symbolDone_answers (b : Bool) (s : State) :
    (symbolDone b s).answers.script = s.answers.script.drop 2 := by
  rw [symbolDone, doHold_answers, State.setOk_answers, Stream.tail_script, highDone_script]
  cases s.answers.script <;> simp

/-- The bits of a frame with every answer ok (R158). -/
theorem sendBits_ok (bits : List Bool) {s : State} (h : AnswersOk (2 * bits.length) s) :
    ∃ t, sendBits bits s = .ok t ∧ Sent s t (bits.flatMap s.symbolEvents) ∧
      t.answers.script = s.answers.script.drop (2 * bits.length) ∧
      (bits = [] → t = s) ∧ (bits ≠ [] → t.level s.xPin = .low) := by
  induction bits generalizing s with
  | nil => exact ⟨s, rfl, Sent.refl s, by simp, fun _ => rfl, by simp⟩
  | cons b bits ih =>
    have hsplit : AnswersOk (2 + 2 * bits.length) s := by
      simpa [Nat.mul_add, Nat.add_comm, List.length_cons] using h
    have h1 := doSymbol_ok b (hsplit.mono (Nat.le_add_right ..))
    have hs := symbolDone_sent b s
    obtain ⟨t, ht, hsent, hans, hnil, hlow⟩ := ih (hsplit.drop (symbolDone_answers b s))
    have hx : (symbolDone b s).xPin = s.xPin := hs.keeps.1
    refine ⟨t, by simp [sendBits, h1, ht], ?_, ?_, by simp, fun _ => ?_⟩
    · have he : (symbolDone b s).symbolEvents = s.symbolEvents := funext hs.symbolEvents
      simpa [he] using hs.trans hsent
    · rw [hans, symbolDone_answers, List.drop_drop]
      congr 1
      simp [List.length_cons]; omega
    · by_cases hb : bits = []
      · rw [hnil hb]; simp
      · rw [← hx]; exact hlow hb

@[simp] theorem frameBits_length (f : Frame) : (frameBits f).length = 25 := by
  simp [frameBits, Config.frameLen]

/-- One repetition with every answer ok (R158, R159). -/
theorem sendFrame_ok {s : State} (h : AnswersOk 50 s) :
    ∃ t, sendFrame s = .ok t ∧ Sent s t s.frameEvents ∧ t.answers.script = s.answers.script.drop 50 ∧
      t.level s.xPin = .low ∧ t.timer = 0 := by
  obtain ⟨t, ht, hsent, hans, -, hlow⟩ := sendBits_ok (frameBits s.frame) (s := s) (by simpa using h)
  have hgap : t.heldGap = s.heldGap := by
    obtain ⟨-, -, hg, hl, -⟩ := hsent.keeps
    simp [State.heldGap, hg, hl]
  have hne : frameBits s.frame ≠ [] := by
    intro hc; simpa [hc] using frameBits_length s.frame
  refine ⟨doGap t, by simp [sendFrame, ht], ?_, by simpa [doGap] using hans, by simpa [doGap] using hlow hne,
    by simp [doGap]⟩
  have := hsent.trans (doHold_sent t.heldGap t)
  rw [hgap] at this
  simpa [doGap, State.frameEvents, hgap] using this

theorem framesEvents_succ (s : State) (n : Nat) : s.framesEvents (n + 1) = s.frameEvents ++ s.framesEvents n := by
  simp [State.framesEvents, List.replicate_succ]

theorem Sent.framesEvents {s t : State} {es : List Event} (h : Sent s t es) (n : Nat) :
    t.framesEvents n = s.framesEvents n := by
  simp [State.framesEvents, h.frameEvents]

/-- n repetitions with every answer ok (R158, R168). -/
theorem sendFrames_ok (n : Nat) {s : State} (h : AnswersOk (50 * n) s) :
    ∃ t, sendFrames n s = .ok t ∧ Sent s t (s.framesEvents n) ∧ t.answers.script = s.answers.script.drop (50 * n) ∧
      (n = 0 → t = s) ∧ (n ≠ 0 → t.level s.xPin = .low ∧ t.timer = 0) := by
  induction n generalizing s with
  | zero => exact ⟨s, rfl, by simpa [State.framesEvents] using Sent.refl s, by simp, fun _ => rfl, by simp⟩
  | succ n ih =>
    have hsplit : AnswersOk (50 + 50 * n) s := by simpa [Nat.mul_add, Nat.add_comm] using h
    obtain ⟨u, hu, hsu, hau, hlu, htu⟩ := sendFrame_ok (hsplit.mono (Nat.le_add_right ..))
    obtain ⟨t, ht, hst, hat, h0, h1⟩ := ih (hsplit.drop hau)
    have hx : u.xPin = s.xPin := hsu.keeps.1
    refine ⟨t, by simp [sendFrames, hu, ht], ?_, ?_, by simp, fun _ => ?_⟩
    · rw [framesEvents_succ, ← hsu.framesEvents n]
      exact hsu.trans hst
    · rw [hat, hau, List.drop_drop]; congr 1; omega
    · by_cases hn : n = 0
      · rw [h0 hn]; exact ⟨hlu, htu⟩
      · rw [← hx]; exact h1 hn

/-! The acquisition. -/

theorem drvInitIfNeeded_true {s : State} (h : s.gpioInit = true) : drvInitIfNeeded s = .ok s := by
  simp [drvInitIfNeeded, h]

theorem drvInitIfNeeded_ok {s : State} (h : s.gpioInit = false) (ha : s.answer = .ok) :
    drvInitIfNeeded s = .ok s.initOk := by
  simp [drvInitIfNeeded, h, doDrvInit_ok ha]

theorem drvInitIfNeeded_fail {s : State} (h : s.gpioInit = false) (ha : s.answer = .fail) :
    drvInitIfNeeded s = .stopped s.acqFail := by
  simp [drvInitIfNeeded, h, doDrvInit_fail ha]

theorem cfgOutIfNeeded_true {s : State} {p : Pin} (h : s.isConfigured p = true) : cfgOutIfNeeded p s = .ok s := by
  simp [cfgOutIfNeeded, h]

theorem cfgOutIfNeeded_ok {s : State} {p : Pin} (h : s.isConfigured p = false) (ha : s.answer = .ok) :
    cfgOutIfNeeded p s = .ok (s.cfgOk p) := by
  simp [cfgOutIfNeeded, h, doCfgOut_ok ha]

theorem cfgOutIfNeeded_fail {s : State} {p : Pin} (h : s.isConfigured p = false) (ha : s.answer = .fail) :
    cfgOutIfNeeded p s = .stopped s.acqFail := by
  simp [cfgOutIfNeeded, h, doCfgOut_fail ha]

/-- The acquisition, its first half ended well, goes on with the line (R153). -/
theorem doAcq_line {s s1 : State} (h : drvInitIfNeeded s.recordSetup = .ok s1) (hp : s1.xPin = s.xPin) :
    doAcq s = cfgOutIfNeeded s.xPin s1 := by
  rw [doAcq, h, Res.andThen_ok, hp]

/-- The acquisition with every answer ok (R153). -/
theorem doAcq_ok {s : State} (h : AnswersOk s.acqOps s) :
    ∃ t, doAcq s = .ok t ∧ t.trace = s.trace ++ s.acqEvents ∧ t.gpioInit = true ∧
      (∀ q, t.isConfigured q = (s.isConfigured q || q == s.xPin)) ∧
      t.answers.script = s.answers.script.drop s.acqOps ∧
      t = { s with
        gpioInit := true, configured := t.configured, trace := t.trace
        times := s.times ++ [.setup s.nextSetup], setups := s.setups.tail, answers := t.answers } := by
  cases hg : s.gpioInit <;> cases hc : s.isConfigured s.xPin <;>
    simp only [State.acqOps, State.acqEvents, hg, hc, Bool.not_true, Bool.not_false, Bool.toNat_true,
      Bool.toNat_false] at h ⊢
  · obtain ⟨l, hl, h1⟩ := answersOk_succ.mp h
    have h2 : s.recordSetup.initOk.answer = .ok := by
      cases l with
      | nil => simp at h1
      | cons a l => simp at h1; subst h1; exact answer_of_cons (l := l) (by simp [hl])
    have hi := drvInitIfNeeded_ok (s := s.recordSetup) (by simpa using hg) (by simpa using answer_of_cons hl)
    refine ⟨s.recordSetup.initOk.cfgOk s.xPin, ?_, by simp, by simp,
      fun q => by simp [cfgOk_isConfigured], ?_, by ext1 <;> simp⟩
    · rw [doAcq_line hi (by simp), cfgOutIfNeeded_ok (by simpa using hc) h2]
    · simp; cases s.answers.script <;> simp
  · obtain ⟨l, hl, -⟩ := answersOk_succ.mp h
    have hi := drvInitIfNeeded_ok (s := s.recordSetup) (by simpa using hg) (by simpa using answer_of_cons hl)
    refine ⟨s.recordSetup.initOk, ?_, by simp, by simp, fun q => ?_, by simp, by ext1 <;> simp⟩
    · rw [doAcq_line hi (by simp), cfgOutIfNeeded_true (by simpa using hc)]
    · by_cases hq : q = s.xPin <;> simp [hq, hc]
  · obtain ⟨l, hl, -⟩ := answersOk_succ.mp h
    have hi := drvInitIfNeeded_true (s := s.recordSetup) (by simpa using hg)
    refine ⟨s.recordSetup.cfgOk s.xPin, ?_, by simp, by simp [hg],
      fun q => by simp [cfgOk_isConfigured], by simp, by ext1 <;> simp [hg]⟩
    rw [doAcq_line hi (by simp),
      cfgOutIfNeeded_ok (by simpa using hc) (by simpa using answer_of_cons hl)]
  · have hi := drvInitIfNeeded_true (s := s.recordSetup) (by simpa using hg)
    refine ⟨s.recordSetup, ?_, by simp, by simp [hg], fun q => ?_, by simp, by ext1 <;> simp [hg]⟩
    · rw [doAcq_line hi (by simp), cfgOutIfNeeded_true (by simpa using hc)]
    · by_cases hq : q = s.xPin <;> simp [hq, hc]

/-- Where nothing is left to acquire the acquisition only passes time (R153). -/
theorem doAcq_done {s : State} (hg : s.gpioInit = true) (hc : s.isConfigured s.xPin = true) :
    doAcq s = .ok s.recordSetup := by
  simp [doAcq, drvInitIfNeeded, hg, cfgOutIfNeeded, hc]

end Sys2Proof.Machine
end

