-- ==== Sys2Proof/Laws/Transmit.lean ====
section
/-! SUPPORT. What a whole transmission does (spec/42_frame_repeater.md R158): with every answer ok, and with the k-th answer
the first that is fail (spec/60_exceptions.md R196, R197). -/

namespace Sys2Proof.Machine

/-! Everything went well. -/

/-- Where the events of a run come from does not depend on what the acquisition changes. -/
theorem framesEvents_congr {s t : State} (n : Nat) (h1 : t.xPin = s.xPin) (h2 : t.xLat = s.xLat)
    (h3 : t.xGap = s.xGap) (h4 : t.frame = s.frame) (h5 : t.bitTiming = s.bitTiming) :
    t.framesEvents n = s.framesEvents n := by
  have : t.symbolEvents = s.symbolEvents := by
    funext b; simp [State.symbolEvents, State.heldHigh, State.heldLow, h1, h2, h5]
  simp [State.framesEvents, State.frameEvents, State.heldGap, h2, h3, h4, this]

/-- A transmission with every answer ok (R158, R159, R160, R170). -/
theorem doTransmit_ok {s : State} (h : AnswersOk (s.acqOps + 50 * s.xRetries.toNat) s) :
    ∃ t, doTransmit s = .ok t ∧ t.trace = s.trace ++ s.runEvents ∧ t.busy = false ∧ t.done = true ∧
      t.err = s.err ∧ t.seq = { phase := .idle, rep := 0, bit := 0 } ∧ t.gpioInit = true ∧
      (∀ q, t.isConfigured q = (s.isConfigured q || q == s.xPin)) ∧
      (s.xRetries.toNat = 0 → t.levels = s.levels ∧ t.timer = s.timer) ∧
      (s.xRetries.toNat ≠ 0 → t.level s.xPin = .low ∧ t.timer = 0) ∧
      (∀ q, q ≠ s.xPin → t.level q = s.level q) ∧
      t.answers.script = s.answers.script.drop (s.acqOps + 50 * s.xRetries.toNat) ∧
      heldOfTimes t.times = heldOfTimes s.times ++ heldOfTrace (s.framesEvents s.xRetries.toNat) ∧ RunFrame s t := by
  obtain ⟨a, ha, htr, hg, hc, han, hrest⟩ := doAcq_ok (h.mono (Nat.le_add_right ..))
  have hx : a.xPin = s.xPin ∧ a.xRetries = s.xRetries ∧ a.xLat = s.xLat ∧ a.xGap = s.xGap ∧ a.frame = s.frame ∧
      a.bitTiming = s.bitTiming ∧ a.levels = s.levels ∧ a.err = s.err ∧
      a.times = s.times ++ [.setup s.nextSetup] ∧ a.timer = s.timer := by
    rw [hrest]; simp
  obtain ⟨hp, hn, hl, hgp, hf, hb, hlev, herr, htim, htimer⟩ := hx
  obtain ⟨u, hu, hsent, hau, h0, h1⟩ := sendFrames_ok a.xRetries.toNat (hn ▸ h.drop han)
  have hlv : ∀ q, a.level q = s.level q := fun q => by simp only [State.level, hlev]
  refine ⟨u.finish, by simp [doTransmit, ha, hu], ?_, rfl, rfl, ?_, rfl, ?_, ?_, ?_, ?_, ?_, ?_, ?_, ?_⟩
  · rw [State.finish_trace, hsent.trace, htr, State.runEvents, hn,
      framesEvents_congr _ hp hl hgp hf hb, List.append_assoc]
  · rw [State.finish_err, ← herr]; exact hsent.keeps.2.2.2.2.2.2.2.2.2.1
  · rw [State.finish_gpioInit, ← hg]; exact hsent.keeps.2.2.2.2.2.2.2.2.2.2.1
  · intro q
    rw [State.finish_isConfigured, ← hc q]
    simp only [State.isConfigured, hsent.keeps.2.2.2.2.2.2.2.2.2.2.2.1]
  · intro hz
    rw [State.finish_levels, State.finish_timer, h0 (by rw [hn]; exact hz)]
    exact ⟨hlev, htimer⟩
  · intro hz
    rw [← hn] at hz
    rw [← hp, State.finish_level, State.finish_timer]
    exact h1 hz
  · intro q hq
    rw [State.finish_level, hsent.others q (by rw [hp]; exact hq), hlv q]
  · rw [State.finish_answers, hau, han, List.drop_drop, hn]
  · rw [State.finish_times, hsent.times, htim, heldOfTimes_append, hn, framesEvents_congr _ hp hl hgp hf hb]
    simp [heldOfTimes]
  · rw [RunFrame, hsent.rest, hrest]
    ext1 <;> simp

/-! A pin operation fails. -/

/-- A stretch of pulses ended at a failing Set: the events `l` were sent, the line is UNKNOWN, the failure entry was taken
(R193, R197). -/
structure SetFailed (s t : State) (l : List Event) : Prop where
  trace : t.trace = s.trace ++ l
  level : t.level s.xPin = .unknown
  others : ∀ q, q ≠ s.xPin → t.level q = s.level q
  times : heldOfTimes t.times = heldOfTimes s.times ++ heldOfTrace l
  rest : t = { s with
    err := .pinWrite, busy := false, done := false
    seq := { phase := .idle, rep := 0, bit := 0 }, timer := 0
    levels := t.levels, trace := t.trace, times := t.times, answers := t.answers, eps := t.eps }

theorem setFail_failed {p : Pin} {s : State} (hp : p = s.xPin) : SetFailed s (s.setFail p) [] := by
  refine ⟨by simp, by rw [← hp]; simp, fun q hq => setFail_level_other s (hp ▸ hq), by simp [heldOfTrace], ?_⟩
  ext1 <;> simp

/-- What was sent before the failing stretch. -/
theorem Sent.andFails {s t u : State} {a b : List Event} (h : Sent s t a) (k : SetFailed t u b) :
    SetFailed s u (a ++ b) := by
  have hx := h.keeps.1
  refine ⟨by rw [k.trace, h.trace, List.append_assoc], by rw [← hx]; exact k.level, ?_, ?_, ?_⟩
  · intro q hq
    rw [k.others q (by rw [hx]; exact hq), h.others q hq]
  · rw [k.times, h.times, heldOfTrace_append, List.append_assoc]
  · rw [k.rest, h.rest]

/-- The events `l` are the ones before the k-th pin operation of `es`. -/
def Before (l es : List Event) (k : Nat) : Prop :=
  ∃ e, l ++ [e] <+: es ∧ e.isPinOp = true ∧ (l.filter Event.isPinOp).length = k

theorem Before.append {l es : List Event} {k : Nat} (h : Before l es k) (fs : List Event) : Before l (es ++ fs) k := by
  obtain ⟨e, hp, he, hl⟩ := h
  exact ⟨e, hp.trans (List.prefix_append es fs), he, hl⟩

theorem Before.shift {l es : List Event} {k j : Nat} (h : Before l es k) (fs : List Event)
    (hj : (fs.filter Event.isPinOp).length = j) : Before (fs ++ l) (fs ++ es) (j + k) := by
  obtain ⟨e, hp, he, hl⟩ := h
  exact ⟨e, by rw [List.append_assoc]; exact (List.prefix_append_right_inj fs).mpr hp, he, by simp [hj, hl]⟩

/-- A symbol whose first failing Set is the k-th (R124, R125, R193). -/
theorem doSymbol_fail (b : Bool) {s : State} {k : Nat} (hk : k < 2) (h : FailsAfter k s) :
    ∃ t l, doSymbol b s = .stopped t ∧ SetFailed s t l ∧ Before l (s.symbolEvents b) k := by
  match k, hk with
  | 0, _ =>
    refine ⟨s.setFail s.xPin, [], by simp [doSymbol, doSet_fail h.answer], setFail_failed rfl, ?_⟩
    exact ⟨.set s.xPin .high, by simp [State.symbolEvents], rfl, rfl⟩
  | 1, _ =>
    have h2 : (highDone b s).answer = .fail :=
      (FailsAfter.drop (j := 1) (k := 0) h (by rw [highDone_script, List.drop_one])).answer
    have hs := highDone_sent b s
    refine ⟨(highDone b s).setFail s.xPin, _, ?_, hs.andFails (setFail_failed hs.keeps.1.symm), ?_⟩
    · rw [doSymbol_high b h.answersOk.head, doSet_fail h2, Res.andThen_stopped]
    · exact ⟨.set s.xPin .low, by simp [State.symbolEvents], rfl, rfl⟩

theorem symbolEvents_pinOps (s : State) (b : Bool) : ((s.symbolEvents b).filter Event.isPinOp).length = 2 := rfl

/-- The bits of a frame whose first failing Set is the k-th. -/
theorem sendBits_fail (bits : List Bool) {s : State} {k : Nat} (hk : k < 2 * bits.length) (h : FailsAfter k s) :
    ∃ t l, sendBits bits s = .stopped t ∧ SetFailed s t l ∧ Before l (bits.flatMap s.symbolEvents) k := by
  induction bits generalizing s k with
  | nil => simp at hk
  | cons b bits ih =>
    rw [List.flatMap_cons]
    by_cases h2 : k < 2
    · obtain ⟨t, l, ht, hf, hb⟩ := doSymbol_fail b h2 h
      exact ⟨t, l, by simp [sendBits, ht], hf, hb.append _⟩
    · obtain ⟨j, rfl⟩ := Nat.exists_eq_add_of_le (Nat.not_lt.mp h2)
      have hok := doSymbol_ok b (h.answersOk.mono (Nat.le_add_right 2 j))
      have hs := symbolDone_sent b s
      obtain ⟨t, l, ht, hf, hb⟩ := ih (k := j) (by simp at hk; omega) (h.drop (symbolDone_answers b s))
      refine ⟨t, s.symbolEvents b ++ l, by simp [sendBits, hok, ht], hs.andFails hf, ?_⟩
      rw [funext hs.symbolEvents] at hb
      exact hb.shift _ (symbolEvents_pinOps s b)

/-- One repetition whose first failing Set is the k-th. -/
theorem sendFrame_fail {s : State} {k : Nat} (hk : k < 50) (h : FailsAfter k s) :
    ∃ t l, sendFrame s = .stopped t ∧ SetFailed s t l ∧ Before l s.frameEvents k := by
  obtain ⟨t, l, ht, hf, hb⟩ := sendBits_fail (frameBits s.frame) (by simpa using hk) h
  exact ⟨t, l, by simp [sendFrame, ht], hf, hb.append _⟩

theorem flatMap_pinOps (s : State) (bits : List Bool) :
    ((bits.flatMap s.symbolEvents).filter Event.isPinOp).length = 2 * bits.length := by
  induction bits with
  | nil => rfl
  | cons b bits ih =>
    rw [List.flatMap_cons, List.filter_append, List.length_append, ih, symbolEvents_pinOps]
    simp; omega

theorem frameEvents_pinOps (s : State) : (s.frameEvents.filter Event.isPinOp).length = 50 := by
  rw [State.frameEvents, List.filter_append, List.length_append, flatMap_pinOps]
  simp [Event.isPinOp]

/-- n repetitions whose first failing Set is the k-th. -/
theorem sendFrames_fail (n : Nat) {s : State} {k : Nat} (hk : k < 50 * n) (h : FailsAfter k s) :
    ∃ t l, sendFrames n s = .stopped t ∧ SetFailed s t l ∧ Before l (s.framesEvents n) k := by
  induction n generalizing s k with
  | zero => simp at hk
  | succ n ih =>
    rw [framesEvents_succ]
    by_cases h2 : k < 50
    · obtain ⟨t, l, ht, hf, hb⟩ := sendFrame_fail h2 h
      exact ⟨t, l, by simp [sendFrames, ht], hf, hb.append _⟩
    · obtain ⟨j, rfl⟩ := Nat.exists_eq_add_of_le (Nat.not_lt.mp h2)
      obtain ⟨u, hu, hs, hau, -⟩ := sendFrame_ok (h.answersOk.mono (Nat.le_add_right 50 j))
      obtain ⟨t, l, ht, hf, hb⟩ := ih (k := j) (by omega) (h.drop hau)
      refine ⟨t, s.frameEvents ++ l, by simp [sendFrames, hu, ht], hs.andFails hf, ?_⟩
      rw [hs.framesEvents n] at hb
      exact hb.shift _ (frameEvents_pinOps s)

/-- The acquisition whose first failing operation is the k-th (R153, R192). -/
theorem doAcq_fail {s : State} {k : Nat} (hk : k < s.acqOps) (h : FailsAfter k s) :
    ∃ t, doAcq s = .stopped t ∧ t.trace = s.trace ++ s.acqEvents.take k ∧ t.gpioInit = (s.gpioInit || k == 1) ∧
      t = { s with
        err := .pinInit, busy := false, done := false
        seq := { phase := .idle, rep := 0, bit := 0 }, timer := 0
        gpioInit := t.gpioInit, trace := t.trace, times := s.times ++ [.setup s.nextSetup]
        setups := s.setups.tail, answers := t.answers } := by
  cases hg : s.gpioInit
  · cases hc : s.isConfigured s.xPin
    · simp only [State.acqOps, State.acqEvents, hg, hc, Bool.not_false, Bool.toNat_true] at hk ⊢
      match k, hk with
      | 0, _ =>
        have hi := drvInitIfNeeded_fail (s := s.recordSetup) (by simpa using hg) (by simpa using h.answer)
        refine ⟨s.recordSetup.acqFail, by simp [doAcq, hi], by simp, by simp [hg], ?_⟩
        ext1 <;> simp
      | 1, _ =>
        have hi := drvInitIfNeeded_ok (s := s.recordSetup) (by simpa using hg) (by simpa using h.answersOk.head)
        have h2 : s.recordSetup.initOk.answer = .fail :=
          (FailsAfter.drop (j := 1) (k := 0) h (by simp)).answer
        refine ⟨s.recordSetup.initOk.acqFail, ?_, by simp, by simp, ?_⟩
        · rw [doAcq_line hi (by simp), cfgOutIfNeeded_fail (by simpa using hc) h2]
        · ext1 <;> simp
    · simp only [State.acqOps, State.acqEvents, hg, hc, Bool.not_false, Bool.not_true, Bool.toNat_true,
        Bool.toNat_false] at hk ⊢
      obtain rfl : k = 0 := by omega
      have hi := drvInitIfNeeded_fail (s := s.recordSetup) (by simpa using hg) (by simpa using h.answer)
      refine ⟨s.recordSetup.acqFail, by simp [doAcq, hi], by simp, by simp [hg], ?_⟩
      ext1 <;> simp
  · cases hc : s.isConfigured s.xPin
    · simp only [State.acqOps, State.acqEvents, hg, hc, Bool.not_false, Bool.not_true, Bool.toNat_true,
        Bool.toNat_false] at hk ⊢
      obtain rfl : k = 0 := by omega
      have hi := drvInitIfNeeded_true (s := s.recordSetup) (by simpa using hg)
      refine ⟨s.recordSetup.acqFail, ?_, by simp, by simp [hg], ?_⟩
      · rw [doAcq_line hi (by simp), cfgOutIfNeeded_fail (by simpa using hc) (by simpa using h.answer)]
      · ext1 <;> simp
    · simp [State.acqOps, hg, hc] at hk

theorem acqEvents_length (s : State) : s.acqEvents.length = s.acqOps := by
  unfold State.acqEvents State.acqOps
  cases s.gpioInit <;> cases s.isConfigured s.xPin <;> rfl

theorem acqEvents_isPinOp {s : State} {e : Event} (h : e ∈ s.acqEvents) : e.isPinOp = true := by
  unfold State.acqEvents at h
  cases s.gpioInit <;> cases s.isConfigured s.xPin <;> simp at h <;> aesop

theorem acqEvents_pinOps (s : State) (k : Nat) (h : k ≤ s.acqOps) :
    ((s.acqEvents.take k).filter Event.isPinOp).length = k := by
  rw [List.filter_eq_self.mpr fun e he => acqEvents_isPinOp (List.mem_of_mem_take he), List.length_take,
    acqEvents_length]
  exact Nat.min_eq_left h

/-- A transmission whose first failing pin operation is the k-th (R158, R196, R197). -/
theorem doTransmit_fail {s : State} {k : Nat} (hk : k < s.acqOps + 50 * s.xRetries.toNat) (h : FailsAfter k s) :
    ∃ t l, doTransmit s = .stopped t ∧ t.trace = s.trace ++ l ∧ Before l s.runEvents k ∧
      t.err = (if k < s.acqOps then .pinInit else .pinWrite) ∧
      t.busy = false ∧ t.done = false ∧ t.seq = { phase := .idle, rep := 0, bit := 0 } ∧ t.timer = 0 ∧
      (k < s.acqOps → t.levels = s.levels) ∧ (s.acqOps ≤ k → t.level s.xPin = .unknown) ∧
      (∀ q, q ≠ s.xPin → t.level q = s.level q) ∧ RunFrame s t := by
  by_cases hka : k < s.acqOps
  · obtain ⟨t, ht, htr, -, hrest⟩ := doAcq_fail hka h
    refine ⟨t, s.acqEvents.take k, by simp [doTransmit, ht], htr, ?_, ?_, ?_, ?_, ?_, ?_, ?_, ?_, ?_, ?_⟩
    · refine ⟨s.acqEvents[k]'(by rw [acqEvents_length]; exact hka), ?_, acqEvents_isPinOp (List.getElem_mem _),
        acqEvents_pinOps s k (Nat.le_of_lt hka)⟩
      rw [List.take_append_getElem]
      exact (List.take_prefix ..).trans (List.prefix_append ..)
    · rw [hrest]; simp [hka]
    · rw [hrest]
    · rw [hrest]
    · rw [hrest]
    · rw [hrest]
    · intro _; rw [hrest]
    · intro hc; omega
    · intro q _
      have : t.levels = s.levels := by rw [hrest]
      simp only [State.level, this]
    · rw [RunFrame, hrest]
  · obtain ⟨j, rfl⟩ := Nat.exists_eq_add_of_le (Nat.not_lt.mp hka)
    obtain ⟨a, ha, htr, -, -, han, hrest⟩ := doAcq_ok (h.answersOk.mono (Nat.le_add_right s.acqOps j))
    have hx : a.xPin = s.xPin ∧ a.xRetries = s.xRetries ∧ a.xLat = s.xLat ∧ a.xGap = s.xGap ∧ a.frame = s.frame ∧
        a.bitTiming = s.bitTiming ∧ a.levels = s.levels := by
      rw [hrest]; simp
    obtain ⟨hp, hn, hl, hgp, hf, hb, hlev⟩ := hx
    obtain ⟨t, l, ht, hfail, hbef⟩ := sendFrames_fail a.xRetries.toNat (k := j) (by rw [hn]; omega) (h.drop han)
    rw [hn, framesEvents_congr _ hp hl hgp hf hb] at hbef
    have hr := hfail.rest
    refine ⟨t, s.acqEvents ++ l, by simp [doTransmit, ha, ht], by rw [hfail.trace, htr, List.append_assoc],
      hbef.shift _ ?_, ?_, ?_, ?_, ?_, ?_, ?_, ?_, ?_, ?_⟩
    · have := acqEvents_pinOps s s.acqOps (Nat.le_refl _)
      rwa [List.take_of_length_le (by rw [acqEvents_length])] at this
    · rw [hr]; simp
    · rw [hr]
    · rw [hr]
    · rw [hr]
    · rw [hr]
    · intro hc; omega
    · intro _; rw [← hp]; exact hfail.level
    · intro q hq
      rw [hfail.others q (by rw [hp]; exact hq)]
      simp only [State.level, hlev]
    · rw [RunFrame, hr, hrest]

end Sys2Proof.Machine
end

