-- ==== Sys2Proof/Laws/Frames.lean ====
section
/-! SUPPORT. What the sequencer's work leaves as it was, whatever the driver answers: one relation, kept by every driver
operation and hold, and so by a symbol, a repetition, the acquisition and a whole transmission. -/

namespace Sys2Proof.Machine

/-- The sequencer has worked between s and t, well or not: nothing outside its frame has changed, the trace has only
grown, no other line and no other pin was touched, the acquisition state has only grown, and one interval was recorded
for each hold. -/
structure Ran (s t : State) : Prop where
  frame : RunFrame s t
  trace : s.trace <+: t.trace
  others : ∀ q, q ≠ s.xPin → t.level q = s.level q
  otherPins : ∀ q, q ≠ s.xPin → t.isConfigured q = s.isConfigured q
  gpio : s.gpioInit = true → t.gpioInit = true
  pins : ∀ q, s.isConfigured q = true → t.isConfigured q = true
  times : heldOfTimes s.times = heldOfTrace s.trace → heldOfTimes t.times = heldOfTrace t.trace

theorem RunFrame.keeps {s t : State} (h : RunFrame s t) :
    t.xPin = s.xPin ∧ t.xRetries = s.xRetries ∧ t.xGap = s.xGap ∧ t.xLat = s.xLat ∧ t.frame = s.frame ∧
      t.bitTiming = s.bitTiming ∧ t.faulted = s.faulted ∧ t.prog = s.prog ∧ t.cfgPin = s.cfgPin ∧
      t.cfgPinWritten = s.cfgPinWritten := by
  rw [h]; simp

theorem Ran.refl (s : State) : Ran s s :=
  ⟨rfl, List.prefix_refl _, fun _ _ => rfl, fun _ _ => rfl, id, fun _ => id, id⟩

theorem Ran.trans {s t u : State} (h : Ran s t) (k : Ran t u) : Ran s u := by
  have hx := h.frame.keeps.1
  refine ⟨?_, h.trace.trans k.trace, ?_, ?_, k.gpio ∘ h.gpio, fun q hq => k.pins q (h.pins q hq), k.times ∘ h.times⟩
  · have h1 := h.frame
    have h2 := k.frame
    rw [RunFrame] at h1 h2 ⊢
    rw [h2, h1]
  · intro q hq
    rw [k.others q (by rw [hx]; exact hq), h.others q hq]
  · intro q hq
    rw [k.otherPins q (by rw [hx]; exact hq), h.otherPins q hq]

/-- Every state an operation can end in satisfies P, and it is never refused. -/
def Res.All (P : State → Prop) : Res → Prop
  | .ok t => P t
  | .stopped t => P t
  | .refused _ => False

theorem Res.All.ran {s : State} {r : Res} {f : State → Res} (h : r.All (Ran s)) (hf : ∀ t, (f t).All (Ran t)) :
    (r.andThen f).All (Ran s) := by
  cases r with
  | ok t =>
    have := hf t
    simp only [Res.andThen_ok]
    cases hr : f t <;> simp only [hr, Res.All] at this ⊢
    · exact Ran.trans h this
    · exact Ran.trans h this
  | stopped t => exact h
  | refused w => exact h.elim

theorem ran_hold (d : Dur) (s : State) : Ran s (doHold d s) := by
  refine ⟨?_, by simp, fun _ _ => by simp, fun _ _ => by simp, by simp, by simp, ?_⟩
  · rw [RunFrame]; ext1 <;> simp
  · intro h
    simp [heldOfTimes_append, heldOfTrace_append, h]

theorem ran_recordSetup (s : State) : Ran s s.recordSetup := by
  refine ⟨?_, by simp, fun _ _ => by simp, fun _ _ => by simp, by simp, by simp, ?_⟩
  · rw [RunFrame]; ext1 <;> simp
  · intro h
    simp [heldOfTimes_append, h]

theorem ran_finish (s : State) : Ran s s.finish := by
  refine ⟨?_, by simp, fun _ _ => by simp, fun _ _ => by simp, by simp, by simp, by simp⟩
  rw [RunFrame]; ext1 <;> simp

theorem ran_set {p : Pin} (l : Level) {s : State} (hp : p = s.xPin) : (doSet p l s).All (Ran s) := by
  rcases doSet_cases s p l with ⟨-, h⟩ | ⟨-, h⟩ <;> rw [h]
  · refine ⟨?_, by simp, fun q hq => setOk_level_other s l (hp ▸ hq), fun _ _ => by simp, by simp, by simp, ?_⟩
    · rw [RunFrame]; ext1 <;> simp
    · intro h; simp [heldOfTrace_append, h]
  · refine ⟨?_, by simp, fun q hq => setFail_level_other s (hp ▸ hq), fun _ _ => by simp, by simp, by simp, by simp⟩
    rw [RunFrame]; ext1 <;> simp

theorem ran_acqFail (s : State) : Ran s s.acqFail := by
  refine ⟨?_, by simp, fun _ _ => by simp, fun _ _ => by simp, by simp, by simp, by simp⟩
  rw [RunFrame]; ext1 <;> simp

theorem ran_drvInit (s : State) : (drvInitIfNeeded s).All (Ran s) := by
  rcases drvInitIfNeeded_cases s with ⟨-, h⟩ | ⟨-, -, h⟩ | ⟨-, -, h⟩ <;> rw [h]
  · exact Ran.refl s
  · refine ⟨?_, by simp, fun _ _ => by simp, fun _ _ => by simp, by simp, by simp, ?_⟩
    · rw [RunFrame]; ext1 <;> simp
    · intro h; simp [heldOfTrace_append, h]
  · exact ran_acqFail s

theorem ran_cfgOut {p : Pin} {s : State} (hp : p = s.xPin) : (cfgOutIfNeeded p s).All (Ran s) := by
  rcases cfgOutIfNeeded_cases s p with ⟨-, h⟩ | ⟨-, -, h⟩ | ⟨-, -, h⟩ <;> rw [h]
  · exact Ran.refl s
  · refine ⟨?_, by simp, fun _ _ => by simp, ?_, by simp, ?_, ?_⟩
    · rw [RunFrame]; ext1 <;> simp
    · intro q hq; rw [cfgOk_isConfigured, hp]; simp [hq]
    · intro q hq; rw [cfgOk_isConfigured, hq]; rfl
    · intro h; simp [heldOfTrace_append, h]
  · exact ran_acqFail s

/-- The acquisition (R153). -/
theorem ran_acq (s : State) : (doAcq s).All (Ran s) := by
  have h : ((drvInitIfNeeded s.recordSetup).andThen fun s1 => cfgOutIfNeeded s1.xPin s1).All (Ran s.recordSetup) :=
    (ran_drvInit _).ran fun _ => ran_cfgOut rfl
  have h0 := ran_recordSetup s
  unfold doAcq
  revert h
  cases (drvInitIfNeeded s.recordSetup).andThen fun s1 => cfgOutIfNeeded s1.xPin s1 <;> intro h
  · exact h0.trans h
  · exact h0.trans h
  · exact h

/-- A symbol (R124, R125). -/
theorem ran_symbol (b : Bool) (s : State) : (doSymbol b s).All (Ran s) := by
  refine (ran_set .high rfl).ran fun s1 => ?_
  have h1 := ran_hold (s1.heldHigh b) s1
  have h : ((doSet s1.xPin .low (doHold (s1.heldHigh b) s1)).andThen fun s2 => .ok (doHold (s2.heldLow b) s2)).All
      (Ran (doHold (s1.heldHigh b) s1)) :=
    (ran_set .low (by simp)).ran fun s2 => ran_hold _ s2
  revert h
  cases (doSet s1.xPin .low (doHold (s1.heldHigh b) s1)).andThen fun s2 => .ok (doHold (s2.heldLow b) s2) <;> intro h
  · exact h1.trans h
  · exact h1.trans h
  · exact h

theorem ran_bits (bits : List Bool) (s : State) : (sendBits bits s).All (Ran s) := by
  induction bits generalizing s with
  | nil => exact Ran.refl s
  | cons b bits ih => exact (ran_symbol b s).ran ih

/-- One repetition (R158, R159). -/
theorem ran_frame (s : State) : (sendFrame s).All (Ran s) :=
  (ran_bits _ s).ran fun s1 => ran_hold _ s1

theorem ran_frames (n : Nat) (s : State) : (sendFrames n s).All (Ran s) := by
  induction n generalizing s with
  | zero => exact Ran.refl s
  | succ n ih => exact (ran_frame s).ran ih

/-- A whole transmission, whatever the driver answers (R158). -/
theorem ran_transmit (s : State) : (doTransmit s).All (Ran s) :=
  (ran_acq s).ran fun _ => (ran_frames _ _).ran fun s2 => ran_finish s2

/-! How it ends: an operation that ran to its end left the flags and the position alone; one that stopped took the failure
entry. -/

/-- The failure entry was taken (R197). -/
def AtFailure (t : State) : Prop :=
  t.busy = false ∧ t.done = false ∧ (t.err = .pinInit ∨ t.err = .pinWrite) ∧
    t.seq = { phase := .idle, rep := 0, bit := 0 } ∧ t.timer = 0

/-- The flags and the position are those of s. -/
def SameFlags (s t : State) : Prop := t.busy = s.busy ∧ t.done = s.done ∧ t.err = s.err ∧ t.seq = s.seq

/-- An operation of the sequencer ends with the flags as they were, or at the failure entry. -/
def Res.Ends (s : State) : Res → Prop
  | .ok t => SameFlags s t
  | .stopped t => AtFailure t
  | .refused _ => False

theorem Res.Ends.andThen {s : State} {r : Res} {f : State → Res} (h : r.Ends s) (hf : ∀ t, (f t).Ends t) :
    (r.andThen f).Ends s := by
  cases r with
  | ok t =>
    have := hf t
    simp only [Res.andThen_ok]
    cases hr : f t <;> simp only [hr, Res.Ends] at this ⊢
    · obtain ⟨a, b, c, d⟩ := h
      obtain ⟨a', b', c', d'⟩ := this
      exact ⟨a'.trans a, b'.trans b, c'.trans c, d'.trans d⟩
    · exact this
  | stopped t => exact h
  | refused w => exact h.elim

theorem ends_set (p : Pin) (l : Level) (s : State) : (doSet p l s).Ends s := by
  rcases doSet_cases s p l with ⟨-, h⟩ | ⟨-, h⟩ <;> rw [h]
  · exact ⟨by simp, by simp, by simp, by simp⟩
  · exact ⟨by simp, by simp, by simp, by simp, by simp⟩

theorem ends_acq (s : State) : (doAcq s).Ends s := by
  have h : ((drvInitIfNeeded s.recordSetup).andThen fun s1 => cfgOutIfNeeded s1.xPin s1).Ends s.recordSetup := by
    refine Res.Ends.andThen ?_ fun s1 => ?_
    · rcases drvInitIfNeeded_cases s.recordSetup with ⟨-, h⟩ | ⟨-, -, h⟩ | ⟨-, -, h⟩ <;> rw [h]
      · exact ⟨rfl, rfl, rfl, rfl⟩
      · exact ⟨by simp, by simp, by simp, by simp⟩
      · exact ⟨by simp, by simp, by simp, by simp, by simp⟩
    · rcases cfgOutIfNeeded_cases s1 s1.xPin with ⟨-, h⟩ | ⟨-, -, h⟩ | ⟨-, -, h⟩ <;> rw [h]
      · exact ⟨rfl, rfl, rfl, rfl⟩
      · exact ⟨by simp, by simp, by simp, by simp⟩
      · exact ⟨by simp, by simp, by simp, by simp, by simp⟩
  exact h

theorem ends_symbol (b : Bool) (s : State) : (doSymbol b s).Ends s := by
  refine (ends_set _ _ _).andThen fun s1 => ?_
  refine Res.Ends.andThen (s := s1) ?_ fun s2 => ⟨by simp, by simp, by simp, by simp⟩
  have h := ends_set s1.xPin .low (doHold (s1.heldHigh b) s1)
  revert h
  cases doSet s1.xPin .low (doHold (s1.heldHigh b) s1) <;> intro h
  · simpa [Res.Ends, SameFlags] using h
  · exact h
  · exact h

theorem ends_bits (bits : List Bool) (s : State) : (sendBits bits s).Ends s := by
  induction bits generalizing s with
  | nil => exact ⟨rfl, rfl, rfl, rfl⟩
  | cons b bits ih => exact (ends_symbol b s).andThen ih

theorem ends_frame (s : State) : (sendFrame s).Ends s :=
  (ends_bits _ s).andThen fun _ => ⟨by simp [doGap], by simp [doGap], by simp [doGap], by simp [doGap]⟩

theorem ends_frames (n : Nat) (s : State) : (sendFrames n s).Ends s := by
  induction n generalizing s with
  | zero => exact ⟨rfl, rfl, rfl, rfl⟩
  | succ n ih => exact (ends_frame s).andThen ih

/-- A whole transmission completes, or takes the failure entry (R158, R197). -/
theorem transmit_ends (s : State) :
    (∃ t, doTransmit s = .ok t ∧ t.busy = false ∧ t.done = true ∧ t.err = s.err ∧
        t.seq = { phase := .idle, rep := 0, bit := 0 }) ∨
      (∃ t, doTransmit s = .stopped t ∧ AtFailure t) := by
  have h : ((doAcq s).andThen fun s1 => sendFrames s1.xRetries.toNat s1).Ends s :=
    (ends_acq s).andThen fun s1 => ends_frames _ s1
  have he : doTransmit s = ((doAcq s).andThen fun s1 => sendFrames s1.xRetries.toNat s1).andThen fun s2 =>
      .ok s2.finish := by
    rw [Res.andThen_assoc]; rfl
  rw [he]
  revert h
  cases (doAcq s).andThen fun s1 => sendFrames s1.xRetries.toNat s1 with
  | ok t => intro h; exact .inl ⟨t.finish, rfl, rfl, rfl, h.2.2.1, rfl⟩
  | stopped t => intro h; exact .inr ⟨t, rfl, h⟩
  | refused r => intro h; exact h.elim

end Sys2Proof.Machine
end

