-- ==== Sys2Proof/Laws/PerInstr.lean ====
section
/-! SUPPORT. A statement made per instruction, family `Layout`: the encoding of a well-formed instruction carries the
bits that its row of spec/opcode_table.json requires (match and mask), or its row's name where the row has no bits. -/

namespace Sys2Proof.Laws.Layout

/-- The encoding of the instruction, if it is well formed, meets its own row of the opcode table (R71, R81). -/
def Statement (i : Instr) : Prop := i.wellFormed = true → rowMatches i (encode i) = true

/-- A bit-wise `and` of a frame with the table's mask, taken on the bit vectors. -/
theorem matchesRow_frame (f : Frame) (mask pat : BitVec 25) :
    matchesRow f.toNat mask.toNat pat.toNat = (f &&& mask == pat) := by
  simp only [matchesRow, ← BitVec.toNat_and]
  by_cases h : f &&& mask = pat
  · simp [h]
  · have : (f &&& mask).toNat ≠ pat.toNat := fun e => h (BitVec.eq_of_toNat_eq e)
    rw [beq_eq_false_iff_ne.mpr this, beq_eq_false_iff_ne.mpr h]

/-- The fixed bits of a frame are its preamble, its value bit and its stop bit. -/
theorem frameWord_mask (g : BitVec 10) (v : BitVec 1) (a : BitVec 3) :
    frameWord g v a &&& 0x1FF8011#25 = frameWord 0 v 0 := by
  apply BitVec.eq_of_getLsbD_eq
  intro i hi
  interval_cases i <;>
    simp only [frameWord, BitVec.getLsbD_append, BitVec.getLsbD_and] <;> simp

theorem on (g : BitVec 10) (a : BitVec 3) : Statement (.on g a) := by
  intro _
  show matchesRow _ _ _ = true
  rw [show (0x1FF8011 : Nat) = (0x1FF8011#25).toNat by rfl, show (0x0698001 : Nat) = (0x0698001#25).toNat by rfl,
    matchesRow_frame, frameWord_mask]
  decide

theorem off (g : BitVec 10) (a : BitVec 3) : Statement (.off g a) := by
  intro _
  show matchesRow _ _ _ = true
  rw [show (0x1FF8011 : Nat) = (0x1FF8011#25).toNat by rfl, show (0x0698011 : Nat) = (0x0698011#25).toNat by rfl,
    matchesRow_frame, frameWord_mask]
  decide

theorem bit0 : Statement .bit0 := fun _ => by decide

theorem bit1 : Statement .bit1 := fun _ => by decide

theorem gap : Statement .gap := fun _ => by decide

theorem sethi (p : Pin) : Statement (.sethi p) := fun _ => by decide +revert

theorem setlo (p : Pin) : Statement (.setlo p) := fun _ => by decide +revert

theorem hold (d : Dur) : Statement (.hold d) := fun _ => rfl

theorem wrcfg (r : RegNum) (value : Nat) : Statement (.wrcfg r value) := fun _ => by
  have h : ∀ r : RegNum, matchesRow (writePattern r).toNat 0x10 0x10 = true := by decide
  exact h r

theorem rdreg (r : RegNum) : Statement (.rdreg r) := fun _ => by
  have h : ∀ r : RegNum, matchesRow (readPattern r).toNat 0x10 0x00 = true := by decide
  exact h r

theorem start : Statement .start := fun _ => by decide

theorem acq : Statement .acq := fun _ => by decide

theorem drvinit : Statement .drvinit := fun _ => by decide

theorem cfgout (p : Pin) : Statement (.cfgout p) := fun _ => rfl

theorem transmit : Statement .transmit := fun _ => by decide

theorem send (g a v : Nat) : Statement (.send g a v) := fun _ => rfl

theorem pause (d : Nat) : Statement (.pause d) := fun _ => rfl

theorem batch (groups addrs : List Nat) (v : Nat) : Statement (.batch groups addrs v) := fun _ => rfl

theorem all (g v : Nat) : Statement (.all g v) := fun _ => rfl

end Sys2Proof.Laws.Layout
end

