-- ==== Sys2Proof/Laws/Steps.lean ====
section
/-! SUPPORT. What a step of the machine can do, said once: which agent moved and which instruction it ran (spec/42_frame_repeater.md
R161, log 6), what the host macros reduce to, and how a run of several steps goes on. -/

namespace Sys2Proof.Machine

/-- A step of the host's program: nothing was left, or the next item was an instruction and was run. -/
theorem programStep_cases {s t : State} (h : programStep s = .next t) :
    (s.prog = [] ∧ t = s) ∨
      ∃ item rest i, s.prog = item :: rest ∧ decode item = .instr i ∧ exec i { s with prog := rest } = .next t := by
  unfold programStep at h
  split at h
  · rename_i hp
    exact .inl ⟨hp, by injection h with h; exact h.symm⟩
  · rename_i item rest hp
    split at h
    · rename_i i hd
      exact .inr ⟨item, rest, i, hp, hd, h⟩
    · cases h

/-- A step of the sequencer: it is idle, or it ran the instruction of its phase and moved on (R161). -/
theorem sequencerStep_cases {s t : State} (h : sequencerStep s = .next t) :
    (s.seq.phase = .idle ∧ t = s) ∨
      ∃ i u, s.seqInstr = some i ∧ exec i s = .next u ∧ t = u.advanceUnlessRaised := by
  unfold sequencerStep at h
  split at h
  · rename_i hi
    refine .inl ⟨?_, by injection h with h; exact h.symm⟩
    unfold State.seqInstr at hi
    split at hi <;> first | assumption | cases hi
  · rename_i i hi
    split at h
    · rename_i u hu
      exact .inr ⟨i, u, hi, hu, by injection h with h; exact h.symm⟩
    · cases h
    · cases h

/-- A step of the machine: no hazard happened before, and one of the two agents moved. -/
theorem step_cases {s t : State} (h : step s = .next t) :
    s.faulted = false ∧
      ((s.seq.phase = .idle ∧ programStep s = .next t) ∨
        (s.seq.phase ≠ .idle ∧ s.hostReady = true ∧ s.turn = .host ∧ programStep s.popTurn = .next t) ∨
        (s.seq.phase ≠ .idle ∧ s.hostReady = true ∧ s.turn = .sequencer ∧ sequencerStep s.popTurn = .next t) ∨
        (s.seq.phase ≠ .idle ∧ s.hostReady = false ∧ sequencerStep s = .next t)) := by
  unfold step machineStep at h
  split at h
  · cases h
  · rename_i hf
    refine ⟨by simpa using hf, ?_⟩
    split at h
    · rename_i hp
      exact .inl ⟨hp, h⟩
    · rename_i hp
      split at h
      · rename_i hr
        split at h
        · rename_i ht
          exact .inr (.inl ⟨hp, hr, ht, h⟩)
        · rename_i ht
          exact .inr (.inr (.inl ⟨hp, hr, ht, h⟩))
      · rename_i hr
        exact .inr (.inr (.inr ⟨hp, by simpa using hr, h⟩))

/-- With nothing to come from outside, a step is the sequencer's. -/
theorem step_quiet {s : State} (h : s.Quiet) (hp : s.seq.phase ≠ .idle) : step s = sequencerStep s := by
  simp [step, machineStep, h.1, hp, State.hostReady, h.2]

/-- `SEND` from a ready block: the run of its START, waited for (R164). -/
theorem doSend_ready {s : State} (h : s.Ready) (g a v : Nat) : doSend g a v s = waitRun (s.sendStart g a v) := by
  have hw : (s.writeCommand g a v).Ready := h
  simp [doSend, doStart_ready hw, State.sendStart]

/-- `SEND` while BUSY: the command is written, then the START sets FAULTED (R226, log 21). -/
theorem doSend_busy {s : State} (h : s.busy = true) (g a v : Nat) :
    doSend g a v s = .stopped (s.writeCommand g a v).setFaulted := by
  have hw : (s.writeCommand g a v).busy = true := h
  simp [doSend, doStart_busy hw]

/-- `SEND` with CFG_PIN unwritten is refused with its START (R35, log 13). -/
theorem doSend_unwritten {s : State} (hb : s.busy = false) (hw : s.cfgPinWritten = false) (g a v : Nat) :
    doSend g a v s = .refused .startPinUnwritten := by
  have hb' : (s.writeCommand g a v).busy = false := hb
  have hw' : (s.writeCommand g a v).cfgPinWritten = false := hw
  simp [doSend, doStart_unwritten hb' hw']

/-- How the run of a SEND ends: it completed, or it failed and the host's program stopped (R164). -/
theorem waitRun_ends (s : State) :
    (∃ t, waitRun s = .ok t ∧ doTransmit s = .ok t ∧ t.busy = false ∧ t.done = true ∧ t.err = s.err) ∨
      (∃ t, waitRun s = .stopped t.stopProgram ∧ doTransmit s = .stopped t ∧ AtFailure t) := by
  rcases transmit_ends s with ⟨t, ht, hb, hd, he, -⟩ | ⟨t, ht, hf⟩
  · exact .inl ⟨t, by simp [waitRun, ht], ht, hb, hd, he⟩
  · exact .inr ⟨t, by simp [waitRun, ht], ht, hf⟩

/-- A `SEND` from a ready block: it ran to its end with ERR = 0 and the block is ready again, or it stopped with a failure;
its outcome says which. -/
theorem doSend_next {s t : State} (h : s.Ready) {g a v : Nat} (hn : (doSend g a v s).outcome = .next t) :
    (doSend g a v s = .ok t ∧ t.err = .none ∧ t.Ready) ∨ (doSend g a v s = .stopped t ∧ t.err ≠ .none) := by
  have hr := ran_transmit (s.sendStart g a v)
  rw [doSend_ready h] at hn ⊢
  rcases waitRun_ends (s.sendStart g a v) with ⟨u, hu, hd, hb, -, he⟩ | ⟨u, hu, -, hf⟩ <;> rw [hu] at hn
  · obtain rfl : u = t := by injection hn
    rw [hd] at hr
    have hw : u.cfgPinWritten = (s.sendStart g a v).cfgPinWritten := by
      have := congrArg State.cfgPinWritten hr.frame
      exact this
    exact .inl ⟨hu, he, hb, hw.trans h.2⟩
  · obtain rfl : u.stopProgram = t := by injection hn
    exact .inr ⟨hu, by rcases hf.2.2.1 with h | h <;> simp [State.stopProgram, h]⟩

/-- One turn of the loop of BATCH with more pairs to come. -/
theorem sendPairs_cons (v g a : Nat) (q : Nat × Nat) (rest : List (Nat × Nat)) (s : State) :
    sendPairs v ((g, a) :: q :: rest) s =
      (doSend g a v s).andThen fun s1 => sendPairs v (q :: rest) (s1.recordPause Config.batchPause) := rfl

/-- A run of k + 1 steps is a step and a run of k steps. -/
theorem run_succ {s t : State} (k : Nat) (h : step s = .next t) :
    Host.Core.run Sys2Proof.core (k + 1) s = Host.Core.run Sys2Proof.core k t := by
  have hs : Sys2Proof.core.step s = .next t := h
  simp only [Host.Core.run]
  rw [hs]

/-- A run of j steps that reaches t goes on as a run from t. -/
theorem run_add {s t : State} {j : Nat} (k : Nat) (h : Host.Core.run Sys2Proof.core j s = .next t) :
    Host.Core.run Sys2Proof.core (j + k) s = Host.Core.run Sys2Proof.core k t := by
  induction j generalizing s with
  | zero =>
    simp only [Host.Core.run] at h
    injection h with h
    rw [h, Nat.zero_add]
  | succ j ih =>
    have hs : Sys2Proof.core.step s = step s := rfl
    cases hu : step s with
    | next u =>
      rw [Nat.add_right_comm, run_succ _ hu]
      rw [run_succ _ hu] at h
      exact ih h
    | fault r =>
      simp only [Host.Core.run] at h
      rw [hs, hu] at h
      cases h
    | refused r =>
      simp only [Host.Core.run] at h
      rw [hs, hu] at h
      cases h

end Sys2Proof.Machine
end

