-- ==== Sys2Proof/Tests/Slice0.lean ====
section
/-! SUPPORT. Tests: the WellFormed smoke test, decoding of words written out from spec/30_encoding.md, one small step per
instruction with the vectors of spec/95_test_vectors.md, and for every statement with hypotheses a named witness. -/

open Sys2Proof Sys2Proof.Machine

-- One test after another: each of them waits for the kernel's check of what stands before it.
set_option Elab.async false

namespace Sys2Proof.Tests

/-- The outcome is a next state, and the state passes the check. -/
def holds (o : Host.Outcome State Fault Refusal) (check : State → Bool) : Bool :=
  match o with
  | .next t => check t
  | .fault _ => false
  | .refused _ => false

/-- A check that passed was made on a next state. -/
theorem holds_next {o : Host.Outcome State Fault Refusal} {check : State → Bool} (h : holds o check = true) :
    ∃ t, o = .next t ∧ check t = true := by
  match o, h with
  | .next t, h => exact ⟨t, rfl, h⟩

/-- After reset, pin 17 and one repetition set, FRAME and the X_ copies as START samples them for `ON 1, 0`
(spec/95_test_vectors.md P1); every answer ok, every overhead 80 us. -/
def s0 : State :=
  { State.reset with
    cmdGroup := 1, cmdOn := 1, frame := 0x698021
    cfgPin := 17, cfgPinWritten := true, cfgRetries := 1
    xPin := 17, xRetries := 1, xGap := 20000, xLat := 80
    answers := { script := List.replicate 60 .ok, used := 0 }
    eps := { script := List.replicate 60 80, used := 0 }
    setups := { script := [0], used := 0 } }

/-- The same with the driver initialised and pin 17 configured (the end of P1). -/
def s1 : State := { s0 with gpioInit := true, configured := BitVec.twoPow 256 17 }

/-- The first k answers ok, then a failure. -/
def failing (k : Nat) (s : State) : State :=
  { s with answers := { script := List.replicate k .ok ++ [.fail], used := 0 } }

/-- A run in flight at the given position. -/
def inFlight (phase : Phase) (rep : Count) (bit : BitVec 5) : State :=
  { s1 with busy := true, seq := { phase := phase, rep := rep, bit := bit } }

/-! ## WellFormed (R33): a write of register 7 with bit 0 = 1 is START, not WRCFG -/

theorem test_wrcfg_start_ill_formed : (Instr.wrcfg 7 1).wellFormed = false := by decide
theorem test_wrcfg_start_wide_ill_formed : (Instr.wrcfg 7 0x80000001).wellFormed = false := by decide
theorem test_wrcfg_ctrl_even_well_formed : (Instr.wrcfg 7 2).wellFormed = true := by decide
theorem test_wrcfg_odd_well_formed : (Instr.wrcfg 3 17).wellFormed = true := by decide

/-! ## Decoding: every constructor from a word written out from its row of R81 (frames from T40) -/

theorem test_decode_on : decode (.frame25 0b0011010011_0000000001_0_011_1#25) = .instr (.on 1 3) := by decide
theorem test_decode_on_alternating : decode (.frame25 0b0011010011_0101010101_0_101_1#25) = .instr (.on 341 5) := by decide
theorem test_decode_off : decode (.frame25 0b0011010011_1000000000_1_111_1#25) = .instr (.off 512 7) := by decide
theorem test_decode_off_complement : decode (.frame25 0b0011010011_1010101010_1_010_1#25) = .instr (.off 682 2) := by decide
theorem test_decode_bad_preamble : decode (.frame25 0b0011010010_0000000001_0_011_1#25) = .rejected .badPreamble := by
  decide
theorem test_decode_bad_stop : decode (.frame25 0b0011010011_0000000001_0_011_0#25) = .rejected .badStop := by decide
theorem test_decode_bit0 : decode (.symbol 0b0#1) = .instr .bit0 := by decide
theorem test_decode_bit1 : decode (.symbol 0b1#1) = .instr .bit1 := by decide
theorem test_decode_sethi : decode (.level 0b1#1 17) = .instr (.sethi 17) := by decide
theorem test_decode_setlo : decode (.level 0b0#1 17) = .instr (.setlo 17) := by decide
theorem test_decode_wrcfg : decode (.hostreg 0b1_0101#5 20000) = .instr (.wrcfg 5 20000) := by decide
theorem test_decode_ctrl_even : decode (.hostreg 0b1_0111#5 2) = .instr (.wrcfg 7 2) := by decide
theorem test_decode_rdreg : decode (.hostreg 0b0_1001#5 0) = .instr (.rdreg 9) := by decide
theorem test_decode_start : decode (.hostreg 0b1_0111#5 1) = .instr .start := by decide
theorem test_decode_gap : decode (.named .gap []) = .instr .gap := by decide
theorem test_decode_hold : decode (.named .hold [[858]]) = .instr (.hold 858) := by decide
theorem test_decode_hold_wide : decode (.named .hold [[4294967296]]) = .rejected .holdTooWide := by decide
theorem test_decode_acq : decode (.named .acq []) = .instr .acq := by decide
theorem test_decode_drvinit : decode (.named .drvinit []) = .instr .drvinit := by decide
theorem test_decode_cfgout : decode (.named .cfgout [[4]]) = .instr (.cfgout 4) := by decide
theorem test_decode_cfgout_wide : decode (.named .cfgout [[256]]) = .rejected .pinTooWide := by decide
theorem test_decode_transmit : decode (.named .transmit []) = .instr .transmit := by decide
theorem test_decode_send : decode (.named .send [[1025], [8], [1]]) = .instr (.send 1025 8 1) := by decide
theorem test_decode_send_short : decode (.named .send [[1025], [8]]) = .rejected .badOperands := by decide
theorem test_decode_pause : decode (.named .pause [[200000]]) = .instr (.pause 200000) := by decide
theorem test_decode_batch : decode (.named .batch [[1, 2], [3], [1]]) = .instr (.batch [1, 2] [3] 1) := by decide
theorem test_decode_all : decode (.named .all [[1023], [0]]) = .instr (.all 1023 0) := by decide

/-! ## The integer view of frames (T40 rows 1, 3, 6, 10, 12, 13, 14) -/

theorem test_encode_fewest : encodeFrame 0 0 true = 0x698001#25 := by decide
theorem test_encode_v2 : encodeFrame 1 0 true = 0x698021#25 := by decide
theorem test_encode_broadcast : encodeFrame 1 6 true = 0x69802D#25 := by decide
theorem test_encode_v3 : encodeFrame 1023 6 false = 0x69FFFD#25 := by decide
theorem test_encode_most : encodeFrame 1023 7 false = 0x69FFFF#25 := by decide
theorem test_encode_wraps : encodeFrame 1025 8 true = 0x698021#25 := by decide
theorem test_encode_wraps_off : encodeFrame 1024 14 false = 0x69801D#25 := by decide
theorem test_frame_first_bits : (frameBits 0x698021).take 6 = [false, false, true, true, false, true] := by decide

/-! ## Words as the opcode table numbers them -/

theorem test_table_on : decodeTableWord 32 0x0698021 = some (.on 1 0) := by decide
theorem test_table_off : decodeTableWord 32 0x069FFFD = some (.off 1023 6) := by decide
theorem test_table_bit1 : decodeTableWord 8 1 = some .bit1 := by decide
theorem test_table_wrcfg : decodeTableWord 8 0x14 = some (.wrcfg 4 0) := by decide
theorem test_table_start : decodeTableWord 8 0x17 = some .start := by decide
theorem test_table_rdreg : decodeTableWord 8 0x08 = some (.rdreg 8) := by decide
theorem test_table_not_sent : decodeTableWord 32 0 = none := by decide

/-! ## One step per instruction (T30, T41, T42, T60) -/

/-- T41 row 1: bit 0 at C = 80. -/
theorem test_bit0 : holds (exec .bit0 s0)
    (fun t => t.trace == [.set 17 .high, .hold 858, .set 17 .low, .hold 170]) = true := by decide +kernel

/-- T41 row 5: bit 0 under the other assignment. -/
theorem test_bit0_swapped : holds (exec .bit0 { s0 with bitTiming := .swapped })
    (fun t => t.trace == [.set 17 .high, .hold 327, .set 17 .low, .hold 701]) = true := by decide +kernel

/-- T41 row 10: both phases saturated, both Sets still issued. -/
theorem test_bit1_saturated : holds (exec .bit1 { s0 with xLat := 1000 })
    (fun t => t.trace == [.set 17 .high, .hold 0, .set 17 .low, .hold 0]) = true := by decide +kernel

/-- T41 row 9: bit 1 at C = 300. -/
theorem test_bit1 : holds (exec .bit1 { s0 with xLat := 300 })
    (fun t => t.trace == [.set 17 .high, .hold 107, .set 17 .low, .hold 481]) = true := by decide +kernel

/-- T41, the gap at the defaults. -/
theorem test_gap : holds (exec .gap s0) (fun t => t.trace == [.hold 19920]) = true := by decide +kernel

/-- T41, the gap with G = 50 and C = 80. -/
theorem test_gap_saturated : holds (exec .gap { s0 with xGap := 50 }) (fun t => t.trace == [.hold 0]) = true := by
  decide +kernel

/-- R121: the line is HIGH after an answer ok, UNKNOWN after an answer fail. -/
theorem test_sethi : holds (exec (.sethi 255) s0) (fun t => t.level 255 == .high && t.level 17 == .unknown) = true := by
  decide +kernel

theorem test_sethi_fail : holds (exec (.sethi 17) (failing 0 s0))
    (fun t => t.level 17 == .unknown && t.err == .pinWrite) = true := by decide +kernel

/-- R122. -/
theorem test_setlo : holds (exec (.setlo 0) s0) (fun t => t.level 0 == .low && t.trace == [.set 0 .low]) = true := by
  decide +kernel

/-- R120: HOLD 0 is recorded, and the timer ends at 0. -/
theorem test_hold_zero : holds (exec (.hold 0) s0) (fun t => t.trace == [.hold 0] && t.timer == 0) = true := by
  decide +kernel

/-- T30 rows 1 and 2: the write wraps. -/
theorem test_wrcfg_group : holds (exec (.wrcfg 0 1025) s0) (fun t => t.cmdGroup == 1) = true := by decide +kernel
theorem test_wrcfg_addr : holds (exec (.wrcfg 1 14) s0) (fun t => t.cmdAddr == 6) = true := by decide +kernel

/-- T30 row 6: STATUS after a PIN_WRITE_FAILURE. -/
theorem test_rdreg_status : holds (exec (.rdreg 8) { s0 with err := .pinWrite }) (fun t => t.readData == 8) = true := by
  decide +kernel

/-- T30 row 8: FRAME. -/
theorem test_rdreg_frame : holds (exec (.rdreg 9) s0) (fun t => t.readData == 0x698021) = true := by decide +kernel

/-- R152: the frame and the configuration are sampled and the sequencer is at the acquisition. -/
theorem test_start : holds (exec .start { s0 with frame := 0, xPin := 0 })
    (fun t => t.frame == 0x698021 && t.xPin == 17 && t.busy && t.seq.phase == .acq) = true := by decide +kernel

/-- T42 row 7: CFG_PIN never written. -/
theorem test_start_unwritten : exec .start { s0 with cfgPinWritten := false } = .refused .startPinUnwritten := rfl

/-- T42 row 3: the driver is initialised, pin 4 is not yet an output. -/
theorem test_acq : holds (exec .acq { s1 with xPin := 4 })
    (fun t => t.trace == [.cfgOut 4] && t.isConfigured 4 && t.isConfigured 17) = true := by decide +kernel

/-- T60 row 2: CfgOut fails after DrvInit succeeded. -/
theorem test_acq_fail : holds (exec .acq (failing 1 s0))
    (fun t => t.trace == [.drvInit] && t.gpioInit && !t.isConfigured 17 && t.err == .pinInit) = true := by decide +kernel

/-- R154. -/
theorem test_drvinit : holds (exec .drvinit s0) (fun t => t.gpioInit && t.trace == [.drvInit]) = true := by decide +kernel

/-- R155: the level stays as it was. -/
theorem test_cfgout : holds (exec (.cfgout 4) s0)
    (fun t => t.isConfigured 4 && t.level 4 == .unknown && t.trace == [.cfgOut 4]) = true := by decide +kernel

/-- T42 row 1: 103 events, the line LOW at the end. -/
theorem test_transmit : holds (exec .transmit s0)
    (fun t => t.trace.length == 103 && t.done && t.level 17 == .low) = true := by decide +kernel

/-- T60 row 4 and P5: the second `Set(4, HIGH)` fails. -/
theorem test_transmit_fail : holds (exec .transmit (failing 3 { s1 with xPin := 4, xRetries := 3 }))
    (fun t => t.trace == [.cfgOut 4, .set 4 .high, .hold 858, .set 4 .low, .hold 170] && t.err == .pinWrite
      && t.level 4 == .unknown) = true := by decide +kernel

/-- P4: the operands wrap, the frame is that of P1. -/
theorem test_send : holds (exec (.send 1025 8 1) s0)
    (fun t => t.frame == 0x698021 && t.trace.length == 103 && t.statusWord == 2) = true := by decide +kernel

/-- P5: the failure stays in ERR and the host's program stops. -/
theorem test_send_fail : holds (exec (.send 1 0 1) { failing 0 s0 with prog := [.symbol 0] })
    (fun t => t.statusWord == 4 && t.prog == []) = true := by decide +kernel

/-- T40 rows 4 and 7. -/
theorem test_on : holds (exec (.on 1 3) s0) (fun t => t.frame == 0x698027) = true := by decide +kernel
theorem test_off : holds (exec (.off 512 7) s0) (fun t => t.frame == 0x69C01F) = true := by decide +kernel

/-- T40 row 6: `ALL 1, 1`. -/
theorem test_all : holds (exec (.all 1 1) s0) (fun t => t.frame == 0x69802D && t.done) = true := by decide +kernel

/-- R165. -/
theorem test_pause : holds (exec (.pause 200000) s0) (fun t => t.trace == [] && t.times == [.pause 200000]) = true := by
  decide +kernel

/-- P3 with one repetition: the frames of (1, 3) and (2, 3), one acquisition, one pause between and none after. -/
theorem test_batch :
    holds (exec (.batch [1, 2] [3] 1) { s0 with answers := { script := List.replicate 110 .ok, used := 0 } })
    (fun t => t.frame == 0x698047 && t.trace.length == 204 && t.times.count (.pause 200000) == 1) = true := by
  decide +kernel

/-- R161: in HOLD_LO at the last bit the sequencer goes to the gap. -/
theorem test_step_last_bit : holds (step (inFlight .holdLo 0 24))
    (fun t => t.seq == { phase := .holdGap, rep := 0, bit := 24 } && t.trace == [.hold 701]) = true := by decide +kernel

/-- R161: after the last gap the run is finished. -/
theorem test_step_finish : holds (step (inFlight .holdGap 0 24))
    (fun t => t.seq.phase == .idle && t.done && !t.busy) = true := by decide +kernel

/-- A placed table word is run by the very next step. -/
theorem test_place_word : holds (step (State.reset.withFetchWord 8 0x13)) (fun t => t.cfgPinWritten) = true := by
  decide +kernel

/-! ## Witnesses: for every statement with hypotheses, a state and operands that meet them -/

theorem witness_DecodeEncode : (Instr.wrcfg 6 80).wellFormed = true ∧ (Instr.on 1023 7).wellFormed = true := by decide

theorem witness_FrameShape : (1023 < 1024 ∧ 7 < 8) ∧ encodeFrame 1023 7 true = encodeFrame 1023 7 true := by decide

theorem witness_DecodeHelper :
    ((∀ i < 10, frameBit 0x698021 i = Config.preamble.getMsbD i) ∧ frameBit 0x698021 24 = true) ∧
    ¬((∀ i < 10, frameBit 0x698020 i = Config.preamble.getMsbD i) ∧ frameBit 0x698020 24 = true) ∧
    (1023 < 1024 ∧ 7 < 8) := by decide

theorem witness_ProducibleFrames : Producible 0x69FFFF = true ∧ Producible 0x69FFFE = false := by decide

theorem witness_OnOffDiffer : (0 < 25 ∧ 0 ≠ 20) ∧ (24 < 25 ∧ 24 ≠ 20) := by decide

theorem witness_WrcfgStores :
    (0#4).toNat ≤ 6 ∧ (6#4).toNat ≤ 6 ∧ ¬(7#4).toNat ≤ 6 ∧ ¬8 ≤ (7#4).toNat ∧ 8 ≤ (8#4).toNat ∧ 8 ≤ (15#4).toNat := by
  decide

theorem witness_CtrlWrite : 1 % 2 = 1 ∧ 0x80000001 % 2 = 1 ∧ 0 % 2 = 0 ∧ 2 % 2 = 0 := by decide

theorem witness_StartBegins :
    (s0.busy = false ∧ s0.cfgPinWritten = true) ∧ (State.reset.busy = false ∧ State.reset.cfgPinWritten = false) ∧
    (inFlight .acq 0 0).busy = true ∧ holds (exec (.wrcfg 3 17) State.reset) (fun _ => true) = true := by decide +kernel

theorem witness_FaultedForever :
    (inFlight .acq 0 0).busy = true ∧ { s0 with faulted := true }.faulted = true ∧
    holds (exec .gap { s0 with faulted := true }) (fun _ => true) = true := by decide +kernel

theorem witness_RunKeepsItsSample :
    (inFlight .acq 0 0).busy = true ∧ holds (step (inFlight .acq 0 0)) (fun _ => true) = true ∧
    holds (step { inFlight .setHi 0 1 with
      prog := [.hostreg 0b10011 4], turns := { script := [.host], used := 0 } })
      (fun t => t.cfgPin == 4) = true := by decide +kernel

theorem witness_RunIgnoresHostWrites :
    (inFlight .setHi 0 1).eraseHost =
      { inFlight .setHi 0 1 with cmdGroup := 2, prog := [.symbol 0], readData := 5 }.eraseHost := rfl

theorem witness_answer : s0.answer = .ok ∧ (failing 0 s0).answer = .fail := by decide +kernel

theorem witness_DrvinitResult : s0.answer = .ok ∧ (failing 0 s0).answer = .fail := witness_answer

theorem witness_CfgoutResult : s0.answer = .ok ∧ (failing 0 s0).answer = .fail := witness_answer

theorem witness_SethiResult : s0.answer = .ok ∧ (failing 0 s0).answer = .fail ∧ (255 : Pin) ≠ 0 :=
  ⟨witness_answer.1, witness_answer.2, by decide⟩

theorem witness_SetloResult : s0.answer = .ok ∧ (failing 0 s0).answer = .fail ∧ (255 : Pin) ≠ 0 :=
  ⟨witness_answer.1, witness_answer.2, by decide⟩

theorem witness_HoldResult : 0 < (1#32).toNat ∧ 4294967294 < (4294967295#32).toNat := by decide

theorem witness_symbol : AnswersOk 2 s0 ∧ FailsAfter 0 (failing 0 s0) ∧ FailsAfter 1 (failing 1 s0) ∧
    s0.bitTiming = .standard ∧ { s0 with bitTiming := .swapped }.bitTiming = .swapped ∧ s0.xLat = 80 := by
  unfold AnswersOk FailsAfter
  decide +kernel

theorem witness_Bit0Result : AnswersOk 2 s0 ∧ FailsAfter 0 (failing 0 s0) ∧ FailsAfter 1 (failing 1 s0) ∧
    s0.bitTiming = .standard ∧ { s0 with bitTiming := .swapped }.bitTiming = .swapped ∧ s0.xLat = 80 := witness_symbol

theorem witness_Bit1Result : AnswersOk 2 s0 ∧ FailsAfter 0 (failing 0 s0) ∧ FailsAfter 1 (failing 1 s0) ∧
    s0.bitTiming = .standard ∧ { s0 with bitTiming := .swapped }.bitTiming = .swapped ∧ s0.xLat = 80 := witness_symbol

theorem witness_GapResult :
    { s0 with xGap := 80 }.xGap.toNat ≤ s0.xLat.toNat ∧ s0.xGap = 20000 ∧ s0.xLat = 80 := by decide +kernel

theorem witness_SaturatingSubtraction : (250#32).toNat ≤ 250 ∧ (0#32).toNat ≤ 250 := by decide

theorem witness_BitTimingInvariant :
    ({ s0 with xLat := 250 }.xLat.toNat ≤ 938 ∧ { s0 with xLat := 250 }.xLat.toNat ≤ 250) ∧
    ¬{ s0 with xLat := 251 }.xLat.toNat ≤ 250 := by
  decide +kernel

theorem witness_CalibratedCase :
    (s0.nextEps = s0.xLat.toNat ∧ s0.xLat.toNat ≤ (80#32).toNat) ∧
    (AnswersOk 2 s0 ∧ s0.eps.script.take 2 = List.replicate 2 s0.xLat.toNat ∧ s0.xLat.toNat ≤ 250) ∧
    (s0.nextEps = s0.xLat.toNat ∧ s0.xLat.toNat ≤ s0.xGap.toNat) := by
  unfold AnswersOk
  decide +kernel

theorem witness_DisturbedTiming :
    (inFlight .holdLo 0 3).eraseTiming =
      { inFlight .holdLo 0 3 with eps := { script := [5000], used := 7 } }.eraseTiming := rfl

theorem witness_AcqResult :
    (AnswersOk s0.acqOps s0 ∧ s0.acqOps = 2) ∧ (s1.gpioInit = true ∧ s1.isConfigured s1.xPin = true) ∧
    (0 < (failing 0 s0).acqOps ∧ FailsAfter 0 (failing 0 s0)) ∧
    (1 < (failing 1 s0).acqOps ∧ FailsAfter 1 (failing 1 s0)) ∧
    (0 < (failing 0 { s1 with xPin := 4 }).acqOps ∧ FailsAfter 0 (failing 0 { s1 with xPin := 4 })) := by
  unfold AnswersOk FailsAfter
  decide +kernel

/-- A run at its acquisition with a host write still to come. -/
def s2 : State := { s0 with busy := true, seq := { phase := .acq, rep := 0, bit := 0 }, prog := [.hostreg 0b10000 2] }

theorem s2_hostProgram : s2.HostProgram := by
  intro item hm i hi
  obtain rfl : item = .hostreg 0b10000 2 := by simpa [s2] using hm
  obtain rfl : Instr.wrcfg 0 2 = i := by simpa [decode, decodeHostreg, hostregWrite, hostregNum, isStartWrite] using hi
  rfl

theorem s2_acqOnce : s2.AcqOnce := by
  refine ⟨by decide +kernel, fun p => ?_⟩
  have h : s2.trace = [] ∧ s2.configured = 0 := ⟨rfl, rfl⟩
  simp [State.isConfigured, h.1, h.2]

theorem witness_AcquisitionOnce : s2.HostProgram ∧ s2.AcqOnce ∧
    holds (step { s2 with turns := { script := [.sequencer], used := 0 } }) (fun _ => true) = true :=
  ⟨s2_hostProgram, s2_acqOnce, by decide +kernel⟩

theorem witness_AcquisitionGrows :
    holds (step (inFlight .setHi 0 0)) (fun _ => true) = true ∧ (inFlight .setHi 0 0).gpioInit = true ∧
    (inFlight .setHi 0 0).isConfigured 17 = true := by decide +kernel

theorem witness_TransmitCompletes :
    AnswersOk (s0.acqOps + 50 * s0.xRetries.toNat) s0 ∧ s0.xRetries ≠ 0 ∧
    AnswersOk ({ s0 with xRetries := 0 }.acqOps + 50 * { s0 with xRetries := 0 }.xRetries.toNat) { s0 with xRetries := 0 } ∧
    (4 : Pin) ≠ s0.xPin := by
  unfold AnswersOk
  decide +kernel

theorem witness_RepetitionCounts : AnswersOk (s0.acqOps + 50 * s0.xRetries.toNat) s0 := by
  unfold AnswersOk
  decide +kernel

theorem witness_TransmitNoRetries : { s0 with xRetries := 0 }.xRetries = 0 ∧
    AnswersOk { s0 with xRetries := 0 }.acqOps { s0 with xRetries := 0 } := by
  unfold AnswersOk
  decide +kernel

theorem witness_FailureEntry : (failing 0 s0).answer = .fail := witness_answer.2

theorem witness_EarliestFailure :
    (0 < (failing 0 s0).acqOps + 50 * (failing 0 s0).xRetries.toNat ∧ FailsAfter 0 (failing 0 s0)) ∧
    (1 < (failing 1 s0).acqOps ∧ FailsAfter 1 (failing 1 s0)) ∧
    ((failing 2 s0).acqOps = 2 ∧ FailsAfter 2 (failing 2 s0)) ∧
    (51 < (failing 51 s0).acqOps + 50 * (failing 51 s0).xRetries.toNat ∧ FailsAfter 51 (failing 51 s0)) := by
  unfold FailsAfter
  decide +kernel

theorem witness_TransmitFrame : (4 : Pin) ≠ s0.xPin := by decide

theorem witness_SmallStepsEqualBigStep :
    (inFlight .acq 0 0).Quiet ∧ (inFlight .acq 0 0).seq = { phase := .acq, rep := 0, bit := 0 } := ⟨⟨rfl, rfl⟩, rfl⟩

/-- A run at its acquisition, nothing configured, nothing more from the host. -/
def s3 : State := { s2 with prog := [] }

theorem s3_inv : s3.Inv where
  host := by intro item hm; simp [s3] at hm
  busy := by decide +kernel
  home := by decide +kernel
  timer := rfl
  bit := by decide +kernel
  gapBit := by decide +kernel
  rep := by decide +kernel
  clear := by decide +kernel
  doneErr := by decide +kernel
  noEncodingError := by decide +kernel
  frame := by decide +kernel
  written := by decide +kernel
  acquired := by decide +kernel
  levelHigh := by decide +kernel
  levelLow := by decide +kernel
  levelNext := by decide +kernel
  driver := by intro p h; simp [State.isConfigured, s3, s2, s0, State.reset] at h
  driven := by intro p h; simp [State.level, s3, s2, s0, State.reset] at h

theorem witness_RunEnds : s3.Inv ∧ s3.Quiet ∧ s3.busy = true := ⟨s3_inv, ⟨rfl, rfl⟩, rfl⟩

theorem witness_SmallStepTable :
    State.reset.Quiet ∧ State.reset.seq.phase = .idle ∧
    (s3.Quiet ∧ s3.seq.phase = .acq ∧ AnswersOk s3.acqOps s3 ∧ s3.xRetries ≠ 0) ∧
    ((inFlight .setHi 0 0).Quiet ∧ (inFlight .setHi 0 0).answer = .ok) ∧
    ((inFlight .holdLo 0 23).seq.bit.toNat < 24 ∧ 24 ≤ (inFlight .holdLo 0 24).seq.bit.toNat) ∧
    ((inFlight .holdGap 0 24).xRetries.toNat ≤ (inFlight .holdGap 0 24).seq.rep.toNat + 1 ∧
      { inFlight .holdGap 0 24 with xRetries := 2 }.seq.rep.toNat + 1 < 2) ∧
    (failing 0 (inFlight .setLo 0 0)).answer = .fail ∧
    (0 < (failing 0 s3).acqOps ∧ FailsAfter 0 (failing 0 s3)) ∧
    (1 < (failing 1 s3).acqOps ∧ FailsAfter 1 (failing 1 s3)) := by
  unfold State.Quiet AnswersOk FailsAfter
  decide +kernel

theorem witness_StepRunsDecoded :
    decode (.hostreg 0b10000 2) = .instr (.wrcfg 0 2) ∧ isHostOp (.wrcfg 0 2) = true ∧
    decode (.symbol 0) = .instr .bit0 ∧ isHostOp .bit0 = false ∧
    { s2 with turns := { script := [.host], used := 0 } }.turn = .host ∧
    { s2 with turns := { script := [.sequencer], used := 0 } }.turn = .sequencer ∧
    s2.faulted = false ∧ s2.seq.phase ≠ .idle ∧ s0.seq.phase = .idle ∧
    decode (.frame25 0) = .rejected .badPreamble ∧
    s3.prog = [] ∧ State.reset.prog = [] ∧
    s3.seqInstr = some .acq ∧ holds (exec .acq s3) (fun _ => true) = true := by decide +kernel

theorem witness_SendCompletes : s0.Ready ∧
    AnswersOk ((s0.sendStart 1 0 1).acqOps + 50 * s0.cfgRetries.toNat) s0 ∧
    AnswersOk ((s0.sendStart 1023 6 0).acqOps + 50 * s0.cfgRetries.toNat) s0 := by
  unfold State.Ready AnswersOk
  decide +kernel

theorem witness_SendFails : (failing 51 s0).Ready ∧
    51 < ((failing 51 s0).sendStart 1 0 1).acqOps + 50 * (failing 51 s0).cfgRetries.toNat ∧
    FailsAfter 51 (failing 51 s0) ∧ (failing 0 s0).Ready ∧
    0 < ((failing 0 s0).sendStart 1 0 1).acqOps ∧ FailsAfter 0 (failing 0 s0) := by
  unfold State.Ready FailsAfter
  decide +kernel

theorem witness_BatchCompletes : s0.Ready ∧
    [(1, 3)] = [1].flatMap (fun g => [3].map fun a => (g, a)) ∧
    AnswersOk (s0.startRun.acqOps + 50 * s0.cfgRetries.toNat * [(1, 3)].length) s0 ∧
    ([] : List (Nat × Nat)) = [1].flatMap (fun g => ([] : List Nat).map fun a => (g, a)) ∧
    AnswersOk (s0.startRun.acqOps + 50 * s0.cfgRetries.toNat * ([] : List (Nat × Nat)).length) s0 := by
  unfold State.Ready AnswersOk
  decide +kernel

theorem witness_BatchStopsAtFailure : (failing 0 s0).Ready ∧
    holds (exec (.send 1 3 1) (failing 0 s0)) (fun t => t.err != .none) = true ∧
    s0.Ready ∧ holds (exec (.send 1 3 1) s0) (fun t => t.err == .none) = true := by
  unfold State.Ready
  decide +kernel

/-- Two groups, one repetition each: the acquisition fails, the last Set of the first run fails, the first Set of the second
run fails, the last Set of all fails. -/
theorem witness_BatchEarliestFailure :
    [(1, 3), (2, 3)] = [1, 2].flatMap (fun g => [3].map fun a => (g, a)) ∧ [(1, 3), (2, 3)] ≠ [] ∧
    ∀ k ∈ [0, 51, 52, 101], (failing k s0).Ready ∧
      k < (failing k s0).startRun.acqOps + 50 * (failing k s0).cfgRetries.toNat * [(1, 3), (2, 3)].length ∧
      FailsAfter k (failing k s0) ∧
      (if k < 52 then 0 else 1) =
        (k - (failing k s0).startRun.acqOps) / (50 * (failing k s0).cfgRetries.toNat) := by
  unfold State.Ready FailsAfter
  decide +kernel

/-- P3 with one repetition and a failure in the run of the second group: its pair's command is there, one pause, and the
trace of the first run. -/
theorem test_batch_fails_later : holds (exec (.batch [1, 2] [3] 1) (failing 52 s0))
    (fun t => t.frame == 0x698047 && t.trace.length == 103 && t.times.count (.pause 200000) == 1
      && t.statusWord == 8) = true := by decide +kernel

theorem witness_step : holds (step s3) (fun _ => true) = true := by decide +kernel

theorem witness_TimingHardwired : ∃ t, step s3 = .next t := (holds_next witness_step).imp fun _ h => h.1

theorem witness_TraceGrows : ∃ t, step s3 = .next t := witness_TimingHardwired

theorem witness_OneIntervalPerHold : heldOfTimes s3.times = heldOfTrace s3.trace ∧ ∃ t, step s3 = .next t :=
  ⟨rfl, witness_TimingHardwired⟩

theorem witness_StepKeepsInvariant : s3.Inv ∧ ∃ t, step s3 = .next t := ⟨s3_inv, witness_TimingHardwired⟩

theorem witness_HeldTime :
    s0.xLat.toNat ≤ 250 ∧ s0.xLat.toNat ≤ s0.xGap.toNat ∧
    { s0 with xLat := 250, xGap := 250 }.xLat.toNat ≤ { s0 with xLat := 250, xGap := 250 }.xGap.toNat ∧
    AnswersOk (s0.acqOps + 50 * s0.xRetries.toNat) s0 := by
  unfold AnswersOk
  decide +kernel

theorem witness_ObservedTime :
    AnswersOk (s0.acqOps + 50 * s0.xRetries.toNat) s0 ∧
    s0.eps.script.take (51 * s0.xRetries.toNat) = List.replicate (51 * s0.xRetries.toNat) s0.xLat.toNat ∧
    s0.xLat.toNat ≤ 250 ∧ s0.xLat.toNat ≤ s0.xGap.toNat := by
  unfold AnswersOk
  decide +kernel

/-- A ready block with what two runs of one repetition draw. -/
def s4 : State :=
  { s0 with
    answers := { script := List.replicate 102 .ok, used := 0 }
    eps := { script := List.replicate 102 80, used := 0 }
    setups := { script := [7, 9], used := 0 } }

theorem witness_BatchTime : s4.Ready ∧ 2 = [1, 2].length * [3].length ∧
    AnswersOk (s4.startRun.acqOps + 50 * s4.cfgRetries.toNat * 2) s4 ∧
    s4.eps.script.take (51 * s4.cfgRetries.toNat * 2) =
      List.replicate (51 * s4.cfgRetries.toNat * 2) s4.cfgLatency.toNat ∧
    [7, 9].length = 2 ∧ s4.setups.script.take 2 = [7, 9] ∧
    s4.cfgLatency.toNat ≤ 250 ∧ s4.cfgLatency.toNat ≤ s4.cfgGap.toNat := by
  unfold State.Ready AnswersOk
  decide +kernel

theorem witness_FrameHighTime :
    18 = (frameBits (encodeFrame 1 0 true)).count false ∧ 7 = (frameBits (encodeFrame 1 0 true)).count true := by
  decide +kernel

theorem witness_NoCancellation : isHostOp .start = true ∧ s2.busy = true ∧
    holds (exec .start s2) (fun t => t.faulted) = true ∧
    isHostOp (.wrcfg 0 2) = true ∧ holds (exec (.wrcfg 0 2) s2) (fun t => t.cmdGroup == 2) = true := by decide +kernel

theorem witness_LevelsChangeBySetOnly :
    holds (exec .gap s0) (fun _ => true) = true ∧ holds (exec .acq s0) (fun _ => true) = true ∧
    holds (exec .start s0) (fun _ => true) = true := by decide +kernel

end Sys2Proof.Tests
end

section
/-! SUPPORT. How the meanings are read in proofs: one equation per instruction, partial correctness of an operation, the
moves of the host, and the two inductions over what a host operation and a step of the machine can do. -/

namespace Sys2Proof.Machine

/-! One equation per instruction, down to the shared operation that gives it its meaning. -/

@[simp] theorem exec_on (g : BitVec 10) (a : BitVec 3) (s : State) :
    exec (.on g a) s = (doSend g.toNat a.toNat 1 s).outcome := rfl
@[simp] theorem exec_off (g : BitVec 10) (a : BitVec 3) (s : State) :
    exec (.off g a) s = (doSend g.toNat a.toNat 0 s).outcome := rfl
@[simp] theorem exec_bit0 (s : State) : exec .bit0 s = (doSymbol false s).outcome := rfl
@[simp] theorem exec_bit1 (s : State) : exec .bit1 s = (doSymbol true s).outcome := rfl
@[simp] theorem exec_gap (s : State) : exec .gap s = .next (doHold s.heldGap s) := rfl
@[simp] theorem exec_sethi (p : Pin) (s : State) : exec (.sethi p) s = (doSet p .high s).outcome := rfl
@[simp] theorem exec_setlo (p : Pin) (s : State) : exec (.setlo p) s = (doSet p .low s).outcome := rfl
@[simp] theorem exec_hold (d : Dur) (s : State) : exec (.hold d) s = .next (doHold d s) := rfl
@[simp] theorem exec_wrcfg (r : RegNum) (v : Nat) (s : State) :
    exec (.wrcfg r v) s = (doHostWrite r v s).outcome := rfl
@[simp] theorem exec_rdreg (r : RegNum) (s : State) :
    exec (.rdreg r) s = .next { s with readData := s.loadReg r } := rfl
@[simp] theorem exec_start (s : State) : exec .start s = (doStart s).outcome := rfl
@[simp] theorem exec_acq (s : State) : exec .acq s = (doAcq s).outcome := rfl
@[simp] theorem exec_drvinit (s : State) : exec .drvinit s = (doDrvInit s).outcome := rfl
@[simp] theorem exec_cfgout (p : Pin) (s : State) : exec (.cfgout p) s = (doCfgOut p s).outcome := rfl
@[simp] theorem exec_transmit (s : State) : exec .transmit s = (doTransmit s).outcome := rfl
@[simp] theorem exec_send (g a v : Nat) (s : State) : exec (.send g a v) s = (doSend g a v s).outcome := rfl
@[simp] theorem exec_pause (d : Nat) (s : State) : exec (.pause d) s = .next (s.recordPause d) := rfl
@[simp] theorem exec_batch (groups addrs : List Nat) (v : Nat) (s : State) :
    exec (.batch groups addrs v) s = (sendPairs v (batchPairs groups addrs) s).outcome := rfl
@[simp] theorem exec_all (g v : Nat) (s : State) :
    exec (.all g v) s = (doSend g Config.broadcastAddr v s).outcome := rfl

/-! Partial correctness. -/

/-- Where the operation runs to its end P holds, where it ends early Q does; of a refusal nothing is said. -/
def Res.Leads (P Q : State → Prop) : Res → Prop
  | .ok t => P t
  | .stopped t => Q t
  | .refused _ => True

theorem Res.Leads.andThen {P P' Q : State → Prop} {r : Res} {f : State → Res} (h : r.Leads P Q)
    (hf : ∀ t, P t → (f t).Leads P' Q) : (r.andThen f).Leads P' Q := by
  cases r with
  | ok t => exact hf t h
  | stopped t => exact h
  | refused why => trivial

theorem Res.Leads.imp {P P' Q Q' : State → Prop} {r : Res} (h : r.Leads P Q) (hP : ∀ t, P t → P' t)
    (hQ : ∀ t, Q t → Q' t) : r.Leads P' Q' := by
  cases r with
  | ok t => exact hP t h
  | stopped t => exact hQ t h
  | refused why => trivial

/-- What holds however the operation ends holds of the next state of its instruction. -/
theorem Res.Leads.next {P : State → Prop} {r : Res} {t : State} (h : r.Leads P P) (ht : r.outcome = .next t) : P t := by
  rcases Res.outcome_eq_next ht with rfl | rfl
  · exact h
  · exact h

theorem Res.All.leads {P : State → Prop} {r : Res} (h : r.All P) : r.Leads P P := by
  cases r with
  | ok t => exact h
  | stopped t => exact h
  | refused why => trivial

/-! The moves of the host. -/

/-- The host has moved and begun no run: at most its registers, the written mark (which it cannot clear), FAULTED, the
read data, the records of time and the turns have changed, and items of its program are gone (R36, R59). -/
structure HostMove (s t : State) : Prop where
  rest : t = { s with
    cmdGroup := t.cmdGroup, cmdAddr := t.cmdAddr, cmdOn := t.cmdOn
    cfgPin := t.cfgPin, cfgPinWritten := t.cfgPinWritten
    cfgRetries := t.cfgRetries, cfgGap := t.cfgGap, cfgLatency := t.cfgLatency
    faulted := t.faulted, prog := t.prog, readData := t.readData, times := t.times, turns := t.turns }
  written : s.cfgPinWritten = true → t.cfgPinWritten = true
  prog : t.prog <:+ s.prog

theorem hostMove_popTurn (s : State) : HostMove s s.popTurn := ⟨rfl, id, List.suffix_refl _⟩

theorem hostMove_setProg (s : State) {rest : List Item} (h : rest <:+ s.prog) : HostMove s { s with prog := rest } :=
  ⟨rfl, id, h⟩

theorem hostMove_setFaulted (s : State) : HostMove s s.setFaulted := ⟨rfl, id, List.suffix_refl _⟩

theorem hostMove_recordPause (s : State) (d : Nat) : HostMove s (s.recordPause d) := ⟨rfl, id, List.suffix_refl _⟩

theorem hostMove_stopProgram (s : State) : HostMove s s.stopProgram := ⟨rfl, id, List.nil_suffix⟩

theorem hostMove_read (s : State) (r : RegNum) : HostMove s { s with readData := s.loadReg r } :=
  ⟨rfl, id, List.suffix_refl _⟩

theorem hostMove_writeCommand (s : State) (g a v : Nat) : HostMove s (s.writeCommand g a v) :=
  ⟨rfl, id, List.suffix_refl _⟩

/-- A write of CFG_PIN (register 3) is the only one that touches the written mark, and it sets it (R35). -/
theorem hostMove_storeReg (s : State) (r : RegNum) (v : Nat) : HostMove s (s.storeReg r v) := by
  unfold State.storeReg
  split
  case h_4 => exact ⟨rfl, fun _ => rfl, List.suffix_refl _⟩
  all_goals exact ⟨rfl, id, List.suffix_refl _⟩

/-! What a host operation can do: moves of the host, a START that begins a run, a transmission waited for. -/

/-- P is kept by the moves of the host, by an accepted START, and by a START whose transmission is waited for. -/
structure KeptByHost (P : State → Prop) : Prop where
  move : ∀ {s t : State}, P s → HostMove s t → P t
  start : ∀ {s : State}, P s → s.Ready → P s.startRun
  run : ∀ {s : State}, P s → s.Ready → (doTransmit s.startRun).Leads P P

section HostOperations

variable {P : State → Prop}

theorem KeptByHost.doStart_leads (h : KeptByHost P) {s : State} (hs : P s) : (doStart s).Leads P P := by
  rcases doStart_cases s with ⟨-, hd⟩ | ⟨hr, hd⟩ | ⟨-, -, hd⟩ <;> rw [hd]
  · exact h.move hs (hostMove_setFaulted s)
  · exact h.start hs hr
  · trivial

theorem KeptByHost.doHostWrite_leads (h : KeptByHost P) {s : State} (hs : P s) (r : RegNum) (v : Nat) :
    (doHostWrite r v s).Leads P P := by
  unfold doHostWrite
  split
  · exact h.doStart_leads hs
  · exact h.move hs (hostMove_storeReg s r v)

theorem KeptByHost.waitRun_leads (h : KeptByHost P) {s : State} (hs : (doTransmit s).Leads P P) :
    (waitRun s).Leads P P := by
  unfold waitRun
  cases hd : doTransmit s with
  | ok t => rwa [hd] at hs
  | stopped t =>
    rw [hd] at hs
    exact h.move hs (hostMove_stopProgram t)
  | refused why => trivial

theorem KeptByHost.doSend_leads (h : KeptByHost P) {s : State} (hs : P s) (g a v : Nat) : (doSend g a v s).Leads P P := by
  have hw : P (s.writeCommand g a v) := h.move hs (hostMove_writeCommand s g a v)
  unfold doSend
  rcases doStart_cases (s.writeCommand g a v) with ⟨-, hd⟩ | ⟨hr, hd⟩ | ⟨-, -, hd⟩ <;> rw [hd]
  · exact h.move hw (hostMove_setFaulted _)
  · exact h.waitRun_leads (h.run hw hr)
  · trivial

theorem KeptByHost.sendPairs_leads (h : KeptByHost P) (v : Nat) :
    ∀ (pairs : List (Nat × Nat)) {s : State}, P s → (sendPairs v pairs s).Leads P P
  | [], _, hs => hs
  | (g, a) :: [], _, hs => h.doSend_leads hs g a v
  | (g, a) :: q :: rest, _, hs =>
    (h.doSend_leads hs g a v).andThen fun t ht => h.sendPairs_leads v (q :: rest) (h.move ht (hostMove_recordPause t _))

/-- What the host's moves and its runs keep, every host operation keeps. -/
theorem KeptByHost.exec_next (h : KeptByHost P) {i : Instr} {s t : State} (hi : isHostOp i = true) (hs : P s)
    (ht : exec i s = .next t) : P t := by
  cases i <;> simp only [isHostOp, Bool.false_eq_true] at hi
  case on g a => exact (h.doSend_leads hs g.toNat a.toNat 1).next ht
  case off g a => exact (h.doSend_leads hs g.toNat a.toNat 0).next ht
  case wrcfg r v => exact (h.doHostWrite_leads hs r v).next ht
  case rdreg r =>
    obtain rfl : { s with readData := s.loadReg r } = t := Host.Outcome.next.inj ht
    exact h.move hs (hostMove_read s r)
  case start => exact (h.doStart_leads hs).next ht
  case send g a v => exact (h.doSend_leads hs g a v).next ht
  case pause d =>
    obtain rfl : s.recordPause d = t := Host.Outcome.next.inj ht
    exact h.move hs (hostMove_recordPause s d)
  case batch groups addrs v => exact (h.sendPairs_leads v (batchPairs groups addrs) hs).next ht
  case all g v => exact (h.doSend_leads hs g Config.broadcastAddr v).next ht

end HostOperations

/-! What a step of the machine can do. -/

/-- What the host's moves, every instruction and every advance of the sequencer keep, every step keeps. -/
theorem step_keeps {P : State → Prop} (hmove : ∀ {s t : State}, P s → HostMove s t → P t)
    (hexec : ∀ {i : Instr} {s t : State}, P s → exec i s = .next t → P t)
    (hadv : ∀ {s : State}, P s → P s.advanceUnlessRaised) {s t : State} (hs : P s) (ht : step s = .next t) : P t := by
  have hprogram : ∀ u, P u → programStep u = .next t → P t := by
    intro u hu h
    rcases programStep_cases h with ⟨-, rfl⟩ | ⟨item, rest, i, hp, -, he⟩
    · exact hu
    · exact hexec (hmove hu (hostMove_setProg u (hp ▸ List.suffix_cons item rest))) he
  have hsequencer : ∀ u, P u → sequencerStep u = .next t → P t := by
    intro u hu h
    rcases sequencerStep_cases h with ⟨-, rfl⟩ | ⟨i, w, -, he, rfl⟩
    · exact hu
    · exact hadv (hexec hu he)
  have hpop : P s.popTurn := hmove hs (hostMove_popTurn s)
  obtain ⟨-, ⟨-, h⟩ | ⟨-, -, -, h⟩ | ⟨-, -, -, h⟩ | ⟨-, -, h⟩⟩ := step_cases ht
  · exact hprogram s hs h
  · exact hprogram _ hpop h
  · exact hsequencer _ hpop h
  · exact hsequencer s hs h

end Sys2Proof.Machine
end

section
/-! SUPPORT. What no step undoes: the timing table, the trace, GPIO_INIT and CONFIGURED (spec/10_state.md R22, R28, R29,
R31). -/

namespace Sys2Proof.Machine

/-- From s to t the timing table is unchanged, the trace has only grown, and nothing acquired was given up. -/
structure Grows (s t : State) : Prop where
  timing : t.bitTiming = s.bitTiming
  trace : s.trace <+: t.trace
  gpio : s.gpioInit = true → t.gpioInit = true
  pins : ∀ q, s.isConfigured q = true → t.isConfigured q = true

theorem Grows.refl (s : State) : Grows s s := ⟨rfl, List.prefix_refl _, id, fun _ => id⟩

theorem Grows.trans {s t u : State} (h : Grows s t) (k : Grows t u) : Grows s u :=
  ⟨k.timing.trans h.timing, h.trace.trans k.trace, k.gpio ∘ h.gpio, fun q hq => k.pins q (h.pins q hq)⟩

theorem Ran.grows {s t : State} (h : Ran s t) : Grows s t := by
  obtain ⟨-, -, -, -, -, htiming, -⟩ := h.frame.keeps
  exact ⟨htiming, h.trace, h.gpio, h.pins⟩

theorem HostMove.grows {s t : State} (h : HostMove s t) : Grows s t := by
  rw [h.rest]
  exact ⟨rfl, List.prefix_refl _, id, fun _ => id⟩

theorem grows_startRun (s : State) : Grows s s.startRun := ⟨rfl, List.prefix_refl _, id, fun _ => id⟩

theorem grows_moveTo (s : State) (ph : Phase) (rp : Count) (bt : BitVec 5) : Grows s (s.moveTo ph rp bt) :=
  ⟨rfl, List.prefix_refl _, id, fun _ => id⟩

/-- An advance of the sequencer stays, moves to another position, or finishes (R161). -/
theorem advance_cases (s : State) :
    s.advance = s ∨ (∃ ph rp bt, s.advance = s.moveTo ph rp bt) ∨ s.advance = s.finish := by
  unfold State.advance
  split
  · exact .inl rfl
  · split
    · exact .inr (.inr rfl)
    · exact .inr (.inl ⟨_, _, _, rfl⟩)
  · exact .inr (.inl ⟨_, _, _, rfl⟩)
  · exact .inr (.inl ⟨_, _, _, rfl⟩)
  · exact .inr (.inl ⟨_, _, _, rfl⟩)
  · split
    · exact .inr (.inl ⟨_, _, _, rfl⟩)
    · exact .inr (.inl ⟨_, _, _, rfl⟩)
  · split
    · exact .inr (.inl ⟨_, _, _, rfl⟩)
    · exact .inr (.inr rfl)

theorem grows_advanceUnlessRaised (s : State) : Grows s s.advanceUnlessRaised := by
  unfold State.advanceUnlessRaised
  split
  · exact Grows.refl s
  · rcases advance_cases s with h | ⟨ph, rp, bt, h⟩ | h <;> rw [h]
    · exact Grows.refl s
    · exact grows_moveTo s ph rp bt
    · exact (ran_finish s).grows

/-- A Set of any line, its own X_PIN or not. -/
theorem grows_set (p : Pin) (l : Level) (s : State) : (doSet p l s).Leads (Grows s) (Grows s) := by
  rcases doSet_cases s p l with ⟨-, h⟩ | ⟨-, h⟩ <;> rw [h]
  · exact ⟨by simp, by simp, by simp, by simp⟩
  · exact ⟨by simp, by simp, by simp, by simp⟩

theorem grows_drvInit (s : State) : (doDrvInit s).Leads (Grows s) (Grows s) := by
  cases ha : s.answer with
  | ok => rw [doDrvInit_ok ha]; exact ⟨by simp, by simp, by simp, by simp⟩
  | fail => rw [doDrvInit_fail ha]; exact (ran_acqFail s).grows

theorem grows_cfgOut (p : Pin) (s : State) : (doCfgOut p s).Leads (Grows s) (Grows s) := by
  cases ha : s.answer with
  | ok =>
    rw [doCfgOut_ok ha]
    exact ⟨by simp, by simp, by simp, fun q hq => by simp [cfgOk_isConfigured, hq]⟩
  | fail => rw [doCfgOut_fail ha]; exact (ran_acqFail s).grows

/-- An operation of the sequencer only lets the state grow. -/
theorem grows_of_ran {s t : State} {r : Res} (h : r.All (Ran s)) (ht : r.outcome = .next t) : Grows s t :=
  Ran.grows (h.leads.next ht)

theorem growsFrom_keptByHost (s₀ : State) : KeptByHost (Grows s₀) where
  move h m := h.trans m.grows
  start h _ := h.trans (grows_startRun _)
  run h _ := (ran_transmit _).leads.imp (fun _ r => (h.trans (grows_startRun _)).trans r.grows)
    (fun _ r => (h.trans (grows_startRun _)).trans r.grows)

/-- Whatever the instruction and whatever the state. -/
theorem exec_grows {i : Instr} {s t : State} (ht : exec i s = .next t) : Grows s t := by
  cases hi : isHostOp i with
  | true => exact (growsFrom_keptByHost s).exec_next hi (Grows.refl s) ht
  | false =>
    cases i <;> simp only [isHostOp, Bool.true_eq_false] at hi
    case bit0 => exact grows_of_ran (ran_symbol false s) ht
    case bit1 => exact grows_of_ran (ran_symbol true s) ht
    case gap => exact Host.Outcome.next.inj ht ▸ (ran_hold s.heldGap s).grows
    case sethi p => exact (grows_set p .high s).next ht
    case setlo p => exact (grows_set p .low s).next ht
    case hold d => exact Host.Outcome.next.inj ht ▸ (ran_hold d s).grows
    case acq => exact grows_of_ran (ran_acq s) ht
    case drvinit => exact (grows_drvInit s).next ht
    case cfgout p => exact (grows_cfgOut p s).next ht
    case transmit => exact grows_of_ran (ran_transmit s) ht

theorem step_grows {s t : State} (ht : step s = .next t) : Grows s t :=
  step_keeps (P := Grows s) (fun h m => h.trans m.grows) (fun h he => h.trans (exec_grows he))
    (fun h => h.trans (grows_advanceUnlessRaised _)) (Grows.refl s) ht

end Sys2Proof.Machine
end

section
/-! SUPPORT. The operations that are no Set leave every level as it is (spec/10_state.md R30, R57). -/

namespace Sys2Proof.Machine

theorem HostMove.levels {s t : State} (h : HostMove s t) : t.levels = s.levels := by
  rw [h.rest]

/-- However the operation ends, every level is that of s. -/
def Res.KeepsLevels (s : State) (r : Res) : Prop := r.Leads (·.levels = s.levels) (·.levels = s.levels)

theorem doStart_keepsLevels (s : State) : (doStart s).KeepsLevels s := by
  rcases doStart_cases s with ⟨-, h⟩ | ⟨-, h⟩ | ⟨-, -, h⟩ <;> rw [h]
  · exact State.setFaulted_levels s
  · exact State.startRun_levels s
  · trivial

theorem doHostWrite_keepsLevels (r : RegNum) (v : Nat) (s : State) : (doHostWrite r v s).KeepsLevels s := by
  unfold doHostWrite
  split
  · exact doStart_keepsLevels s
  · exact (hostMove_storeReg s r v).levels

theorem doDrvInit_keepsLevels (s : State) : (doDrvInit s).KeepsLevels s := by
  cases ha : s.answer with
  | ok => rw [doDrvInit_ok ha]; exact State.initOk_levels s
  | fail => rw [doDrvInit_fail ha]; exact State.acqFail_levels s

theorem doCfgOut_keepsLevels (p : Pin) (s : State) : (doCfgOut p s).KeepsLevels s := by
  cases ha : s.answer with
  | ok => rw [doCfgOut_ok ha]; exact State.cfgOk_levels s p
  | fail => rw [doCfgOut_fail ha]; exact State.acqFail_levels s

theorem doAcq_keepsLevels (s : State) : (doAcq s).KeepsLevels s := by
  refine Res.Leads.andThen (P := (·.levels = s.levels)) ?_ fun t ht => ?_
  · unfold drvInitIfNeeded
    split
    · exact State.recordSetup_levels s
    · exact doDrvInit_keepsLevels s.recordSetup
  · unfold cfgOutIfNeeded
    split
    · exact ht
    · exact (doCfgOut_keepsLevels t.xPin t).imp (fun _ h => h.trans ht) (fun _ h => h.trans ht)

end Sys2Proof.Machine
end

section
/-! SUPPORT. The invariant of the block (spec/10_state.md R26, R27; spec/41_pulse_transmitter.md R135;
spec/42_frame_repeater.md R152, R153, R161). A legal state is at rest, or in a run that has not acquired its line, or in a
run that sends; each operation is shown once to lead from one of these to another, and the big step and the small steps
are both read off from that. -/

namespace Sys2Proof.Machine

/-! The frame of every command can be produced. -/

theorem producible_frameWord (g : BitVec 10) (v : BitVec 1) (a : BitVec 3) : Producible (frameWord g v a) = true := by
  have hpre : framePreamble (frameWord g v a) = Config.preamble := by
    apply BitVec.eq_of_getLsbD_eq
    intro i hi
    simp only [framePreamble, frameWord, BitVec.getLsbD_extractLsb', BitVec.getLsbD_append]
    interval_cases i <;> simp
  have hstop : frameStop (frameWord g v a) = Config.stopBit := by
    apply BitVec.eq_of_getLsbD_eq
    intro i hi
    simp only [frameStop, frameWord, BitVec.getLsbD_extractLsb', BitVec.getLsbD_append]
    interval_cases i
    simp
  simp [Producible, hpre, hstop]

/-! What every legal state has. -/

/-- The part of the invariant that does not speak of a run. -/
structure State.Sound (s : State) : Prop where
  host : s.HostProgram
  timer : s.timer = 0
  driver : ∀ p, s.isConfigured p = true → s.gpioInit = true
  driven : ∀ p, s.level p ≠ .unknown → s.isConfigured p = true

namespace State.Sound

variable {s : State}

theorem popAnswer (h : s.Sound) : s.popAnswer.Sound := ⟨h.host, h.timer, h.driver, h.driven⟩
theorem emit (h : s.Sound) (e : Event) : (s.emit e).Sound := ⟨h.host, h.timer, h.driver, h.driven⟩
theorem recordSetup (h : s.Sound) : s.recordSetup.Sound := ⟨h.host, h.timer, h.driver, h.driven⟩
theorem hold (h : s.Sound) (d : Dur) : (doHold d s).Sound := ⟨h.host, doHold_timer s d, h.driver, h.driven⟩
theorem moveTo (h : s.Sound) (ph : Phase) (rp : Count) (bt : BitVec 5) : (s.moveTo ph rp bt).Sound :=
  ⟨h.host, h.timer, h.driver, h.driven⟩
theorem setGpioInit (h : s.Sound) : s.setGpioInit.Sound := ⟨h.host, h.timer, fun _ _ => rfl, h.driven⟩

/-- Only a configured line may be driven; that a line becomes UNKNOWN is always allowed. -/
theorem setLevel (h : s.Sound) (p : Pin) {l : Level} (hl : l ≠ .unknown → s.isConfigured p = true) :
    (s.setLevel p l).Sound := by
  refine ⟨h.host, h.timer, h.driver, fun q hq => ?_⟩
  by_cases hqp : q = p
  · subst hqp
    exact hl (by simpa using hq)
  · exact h.driven q (by rwa [level_setLevel_other s l hqp] at hq)

theorem addConfigured (h : s.Sound) (p : Pin) (hg : s.gpioInit = true) : (s.addConfigured p).Sound := by
  refine ⟨h.host, h.timer, fun _ _ => hg, fun q hq => ?_⟩
  rw [isConfigured_addConfigured, h.driven q hq]
  rfl

theorem setOk (h : s.Sound) {p : Pin} (l : Level) (hp : s.isConfigured p = true) : (s.setOk p l).Sound :=
  (h.popAnswer.setLevel p fun _ => hp).emit _

end State.Sound

/-! At rest. -/

/-- The legal states in which the sequencer is idle. -/
structure State.Resting (s : State) : Prop extends s.Sound where
  idle : s.seq = { phase := .idle, rep := 0, bit := 0 }
  busy : s.busy = false
  doneErr : s.done = true → s.err = .none
  noEncodingError : s.err ≠ .encoding

theorem State.Resting.inv {s : State} (h : s.Resting) : s.Inv := by
  have hphase : s.seq.phase = .idle := by rw [h.idle]
  have hrep : s.seq.rep = 0 := by rw [h.idle]
  have hbit : s.seq.bit = 0 := by rw [h.idle]
  exact
    { host := h.host, timer := h.timer, driver := h.driver, driven := h.driven
      doneErr := h.doneErr, noEncodingError := h.noEncodingError
      busy := by simp [h.busy, hphase]
      home := fun _ => ⟨hrep, hbit⟩
      bit := by simp [hbit]
      gapBit := by simp [hphase]
      rep := fun hp => absurd hphase hp
      clear := by simp [h.busy]
      frame := by simp [h.busy]
      written := by simp [h.busy]
      acquired := fun hp => absurd hphase hp
      levelHigh := by simp [hphase]
      levelLow := by simp [hphase]
      levelNext := by simp [hphase] }

/-- The failure entry leads to rest (R197). -/
theorem State.Sound.raise {s : State} (h : s.Sound) {f : Failure} (hf : f ≠ .encoding) : (s.raise f).Resting :=
  ⟨⟨h.host, rfl, h.driver, h.driven⟩, rfl, rfl, by simp, hf⟩

theorem State.Sound.setFail {s : State} (h : s.Sound) (p : Pin) : (s.setFail p).Resting :=
  (h.popAnswer.setLevel p (l := .unknown) (absurd rfl)).raise (by decide)

theorem State.Sound.acqFail {s : State} (h : s.Sound) : s.acqFail.Resting := h.popAnswer.raise (by decide)

/-! In a run. -/

/-- A run is going on: what holds of it from START to its end, wherever the sequencer is. -/
structure State.Begun (s : State) : Prop extends s.Sound where
  busy : s.busy = true
  done : s.done = false
  err : s.err = .none
  frame : Producible s.frame = true
  written : s.cfgPinWritten = true

/-- A run is going on and has acquired its line. -/
structure State.Sending (s : State) : Prop extends s.Begun where
  acquired : s.isConfigured s.xPin = true

theorem State.Begun.congr {s t : State} (h : s.Begun) (ht : t.Sound) (hbusy : t.busy = s.busy) (hdone : t.done = s.done)
    (herr : t.err = s.err) (hframe : t.frame = s.frame) (hwritten : t.cfgPinWritten = s.cfgPinWritten) : t.Begun :=
  ⟨ht, hbusy.trans h.busy, hdone.trans h.done, herr.trans h.err, hframe ▸ h.frame, hwritten.trans h.written⟩

theorem State.Begun.recordSetup {s : State} (h : s.Begun) : s.recordSetup.Begun :=
  h.congr h.toSound.recordSetup rfl rfl rfl rfl rfl

/-- Completion leads to rest (R158, R161). -/
theorem State.Begun.finish {s : State} (h : s.Begun) : s.finish.Resting :=
  ⟨⟨h.host, h.timer, h.driver, h.driven⟩, rfl, rfl, fun _ => h.err, by simp [h.err]⟩

/-- START begins a run: it samples a frame that the encoder produces (R35, R152). -/
theorem State.Sound.startRun {s : State} (h : s.Sound) (hr : s.Ready) : s.startRun.Begun :=
  ⟨⟨h.host, h.timer, h.driver, h.driven⟩, rfl, rfl, rfl, producible_frameWord _ _ _, hr.2⟩

theorem State.Sending.hold {s : State} (h : s.Sending) (d : Dur) : (doHold d s).Sending :=
  ⟨h.toBegun.congr (h.toSound.hold d) rfl rfl rfl rfl rfl, h.acquired⟩

theorem State.Sending.setOk {s : State} (h : s.Sending) (l : Level) : (s.setOk s.xPin l).Sending :=
  ⟨h.toBegun.congr (h.toSound.setOk l h.acquired) rfl rfl rfl rfl rfl, h.acquired⟩

theorem State.Sending.moveTo {s : State} (h : s.Sending) (ph : Phase) (rp : Count) (bt : BitVec 5) :
    (s.moveTo ph rp bt).Sending :=
  ⟨h.toBegun.congr (h.toSound.moveTo ph rp bt) rfl rfl rfl rfl rfl, h.acquired⟩

/-! The operations of a run: each goes on with the run, or leads to rest. -/

theorem drvInitIfNeeded_leads {s : State} (h : s.Begun) :
    (drvInitIfNeeded s).Leads (fun t => t.Begun ∧ t.gpioInit = true) State.Resting := by
  rcases drvInitIfNeeded_cases s with ⟨hg, hd⟩ | ⟨-, -, hd⟩ | ⟨-, -, hd⟩ <;> rw [hd]
  · exact ⟨h, hg⟩
  · exact ⟨h.congr (h.toSound.popAnswer.setGpioInit.emit _) rfl rfl rfl rfl rfl, rfl⟩
  · exact h.toSound.acqFail

theorem cfgOutIfNeeded_leads {s : State} (h : s.Begun) (hg : s.gpioInit = true) :
    (cfgOutIfNeeded s.xPin s).Leads State.Sending State.Resting := by
  rcases cfgOutIfNeeded_cases s s.xPin with ⟨hc, hd⟩ | ⟨-, -, hd⟩ | ⟨-, -, hd⟩ <;> rw [hd]
  · exact ⟨h, hc⟩
  · exact ⟨h.congr ((h.toSound.popAnswer.addConfigured s.xPin hg).emit _) rfl rfl rfl rfl rfl,
      by simp [cfgOk_isConfigured]⟩
  · exact h.toSound.acqFail

/-- The acquisition: after it the run sends (R153). -/
theorem doAcq_leads {s : State} (h : s.Begun) : (doAcq s).Leads State.Sending State.Resting :=
  (drvInitIfNeeded_leads h.recordSetup).andThen fun _ ⟨ht, hg⟩ => cfgOutIfNeeded_leads ht hg

theorem doSet_leads {s : State} (h : s.Sending) (l : Level) :
    (doSet s.xPin l s).Leads State.Sending State.Resting := by
  rcases doSet_cases s s.xPin l with ⟨-, hd⟩ | ⟨-, hd⟩ <;> rw [hd]
  · exact h.setOk l
  · exact h.toSound.setFail s.xPin

theorem doSymbol_leads {s : State} (h : s.Sending) (b : Bool) : (doSymbol b s).Leads State.Sending State.Resting :=
  (doSet_leads h .high).andThen fun s1 h1 =>
    (doSet_leads (h1.hold (s1.heldHigh b)) .low).andThen fun s2 h2 => h2.hold (s2.heldLow b)

theorem sendBits_leads (bits : List Bool) {s : State} (h : s.Sending) :
    (sendBits bits s).Leads State.Sending State.Resting := by
  induction bits generalizing s with
  | nil => exact h
  | cons b bits ih => exact (doSymbol_leads h b).andThen fun _ => ih

theorem sendFrame_leads {s : State} (h : s.Sending) : (sendFrame s).Leads State.Sending State.Resting :=
  (sendBits_leads (frameBits s.frame) h).andThen fun t ht => ht.hold t.heldGap

theorem sendFrames_leads (n : Nat) {s : State} (h : s.Sending) :
    (sendFrames n s).Leads State.Sending State.Resting := by
  induction n generalizing s with
  | zero => exact h
  | succ n ih => exact (sendFrame_leads h).andThen fun _ => ih

/-- A transmission leads to rest, whatever the driver answers (R158, R197). -/
theorem doTransmit_leads {s : State} (h : s.Begun) : (doTransmit s).Leads State.Resting State.Resting :=
  (doAcq_leads h).andThen fun t ht => (sendFrames_leads t.xRetries.toNat ht).andThen fun _ hu => hu.finish

/-! The invariant and the three kinds of legal states. -/

theorem State.Inv.sound {s : State} (h : s.Inv) : s.Sound := ⟨h.host, h.timer, h.driver, h.driven⟩

theorem State.Inv.begun {s : State} (h : s.Inv) (hp : s.seq.phase ≠ .idle) : s.Begun := by
  have hb : s.busy = true := h.busy.mpr hp
  obtain ⟨hdone, herr⟩ := h.clear hb
  exact ⟨h.sound, hb, hdone, herr, h.frame hb, h.written hb⟩

theorem State.Inv.sending {s : State} (h : s.Inv) (hi : s.seq.phase ≠ .idle) (ha : s.seq.phase ≠ .acq) : s.Sending :=
  ⟨h.begun hi, (h.acquired hi ha).2⟩

/-- The position of a run that sends is in its bounds and the line has the level of its phase (R26, R135). -/
structure State.Placed (s : State) : Prop where
  notIdle : s.seq.phase ≠ .idle
  notAcq : s.seq.phase ≠ .acq
  rep : s.seq.rep.toNat < s.xRetries.toNat
  bit : s.seq.bit.toNat ≤ 24
  gapBit : s.seq.phase = .holdGap → s.seq.bit = 24
  levelHigh : s.seq.phase = .holdHi ∨ s.seq.phase = .setLo → s.level s.xPin = .high
  levelLow : s.seq.phase = .holdLo ∨ s.seq.phase = .holdGap → s.level s.xPin = .low
  levelNext : s.seq.phase = .setHi → (s.seq.rep ≠ 0 ∨ s.seq.bit ≠ 0) → s.level s.xPin = .low

theorem State.Sending.inv {s : State} (h : s.Sending) (k : s.Placed) : s.Inv where
  host := h.host
  timer := h.timer
  driver := h.driver
  driven := h.driven
  busy := iff_of_true h.busy k.notIdle
  home hp := (hp.elim k.notIdle k.notAcq).elim
  bit := k.bit
  gapBit := k.gapBit
  rep _ _ := k.rep
  clear _ := ⟨h.done, h.err⟩
  doneErr _ := h.err
  noEncodingError := by simp [h.err]
  frame _ := h.frame
  written _ := h.written
  acquired _ _ := ⟨h.driver _ h.acquired, h.acquired⟩
  levelHigh := k.levelHigh
  levelLow := k.levelLow
  levelNext := k.levelNext

/-- The state START leaves is legal: at the acquisition (R152). -/
theorem State.Inv.startRun {s : State} (h : s.Inv) (hr : s.Ready) : s.startRun.Inv := by
  have hb := h.sound.startRun hr
  exact
    { host := hb.host, timer := hb.timer, driver := hb.driver, driven := hb.driven
      busy := by simp
      home := by simp
      bit := by simp
      gapBit := by simp
      rep := by simp
      clear := fun _ => ⟨hb.done, hb.err⟩
      doneErr := fun _ => hb.err
      noEncodingError := by simp
      frame := fun _ => hb.frame
      written := fun _ => hb.written
      acquired := by simp
      levelHigh := by simp
      levelLow := by simp
      levelNext := by simp }

/-- Nothing the invariant speaks of is changed by a move of the host, but for the written mark, which stays set, and for
the program, which loses items. -/
theorem State.Inv.hostMove {s t : State} (h : s.Inv) (m : HostMove s t) : t.Inv := by
  have hhost : t.HostProgram := fun item hi => h.host item (m.prog.subset hi)
  have hwritten : s.busy = true → t.cfgPinWritten = true := fun hb => m.written (h.written hb)
  rw [m.rest]
  exact { h with host := hhost, written := hwritten }

theorem inv_keptByHost : KeptByHost State.Inv where
  move := State.Inv.hostMove
  start := State.Inv.startRun
  run h hr := (doTransmit_leads (h.sound.startRun hr)).imp (fun _ => State.Resting.inv) (fun _ => State.Resting.inv)

/-! The rows of the small-step table (R161). -/

/-- A row of the table: the run goes on at its next position, or the failure entry has led to rest, where no advance
follows. -/
theorem sequencerStep_inv_of {s t : State} {i : Instr} {r : Res} (hi : s.seqInstr = some i)
    (he : exec i s = r.outcome) (hr : r.Leads (fun u => u.advanceUnlessRaised.Inv) State.Resting)
    (ht : sequencerStep s = .next t) : t.Inv := by
  simp only [sequencerStep, hi, he] at ht
  cases r with
  | ok u =>
    obtain rfl : u.advanceUnlessRaised = t := Host.Outcome.next.inj ht
    exact hr
  | stopped u =>
    obtain rfl : u.advanceUnlessRaised = t := Host.Outcome.next.inj ht
    have hrest : u.Resting := hr
    have hidle : u.advanceUnlessRaised = u := by simp [State.advanceUnlessRaised, hrest.idle]
    exact hidle.symm ▸ hrest.inv
  | refused why => cases ht

theorem advanceUnlessRaised_acq {s : State} (h : s.seq.phase = .acq) :
    s.advanceUnlessRaised = if s.xRetries = 0 then s.finish else s.moveTo .setHi 0 0 := by
  simp [State.advanceUnlessRaised, State.advance, h]

theorem advanceUnlessRaised_setHi {s : State} (h : s.seq.phase = .setHi) :
    s.advanceUnlessRaised = s.moveTo .holdHi s.seq.rep s.seq.bit := by
  simp [State.advanceUnlessRaised, State.advance, h]

theorem advanceUnlessRaised_holdHi {s : State} (h : s.seq.phase = .holdHi) :
    s.advanceUnlessRaised = s.moveTo .setLo s.seq.rep s.seq.bit := by
  simp [State.advanceUnlessRaised, State.advance, h]

theorem advanceUnlessRaised_setLo {s : State} (h : s.seq.phase = .setLo) :
    s.advanceUnlessRaised = s.moveTo .holdLo s.seq.rep s.seq.bit := by
  simp [State.advanceUnlessRaised, State.advance, h]

theorem advanceUnlessRaised_holdLo {s : State} (h : s.seq.phase = .holdLo) :
    s.advanceUnlessRaised =
      if s.seq.bit.toNat < 24 then s.moveTo .setHi s.seq.rep (s.seq.bit + 1) else s.moveTo .holdGap s.seq.rep 24 := by
  simp [State.advanceUnlessRaised, State.advance, h]

theorem advanceUnlessRaised_holdGap {s : State} (h : s.seq.phase = .holdGap) :
    s.advanceUnlessRaised =
      if s.seq.rep.toNat + 1 < s.xRetries.toNat then s.moveTo .setHi (s.seq.rep + 1) 0 else s.finish := by
  simp [State.advanceUnlessRaised, State.advance, h]

/-- After the acquisition: the first symbol of the first repetition, or nothing to send. -/
theorem inv_after_acq {u : State} (h : u.Sending) (hp : u.seq.phase = .acq) : u.advanceUnlessRaised.Inv := by
  rw [advanceUnlessRaised_acq hp]
  split
  case isTrue => exact h.finish.inv
  case isFalse hn =>
    have hpos : 0 < u.xRetries.toNat := Nat.pos_of_ne_zero fun hz => hn (BitVec.eq_of_toNat_eq hz)
    exact (h.moveTo _ _ _).inv
      { notIdle := by simp, notAcq := by simp, rep := by simpa using hpos, bit := by simp
        gapBit := by simp, levelHigh := by simp, levelLow := by simp, levelNext := by simp }

theorem inv_after_setHi {s : State} (h : s.Inv) (hp : s.seq.phase = .setHi) :
    (s.setOk s.xPin .high).advanceUnlessRaised.Inv := by
  have hs : s.Sending := h.sending (by simp [hp]) (by simp [hp])
  have hrep : s.seq.rep.toNat < s.xRetries.toNat := h.rep (by simp [hp]) (by simp [hp])
  rw [advanceUnlessRaised_setHi (by simpa using hp)]
  exact ((hs.setOk .high).moveTo _ _ _).inv
    { notIdle := by simp, notAcq := by simp, rep := by simpa using hrep, bit := by simpa using h.bit
      gapBit := by simp, levelHigh := by simp, levelLow := by simp, levelNext := by simp }

theorem inv_after_holdHi {s : State} (h : s.Inv) (hp : s.seq.phase = .holdHi) (d : Dur) :
    (doHold d s).advanceUnlessRaised.Inv := by
  have hs : s.Sending := h.sending (by simp [hp]) (by simp [hp])
  have hrep : s.seq.rep.toNat < s.xRetries.toNat := h.rep (by simp [hp]) (by simp [hp])
  have hhigh : s.level s.xPin = .high := h.levelHigh (.inl hp)
  rw [advanceUnlessRaised_holdHi (by simpa using hp)]
  exact ((hs.hold d).moveTo _ _ _).inv
    { notIdle := by simp, notAcq := by simp, rep := by simpa using hrep, bit := by simpa using h.bit
      gapBit := by simp, levelHigh := by simpa using hhigh, levelLow := by simp, levelNext := by simp }

theorem inv_after_setLo {s : State} (h : s.Inv) (hp : s.seq.phase = .setLo) :
    (s.setOk s.xPin .low).advanceUnlessRaised.Inv := by
  have hs : s.Sending := h.sending (by simp [hp]) (by simp [hp])
  have hrep : s.seq.rep.toNat < s.xRetries.toNat := h.rep (by simp [hp]) (by simp [hp])
  rw [advanceUnlessRaised_setLo (by simpa using hp)]
  exact ((hs.setOk .low).moveTo _ _ _).inv
    { notIdle := by simp, notAcq := by simp, rep := by simpa using hrep, bit := by simpa using h.bit
      gapBit := by simp, levelHigh := by simp, levelLow := by simp, levelNext := by simp }

/-- After the LOW phase of a symbol: the next symbol, or the gap after the 25th. -/
theorem inv_after_holdLo {s : State} (h : s.Inv) (hp : s.seq.phase = .holdLo) (d : Dur) :
    (doHold d s).advanceUnlessRaised.Inv := by
  have hs : s.Sending := h.sending (by simp [hp]) (by simp [hp])
  have hrep : s.seq.rep.toNat < s.xRetries.toNat := h.rep (by simp [hp]) (by simp [hp])
  have hlow : s.level s.xPin = .low := h.levelLow (.inl hp)
  rw [advanceUnlessRaised_holdLo (by simpa using hp)]
  split
  case isTrue hb =>
    have hbit : (s.seq.bit + 1).toNat ≤ 24 := by
      rw [doHold_seq] at hb
      bv_omega
    exact ((hs.hold d).moveTo _ _ _).inv
      { notIdle := by simp, notAcq := by simp, rep := by simpa using hrep, bit := by simpa using hbit
        gapBit := by simp, levelHigh := by simp, levelLow := by simp, levelNext := by simp [hlow] }
  case isFalse =>
    exact ((hs.hold d).moveTo _ _ _).inv
      { notIdle := by simp, notAcq := by simp, rep := by simpa using hrep, bit := by simp
        gapBit := by simp, levelHigh := by simp, levelLow := by simpa using hlow, levelNext := by simp }

/-- After the gap: the first symbol of the next repetition, or the end. -/
theorem inv_after_holdGap {s : State} (h : s.Inv) (hp : s.seq.phase = .holdGap) (d : Dur) :
    (doHold d s).advanceUnlessRaised.Inv := by
  have hs : s.Sending := h.sending (by simp [hp]) (by simp [hp])
  have hlow : s.level s.xPin = .low := h.levelLow (.inr hp)
  rw [advanceUnlessRaised_holdGap (by simpa using hp)]
  split
  case isTrue hr =>
    have hrep : (s.seq.rep + 1).toNat < s.xRetries.toNat := by
      rw [doHold_seq, doHold_xRetries] at hr
      bv_omega
    exact ((hs.hold d).moveTo _ _ _).inv
      { notIdle := by simp, notAcq := by simp, rep := by simpa using hrep, bit := by simp
        gapBit := by simp, levelHigh := by simp, levelLow := by simp, levelNext := by simp [hlow] }
  case isFalse => exact (hs.hold d).finish.inv

/-- The acquisition of a run leaves the sequencer at the acquisition, and its line acquired. -/
theorem doAcq_leads_inv {s : State} (h : s.Inv) (hp : s.seq.phase = .acq) :
    (doAcq s).Leads (fun u => u.advanceUnlessRaised.Inv) State.Resting := by
  have hleads := doAcq_leads (h.begun (by simp [hp]))
  have hends := ends_acq s
  cases hd : doAcq s with
  | ok u =>
    rw [hd] at hleads hends
    obtain ⟨-, -, -, hseq⟩ := hends
    exact inv_after_acq hleads (hseq ▸ hp)
  | stopped u => rwa [hd] at hleads
  | refused why => trivial

/-- A Set of a run: the line has its level, or the failure entry was taken. -/
theorem doSet_leads_inv {s : State} (h : s.Inv) {l : Level} (hok : (s.setOk s.xPin l).advanceUnlessRaised.Inv) :
    (doSet s.xPin l s).Leads (fun u => u.advanceUnlessRaised.Inv) State.Resting := by
  rcases doSet_cases s s.xPin l with ⟨-, hd⟩ | ⟨-, hd⟩ <;> rw [hd]
  · exact hok
  · exact h.sound.setFail s.xPin

/-- Every row of the small-step table leads from a legal state to a legal state (R161). -/
theorem sequencerStep_inv {s t : State} (h : s.Inv) (ht : sequencerStep s = .next t) : t.Inv := by
  cases hp : s.seq.phase with
  | idle =>
    obtain rfl : s = t := by simpa [sequencerStep, State.seqInstr, hp] using ht
    exact h
  | acq => exact sequencerStep_inv_of (by simp [State.seqInstr, hp]) (exec_acq s) (doAcq_leads_inv h hp) ht
  | setHi =>
    exact sequencerStep_inv_of (by simp [State.seqInstr, hp]) (exec_sethi _ s)
      (doSet_leads_inv h (inv_after_setHi h hp)) ht
  | holdHi =>
    exact sequencerStep_inv_of (i := .hold (s.heldHigh s.currentBit)) (r := .ok _) (by simp [State.seqInstr, hp])
      (exec_hold _ s) (inv_after_holdHi h hp _) ht
  | setLo =>
    exact sequencerStep_inv_of (by simp [State.seqInstr, hp]) (exec_setlo _ s)
      (doSet_leads_inv h (inv_after_setLo h hp)) ht
  | holdLo =>
    exact sequencerStep_inv_of (i := .hold (s.heldLow s.currentBit)) (r := .ok _) (by simp [State.seqInstr, hp])
      (exec_hold _ s) (inv_after_holdLo h hp _) ht
  | holdGap =>
    exact sequencerStep_inv_of (r := .ok _) (by simp [State.seqInstr, hp]) (exec_gap s) (inv_after_holdGap h hp _) ht

/-- A step of the host's program: its item is a host operation (R81, R225). -/
theorem programStep_inv {s t : State} (h : s.Inv) (ht : programStep s = .next t) : t.Inv := by
  rcases programStep_cases ht with ⟨-, rfl⟩ | ⟨item, rest, i, hp, hd, he⟩
  · exact h
  · have hi : isHostOp i = true := h.host item (by simp [hp]) i hd
    exact inv_keptByHost.exec_next hi (h.hostMove (hostMove_setProg s (hp ▸ List.suffix_cons item rest))) he

theorem step_inv {s t : State} (h : s.Inv) (ht : step s = .next t) : t.Inv := by
  have hpop : s.popTurn.Inv := h.hostMove (hostMove_popTurn s)
  obtain ⟨-, ⟨-, hs⟩ | ⟨-, -, -, hs⟩ | ⟨-, -, -, hs⟩ | ⟨-, -, hs⟩⟩ := step_cases ht
  · exact programStep_inv h hs
  · exact programStep_inv hpop hs
  · exact sequencerStep_inv hpop hs
  · exact sequencerStep_inv h hs

theorem reset_resting : State.reset.Resting where
  host := by simp [State.HostProgram, State.reset]
  timer := rfl
  driver := by simp
  driven := by simp
  idle := rfl
  busy := rfl
  doneErr := by simp [State.reset]
  noEncodingError := by simp [State.reset]

theorem reset_acqOnce : State.reset.AcqOnce :=
  ⟨rfl, fun p => by rw [reset_isConfigured]; rfl⟩

end Sys2Proof.Machine
end

section
/-! PROOF. The obligations about the state (spec/10_state.md): the invariant, what no step undoes, START, the levels and the
values after reset. -/

namespace Sys2Proof.Proofs

open Sys2Proof.Machine

/-- Settles O51: host operations keep the invariant by their moves and runs, the rows of R161 one by one. -/
theorem stepKeepsInvariant : Obligations.StepKeepsInvariant := fun _ _ => step_inv

/-- Settles O11, from the three cases of START. -/
theorem startBegins : Obligations.StartBegins := by
  refine ⟨fun s hb hw => ?_, fun s hb hw => ?_, fun s hb => ?_, rfl, fun v s t ht => ?_⟩
  · rw [exec_start, doStart_ready ⟨hb, hw⟩, Res.outcome_ok]
    rfl
  · rw [exec_start, doStart_unwritten hb hw, Res.outcome_refused]
  · exact ⟨s.setFaulted, by rw [exec_start, doStart_busy hb, Res.outcome_stopped], State.setFaulted_faulted s⟩
  · have hstore : doHostWrite 3 v s = .ok (s.storeReg 3 v) := by simp [doHostWrite, isStartWrite]
    rw [exec_wrcfg, hstore] at ht
    obtain rfl : s.storeReg 3 v = t := Host.Outcome.next.inj ht
    rfl

/-- Settles O29: no instruction and no advance of the sequencer gives up what was acquired. -/
theorem acquisitionGrows : Obligations.AcquisitionGrows := fun _ _ ht => ⟨(step_grows ht).gpio, (step_grows ht).pins⟩

/-- Settles O46: no instruction and no advance of the sequencer writes the timing table. -/
theorem timingHardwired : Obligations.TimingHardwired := fun _ _ ht => (step_grows ht).timing

/-- Settles O47: every instruction only appends to the trace. -/
theorem traceGrows : Obligations.TraceGrows := fun _ _ ht => (step_grows ht).trace

/-- Settles O57, operation by operation. -/
theorem levelsChangeBySetOnly : Obligations.LevelsChangeBySetOnly := by
  rintro s t i (rfl | ⟨d, rfl⟩ | ⟨r, v, rfl⟩ | ⟨r, rfl⟩ | rfl | rfl | rfl | ⟨p, rfl⟩ | ⟨d, rfl⟩) ht
  · exact Host.Outcome.next.inj ht ▸ doHold_levels s s.heldGap
  · exact Host.Outcome.next.inj ht ▸ doHold_levels s d
  · exact (doHostWrite_keepsLevels r v s).next ht
  · exact Host.Outcome.next.inj ht ▸ (hostMove_read s r).levels
  · exact (doStart_keepsLevels s).next ht
  · exact (doAcq_keepsLevels s).next ht
  · exact (doDrvInit_keepsLevels s).next ht
  · exact (doCfgOut_keepsLevels p s).next ht
  · exact Host.Outcome.next.inj ht ▸ State.recordPause_levels s d

/-- Settles O9: bit 0 of the value decides whether the write is START; a plain write of register 7 is ignored. -/
theorem ctrlWrite : Obligations.CtrlWrite := by
  refine fun v s => ⟨fun hv => ?_, fun hv => ?_⟩
  · have hstart : isStartWrite 7 v = true := by simp [isStartWrite, hv]
    rw [exec_wrcfg, doHostWrite, if_pos hstart, exec_start]
  · have hplain : isStartWrite 7 v = false := by simp [isStartWrite, hv]
    rw [exec_wrcfg, doHostWrite, hplain, if_neg Bool.false_ne_true, storeReg_ignored s v (by decide), Res.outcome_ok]

/-- Settles O49: each value as `State.reset` gives it. -/
theorem resetValues : Obligations.ResetValues :=
  ⟨rfl, rfl, rfl, rfl, rfl, rfl, rfl, rfl, rfl, rfl, reset_isConfigured, reset_level, rfl, rfl⟩

/-- Settles O50: the state after reset is at rest, with an empty trace and nothing acquired. -/
theorem resetInvariant : Obligations.ResetInvariant := ⟨reset_resting.inv, reset_acqOnce, rfl⟩

end Sys2Proof.Proofs
end

section
/-! SUPPORT. What the sequencer keeps: the induction over the operations of a run, once for the big step of
spec/42_frame_repeater.md R158 and once for the small steps of R161, and with the host's moves over every step of a host's
program. -/

namespace Sys2Proof.Machine

/-- The instruction of the sequencer's present phase works on the line of the run (R161, column "step"). -/
theorem seqInstr_cases {s : State} {i : Instr} (h : s.seqInstr = some i) :
    i = .acq ∨ (i = .sethi s.xPin ∨ i = .setlo s.xPin) ∨ (∃ d, i = .hold d) ∨ i = .gap := by
  unfold State.seqInstr at h
  split at h
  case h_1 => cases h
  case h_2 => exact .inl (Option.some.inj h).symm
  case h_3 => exact .inr (.inl (.inl (Option.some.inj h).symm))
  case h_5 => exact .inr (.inl (.inr (Option.some.inj h).symm))
  case h_7 => exact .inr (.inr (.inr (Option.some.inj h).symm))
  all_goals exact .inr (.inr (.inl ⟨_, (Option.some.inj h).symm⟩))

/-- P is kept by the operations of a run, whatever the driver answers, and by the moves of the sequencer's position. -/
structure KeptByRun (P : State → Prop) : Prop where
  acq : ∀ {s : State}, P s → (doAcq s).Leads P P
  set : ∀ {s : State}, P s → ∀ l, (doSet s.xPin l s).Leads P P
  hold : ∀ {s : State}, P s → ∀ d, P (doHold d s)
  moveTo : ∀ {s : State}, P s → ∀ ph rp bt, P (s.moveTo ph rp bt)
  finish : ∀ {s : State}, P s → P s.finish

namespace KeptByRun

variable {P : State → Prop}

theorem symbol_leads (h : KeptByRun P) {s : State} (hs : P s) (b : Bool) : (doSymbol b s).Leads P P :=
  (h.set hs .high).andThen fun s1 h1 =>
    (h.set (h.hold h1 (s1.heldHigh b)) .low).andThen fun s2 h2 => h.hold h2 (s2.heldLow b)

theorem bits_leads (h : KeptByRun P) (bits : List Bool) {s : State} (hs : P s) : (sendBits bits s).Leads P P := by
  induction bits generalizing s with
  | nil => exact hs
  | cons b bits ih => exact (h.symbol_leads hs b).andThen fun _ => ih

theorem frames_leads (h : KeptByRun P) (n : Nat) {s : State} (hs : P s) : (sendFrames n s).Leads P P := by
  induction n generalizing s with
  | zero => exact hs
  | succ n ih =>
    have hframe : (sendFrame s).Leads P P :=
      (h.bits_leads (frameBits s.frame) hs).andThen fun t ht => h.hold ht t.heldGap
    exact hframe.andThen fun _ => ih

/-- The big step (R158). -/
theorem transmit_leads (h : KeptByRun P) {s : State} (hs : P s) : (doTransmit s).Leads P P :=
  (h.acq hs).andThen fun t ht => (h.frames_leads t.xRetries.toNat ht).andThen fun _ hu => h.finish hu

theorem advanceUnlessRaised (h : KeptByRun P) {s : State} (hs : P s) : P s.advanceUnlessRaised := by
  unfold State.advanceUnlessRaised
  split
  · exact hs
  · rcases advance_cases s with ha | ⟨ph, rp, bt, ha⟩ | ha <;> rw [ha]
    · exact hs
    · exact h.moveTo hs ph rp bt
    · exact h.finish hs

theorem seqInstr_next (h : KeptByRun P) {s t : State} {i : Instr} (hs : P s) (hi : s.seqInstr = some i)
    (ht : exec i s = .next t) : P t := by
  rcases seqInstr_cases hi with rfl | (rfl | rfl) | ⟨d, rfl⟩ | rfl
  · exact (h.acq hs).next ht
  · exact (h.set hs .high).next ht
  · exact (h.set hs .low).next ht
  · exact Host.Outcome.next.inj ht ▸ h.hold hs d
  · exact Host.Outcome.next.inj ht ▸ h.hold hs s.heldGap

/-- The small steps (R161). -/
theorem sequencerStep_next (h : KeptByRun P) {s t : State} (hs : P s) (ht : sequencerStep s = .next t) : P t := by
  rcases sequencerStep_cases ht with ⟨-, rfl⟩ | ⟨i, u, hi, he, rfl⟩
  · exact hs
  · exact h.advanceUnlessRaised (h.seqInstr_next hs hi he)

/-- With the moves of the host and an accepted START beside them: what a host operation waits for is a run too. -/
theorem keptByHost (h : KeptByRun P) (hmove : ∀ {s t : State}, P s → HostMove s t → P t)
    (hstart : ∀ {s : State}, P s → P s.startRun) : KeptByHost P where
  move := hmove
  start hs _ := hstart hs
  run hs _ := h.transmit_leads (hstart hs)

/-- What the host and the sequencer keep, every step of a program of host operations keeps. -/
theorem step_next (h : KeptByRun P) (k : KeptByHost P) {s t : State} (hp : s.HostProgram) (hs : P s)
    (ht : step s = .next t) : P t := by
  have hprogram : ∀ u, u.HostProgram → P u → programStep u = .next t → P t := by
    intro u hpu hu ht
    rcases programStep_cases ht with ⟨-, rfl⟩ | ⟨item, rest, i, hprog, hd, he⟩
    · exact hu
    · have hi : isHostOp i = true := hpu item (by simp [hprog]) i hd
      exact k.exec_next hi (k.move hu (hostMove_setProg u (hprog ▸ List.suffix_cons item rest))) he
  have hpop : P s.popTurn := k.move hs (hostMove_popTurn s)
  obtain ⟨-, ⟨-, hm⟩ | ⟨-, -, -, hm⟩ | ⟨-, -, -, hm⟩ | ⟨-, -, hm⟩⟩ := step_cases ht
  · exact hprogram s hp hs hm
  · exact hprogram s.popTurn hp hpop hm
  · exact h.sequencerStep_next hpop hm
  · exact h.sequencerStep_next hs hm

end KeptByRun

end Sys2Proof.Machine
end

section
/-! SUPPORT. The acquisition operations are recorded once each (spec/20_memory.md R55; spec/42_frame_repeater.md R153 to
R155): only a `DrvInit` answered ok with GPIO_INIT = 0 and a `CfgOut(p)` answered ok with p not in CONFIGURED touch what
`AcqOnce` speaks of. -/

namespace Sys2Proof.Machine

namespace State.AcqOnce

variable {s t : State}

theorem congr (h : s.AcqOnce) (htrace : t.trace = s.trace) (hgpio : t.gpioInit = s.gpioInit)
    (hconf : t.configured = s.configured) : t.AcqOnce := by
  unfold State.AcqOnce State.isConfigured
  rw [htrace, hgpio, hconf]
  exact h

/-- An event that is no acquisition operation is not counted. -/
theorem emit (h : s.AcqOnce) {e : Event} (hinit : e ≠ .drvInit) (hcfg : ∀ p, e ≠ .cfgOut p) : (s.emit e).AcqOnce := by
  obtain ⟨hdrv, hpins⟩ := h
  refine ⟨?_, fun p => ?_⟩
  · rw [State.emit_trace, List.count_append, List.count_singleton, hdrv]
    simp [hinit]
  · rw [State.emit_trace, List.count_append, List.count_singleton, hpins p]
    simp [hcfg p]

theorem initOk (h : s.AcqOnce) (hg : s.gpioInit = false) : s.initOk.AcqOnce := by
  obtain ⟨hdrv, hpins⟩ := h
  refine ⟨?_, fun p => ?_⟩
  · rw [State.initOk_trace, List.count_append, hdrv, hg, State.initOk_gpioInit]
    rfl
  · rw [State.initOk_trace, List.count_append, hpins p, State.initOk_isConfigured]
    rfl

theorem cfgOk (h : s.AcqOnce) {p : Pin} (hc : s.isConfigured p = false) : (s.cfgOk p).AcqOnce := by
  obtain ⟨hdrv, hpins⟩ := h
  refine ⟨?_, fun q => ?_⟩
  · rw [State.cfgOk_trace, List.count_append, hdrv, State.cfgOk_gpioInit]
    rfl
  · rw [State.cfgOk_trace, List.count_append, List.count_singleton, hpins q, cfgOk_isConfigured]
    by_cases hq : q = p
    · simp [hq, hc]
    · simp [beq_eq_false_iff_ne.mpr hq, Ne.symm hq]

theorem hold (h : s.AcqOnce) (d : Dur) : (doHold d s).AcqOnce :=
  (h.congr (t := (s.loadTimer 0).recordInterval d) rfl rfl rfl).emit (by simp) (by simp)

theorem acqFail (h : s.AcqOnce) : s.acqFail.AcqOnce := h.congr (by simp) (by simp) (by simp)

theorem drvInitIfNeeded_leads (h : s.AcqOnce) : (drvInitIfNeeded s).Leads State.AcqOnce State.AcqOnce := by
  rcases drvInitIfNeeded_cases s with ⟨-, hd⟩ | ⟨hg, -, hd⟩ | ⟨-, -, hd⟩ <;> rw [hd]
  · exact h
  · exact h.initOk hg
  · exact h.acqFail

theorem cfgOutIfNeeded_leads (h : s.AcqOnce) (p : Pin) :
    (cfgOutIfNeeded p s).Leads State.AcqOnce State.AcqOnce := by
  rcases cfgOutIfNeeded_cases s p with ⟨-, hd⟩ | ⟨hc, -, hd⟩ | ⟨-, -, hd⟩ <;> rw [hd]
  · exact h
  · exact h.cfgOk hc
  · exact h.acqFail

theorem acq_leads (h : s.AcqOnce) : (doAcq s).Leads State.AcqOnce State.AcqOnce :=
  (h.congr (t := s.recordSetup) rfl rfl rfl).drvInitIfNeeded_leads.andThen fun t ht =>
    ht.cfgOutIfNeeded_leads t.xPin

theorem set_leads (h : s.AcqOnce) (p : Pin) (l : Level) : (doSet p l s).Leads State.AcqOnce State.AcqOnce := by
  rcases doSet_cases s p l with ⟨-, hd⟩ | ⟨-, hd⟩ <;> rw [hd]
  · exact (h.congr (t := s.popAnswer.setLevel p l) rfl rfl rfl).emit (by simp) (by simp)
  · exact h.congr (by simp) (by simp) (by simp)

theorem hostMove (h : s.AcqOnce) (m : HostMove s t) : t.AcqOnce := by
  rw [m.rest]
  exact h.congr rfl rfl rfl

end State.AcqOnce

theorem acqOnce_keptByRun : KeptByRun State.AcqOnce where
  acq h := h.acq_leads
  set h l := h.set_leads _ l
  hold h d := h.hold d
  moveTo h _ _ _ := h.congr rfl rfl rfl
  finish h := h.congr rfl rfl rfl

theorem acqOnce_keptByHost : KeptByHost State.AcqOnce :=
  acqOnce_keptByRun.keptByHost (fun h m => h.hostMove m) fun h => h.congr rfl rfl rfl

end Sys2Proof.Machine
end

section
/-! SUPPORT. What a run sampled at START stays sampled (spec/20_memory.md R59; spec/10_state.md R23, R25, R36): while BUSY
no START begins a run, and nothing else writes FRAME or the X_ copies. -/

namespace Sys2Proof.Machine

/-- FRAME and the X_ copies are those of s. -/
def SameSample (s t : State) : Prop :=
  t.frame = s.frame ∧ t.xPin = s.xPin ∧ t.xRetries = s.xRetries ∧ t.xGap = s.xGap ∧ t.xLat = s.xLat

theorem SameSample.refl (s : State) : SameSample s s := ⟨rfl, rfl, rfl, rfl, rfl⟩

theorem SameSample.trans {s t u : State} (h : SameSample s t) (k : SameSample t u) : SameSample s u := by
  obtain ⟨hf, hp, hr, hg, hl⟩ := h
  obtain ⟨kf, kp, kr, kg, kl⟩ := k
  exact ⟨kf.trans hf, kp.trans hp, kr.trans hr, kg.trans hg, kl.trans hl⟩

theorem Ran.sameSample {s t : State} (h : Ran s t) : SameSample s t := by
  obtain ⟨hp, hr, hg, hl, hf, -⟩ := h.frame.keeps
  exact ⟨hf, hp, hr, hg, hl⟩

theorem HostMove.sameSample {s t : State} (h : HostMove s t) : SameSample s t := by
  rw [h.rest]
  exact SameSample.refl _

theorem HostMove.busy {s t : State} (h : HostMove s t) : t.busy = s.busy := by
  rw [h.rest]

/-- A Set of any line, X_PIN or not. -/
theorem doSet_sameSample (p : Pin) (l : Level) (s : State) : (doSet p l s).Leads (SameSample s) (SameSample s) := by
  rcases doSet_cases s p l with ⟨-, h⟩ | ⟨-, h⟩ <;> rw [h]
  · exact ⟨by simp, by simp, by simp, by simp, by simp⟩
  · exact ⟨by simp, by simp, by simp, by simp, by simp⟩

theorem doDrvInit_sameSample (s : State) : (doDrvInit s).Leads (SameSample s) (SameSample s) := by
  cases ha : s.answer with
  | ok => rw [doDrvInit_ok ha]; exact ⟨by simp, by simp, by simp, by simp, by simp⟩
  | fail => rw [doDrvInit_fail ha]; exact (ran_acqFail s).sameSample

theorem doCfgOut_sameSample (p : Pin) (s : State) : (doCfgOut p s).Leads (SameSample s) (SameSample s) := by
  cases ha : s.answer with
  | ok => rw [doCfgOut_ok ha]; exact ⟨by simp, by simp, by simp, by simp, by simp⟩
  | fail => rw [doCfgOut_fail ha]; exact (ran_acqFail s).sameSample

theorem sameSample_of_ran {s t : State} {r : Res} (h : r.All (Ran s)) (ht : r.outcome = .next t) : SameSample s t :=
  Ran.sameSample (h.leads.next ht)

theorem sameSample_keptByRun (s₀ : State) : KeptByRun (SameSample s₀) where
  acq h := (ran_acq _).leads.imp (fun _ r => h.trans r.sameSample) fun _ r => h.trans r.sameSample
  set h l := (doSet_sameSample _ l _).imp (fun _ r => h.trans r) fun _ r => h.trans r
  hold h d := h.trans (ran_hold d _).sameSample
  moveTo h _ _ _ := h.trans (SameSample.refl _)
  finish h := h.trans (SameSample.refl _)

/-- A host operation while BUSY begins no run (R36, R152, R226). -/
theorem busySample_keptByHost (s₀ : State) : KeptByHost fun t => t.busy = true ∧ SameSample s₀ t where
  move := fun ⟨hb, hs⟩ m => ⟨m.busy.trans hb, hs.trans m.sameSample⟩
  start := fun ⟨hb, _⟩ ⟨hidle, _⟩ => absurd hb (by simp [hidle])
  run := fun ⟨hb, _⟩ ⟨hidle, _⟩ => absurd hb (by simp [hidle])

/-- Whatever the instruction: one that is no host operation never samples. -/
theorem exec_sameSample {i : Instr} {s t : State} (hb : s.busy = true) (ht : exec i s = .next t) : SameSample s t := by
  cases hi : isHostOp i with
  | true => exact ((busySample_keptByHost s).exec_next hi ⟨hb, SameSample.refl s⟩ ht).2
  | false =>
    cases i <;> simp only [isHostOp, Bool.true_eq_false] at hi
    case bit0 => exact sameSample_of_ran (ran_symbol false s) ht
    case bit1 => exact sameSample_of_ran (ran_symbol true s) ht
    case gap => exact Host.Outcome.next.inj ht ▸ (ran_hold s.heldGap s).sameSample
    case sethi p => exact (doSet_sameSample p .high s).next ht
    case setlo p => exact (doSet_sameSample p .low s).next ht
    case hold d => exact Host.Outcome.next.inj ht ▸ (ran_hold d s).sameSample
    case acq => exact sameSample_of_ran (ran_acq s) ht
    case drvinit => exact (doDrvInit_sameSample s).next ht
    case cfgout p => exact (doCfgOut_sameSample p s).next ht
    case transmit => exact sameSample_of_ran (ran_transmit s) ht

theorem programStep_sameSample {s t : State} (hb : s.busy = true) (ht : programStep s = .next t) : SameSample s t := by
  rcases programStep_cases ht with ⟨-, rfl⟩ | ⟨item, rest, i, hp, -, he⟩
  · exact SameSample.refl _
  · have hm : HostMove s { s with prog := rest } := hostMove_setProg s (hp ▸ List.suffix_cons item rest)
    exact hm.sameSample.trans (exec_sameSample (hm.busy.trans hb) he)

theorem step_sameSample {s t : State} (hb : s.busy = true) (ht : step s = .next t) : SameSample s t := by
  have hpop : SameSample s s.popTurn := (hostMove_popTurn s).sameSample
  obtain ⟨-, ⟨-, h⟩ | ⟨-, -, -, h⟩ | ⟨-, -, -, h⟩ | ⟨-, -, h⟩⟩ := step_cases ht
  · exact programStep_sameSample hb h
  · exact hpop.trans (programStep_sameSample hb h)
  · exact (sameSample_keptByRun s).sequencerStep_next hpop h
  · exact (sameSample_keptByRun s).sequencerStep_next (SameSample.refl s) h

end Sys2Proof.Machine
end

section
/-! SUPPORT. What the host writes reaches no operation of a run (spec/20_memory.md R59; spec/10_state.md R36): leaving the
host's fields out of the state before an operation of the sequencer is the same as leaving them out after it. -/

namespace Sys2Proof.Machine

/-- The result with `f` applied to the state it carries. -/
def Res.map (f : State → State) : Res → Res
  | .ok s => .ok (f s)
  | .stopped s => .stopped (f s)
  | .refused r => .refused r

/-- The outcome with `f` applied to its next state. -/
def mapNext (f : State → State) : Host.Outcome State Fault Refusal → Host.Outcome State Fault Refusal
  | .next s => .next (f s)
  | .fault r => .fault r
  | .refused r => .refused r

@[simp] theorem mapNext_next (f : State → State) (s : State) : mapNext f (.next s) = .next (f s) := rfl

theorem mapNext_outcome (f : State → State) (r : Res) : mapNext f r.outcome = (r.map f).outcome := by
  cases r <;> rfl

theorem sameOutcome_of_mapNext_eq {f : State → State} {x y : Host.Outcome State Fault Refusal}
    (h : mapNext f x = mapNext f y) : SameOutcome f x y := by
  cases x <;> cases y <;> simp_all [mapNext, SameOutcome]

/-- Two operations that commute with `f` still do so one after the other. -/
theorem Res.map_andThen {f : State → State} {k : State → Res} (hk : ∀ t, (k t).map f = k (f t)) (r : Res) :
    (r.andThen k).map f = (r.map f).andThen k := by
  cases r with
  | ok t => exact hk t
  | stopped t => rfl
  | refused why => rfl

/-! The operations of a run. -/

theorem doSet_eraseHost (p : Pin) (l : Level) (s : State) :
    (doSet p l s).map State.eraseHost = doSet p l s.eraseHost := by
  cases ha : s.answer with
  | ok => rw [doSet_ok ha, doSet_ok (s := s.eraseHost) ha]; rfl
  | fail => rw [doSet_fail ha, doSet_fail (s := s.eraseHost) ha]; rfl

theorem doHold_eraseHost (d : Dur) (s : State) : (doHold d s).eraseHost = doHold d s.eraseHost := rfl

theorem drvInitIfNeeded_eraseHost (s : State) :
    (drvInitIfNeeded s).map State.eraseHost = drvInitIfNeeded s.eraseHost := by
  rcases drvInitIfNeeded_cases s with ⟨hg, h⟩ | ⟨hg, ha, h⟩ | ⟨hg, ha, h⟩ <;> rw [h]
  · rw [drvInitIfNeeded_true (s := s.eraseHost) hg]; rfl
  · rw [drvInitIfNeeded_ok (s := s.eraseHost) hg ha]; rfl
  · rw [drvInitIfNeeded_fail (s := s.eraseHost) hg ha]; rfl

theorem cfgOutIfNeeded_eraseHost (p : Pin) (s : State) :
    (cfgOutIfNeeded p s).map State.eraseHost = cfgOutIfNeeded p s.eraseHost := by
  rcases cfgOutIfNeeded_cases s p with ⟨hc, h⟩ | ⟨hc, ha, h⟩ | ⟨hc, ha, h⟩ <;> rw [h]
  · rw [cfgOutIfNeeded_true (s := s.eraseHost) hc]; rfl
  · rw [cfgOutIfNeeded_ok (s := s.eraseHost) hc ha]; rfl
  · rw [cfgOutIfNeeded_fail (s := s.eraseHost) hc ha]; rfl

theorem doAcq_eraseHost (s : State) : (doAcq s).map State.eraseHost = doAcq s.eraseHost := by
  unfold doAcq
  rw [Res.map_andThen fun t => cfgOutIfNeeded_eraseHost t.xPin t, drvInitIfNeeded_eraseHost]
  rfl

/-! A step of the sequencer. -/

theorem seqInstr_eraseHost (s : State) : s.eraseHost.seqInstr = s.seqInstr := rfl

/-- The instruction of a phase reads none of the host's fields. -/
theorem exec_eraseHost {s : State} {i : Instr} (hi : s.seqInstr = some i) :
    mapNext State.eraseHost (exec i s) = exec i s.eraseHost := by
  rcases seqInstr_cases hi with rfl | (rfl | rfl) | ⟨d, rfl⟩ | rfl
  · rw [exec_acq, exec_acq, mapNext_outcome, doAcq_eraseHost]
  · rw [exec_sethi, exec_sethi, mapNext_outcome, doSet_eraseHost]
  · rw [exec_setlo, exec_setlo, mapNext_outcome, doSet_eraseHost]
  · rw [exec_hold, exec_hold, mapNext_next, doHold_eraseHost]
  · rw [exec_gap, exec_gap, mapNext_next, doHold_eraseHost]
    rfl

/-- Where the position moves to depends on the position and X_RETRIES only (R161). -/
theorem advanceUnlessRaised_eraseHost (s : State) :
    s.advanceUnlessRaised.eraseHost = s.eraseHost.advanceUnlessRaised := by
  cases hp : s.seq.phase with
  | idle =>
    have hstays : ∀ t : State, t.seq.phase = .idle → t.advanceUnlessRaised = t := fun t h => if_pos h
    rw [hstays s hp, hstays s.eraseHost hp]
  | acq =>
    rw [advanceUnlessRaised_acq hp, advanceUnlessRaised_acq (s := s.eraseHost) hp]
    exact apply_ite State.eraseHost _ _ _
  | setHi => rw [advanceUnlessRaised_setHi hp, advanceUnlessRaised_setHi (s := s.eraseHost) hp]; rfl
  | holdHi => rw [advanceUnlessRaised_holdHi hp, advanceUnlessRaised_holdHi (s := s.eraseHost) hp]; rfl
  | setLo => rw [advanceUnlessRaised_setLo hp, advanceUnlessRaised_setLo (s := s.eraseHost) hp]; rfl
  | holdLo =>
    rw [advanceUnlessRaised_holdLo hp, advanceUnlessRaised_holdLo (s := s.eraseHost) hp]
    exact apply_ite State.eraseHost _ _ _
  | holdGap =>
    rw [advanceUnlessRaised_holdGap hp, advanceUnlessRaised_holdGap (s := s.eraseHost) hp]
    exact apply_ite State.eraseHost _ _ _

theorem sequencerStep_eraseHost (s : State) :
    mapNext State.eraseHost (sequencerStep s) = sequencerStep s.eraseHost := by
  unfold sequencerStep
  rw [seqInstr_eraseHost]
  cases hi : s.seqInstr with
  | none => rfl
  | some i =>
    dsimp only
    rw [← exec_eraseHost hi]
    cases exec i s with
    | next t => exact congrArg Host.Outcome.next (advanceUnlessRaised_eraseHost t)
    | fault r => rfl
    | refused r => rfl

end Sys2Proof.Machine
end

section
/-! PROOF. The obligations about memory (spec/20_memory.md). -/

namespace Sys2Proof.Proofs

open Sys2Proof.Machine

/-- Settles O28: an acquisition operation is recorded only where it sets the bit that stands for it. -/
theorem acquisitionOnce : Obligations.AcquisitionOnce :=
  fun _ _ hp hs => acqOnce_keptByRun.step_next acqOnce_keptByHost hp hs

/-- Settles O13: only an accepted START samples, and none is accepted while BUSY. -/
theorem runKeepsItsSample : Obligations.RunKeepsItsSample := fun _ _ => step_sameSample

/-- Settles O14: both steps are the step of the one state without the host's fields. -/
theorem runIgnoresHostWrites : Obligations.RunIgnoresHostWrites := fun s s' h =>
  sameOutcome_of_mapNext_eq <| by rw [sequencerStep_eraseHost s, h, sequencerStep_eraseHost s']

end Sys2Proof.Proofs
end

section
/-! SUPPORT. What the decoder makes of what the encoder writes (spec/30_encoding.md R71 to R76, R81, R82, R88): the fields of
an assembled frame, a frame as the assembly of its fields, the patterns of a host access, the operands of a named operation,
the rows ON and OFF of the opcode table, and the fields by sequence indices. -/

namespace Sys2Proof

/-! The fields of an assembled frame, and its reassembly. -/

section
variable (g : BitVec 10) (v : BitVec 1) (a : BitVec 3)

/-- What starts above the stop bit lies in the assembly of the other fields. -/
theorem extractLsb'_frameWord_aboveStop (start len : Nat) :
    (frameWord g v a).extractLsb' (start + 1) len = (Config.preamble ++ g ++ v ++ a).extractLsb' start len :=
  BitVec.extractLsb'_append_eq_of_le (Nat.le_add_left 1 start)

/-- What starts above the address lies in the assembly of preamble, group and value. -/
theorem extractLsb'_frameWord_aboveAddr (start len : Nat) :
    (frameWord g v a).extractLsb' (start + 4) len = (Config.preamble ++ g ++ v).extractLsb' start len :=
  (extractLsb'_frameWord_aboveStop g v a (start + 3) len).trans <|
    BitVec.extractLsb'_append_eq_of_le (Nat.le_add_left 3 start)

@[simp] theorem frameStop_frameWord : frameStop (frameWord g v a) = Config.stopBit :=
  BitVec.extractLsb'_append_eq_right

@[simp] theorem frameAddr_frameWord : frameAddr (frameWord g v a) = a :=
  (extractLsb'_frameWord_aboveStop g v a 0 3).trans BitVec.extractLsb'_append_eq_right

@[simp] theorem frameValue_frameWord : frameValue (frameWord g v a) = v :=
  (extractLsb'_frameWord_aboveAddr g v a 0 1).trans BitVec.extractLsb'_append_eq_right

@[simp] theorem frameGroup_frameWord : frameGroup (frameWord g v a) = g :=
  (extractLsb'_frameWord_aboveAddr g v a 1 10).trans <|
    (BitVec.extractLsb'_append_eq_of_le le_rfl).trans BitVec.extractLsb'_append_eq_right

@[simp] theorem framePreamble_frameWord : framePreamble (frameWord g v a) = Config.preamble :=
  (extractLsb'_frameWord_aboveAddr g v a 11 10).trans <|
    (BitVec.extractLsb'_append_eq_of_le (by decide)).trans BitVec.extractLsb'_append_eq_left

end

/-- The five fields cover the frame (R71). -/
theorem fields_append (f : Frame) :
    framePreamble f ++ frameGroup f ++ frameValue f ++ frameAddr f ++ frameStop f = f := by
  simp only [framePreamble, frameGroup, frameValue, frameAddr, frameStop,
    BitVec.extractLsb'_append_extractLsb'_eq_extractLsb', BitVec.extractLsb'_eq_self]

theorem producible_iff (f : Frame) :
    Producible f = true ↔ framePreamble f = Config.preamble ∧ frameStop f = Config.stopBit := by
  simp [Producible]

/-- A frame with the fixed fields right is assembled from its other fields. -/
theorem frameWord_fields {f : Frame} (h : Producible f = true) :
    frameWord (frameGroup f) (frameValue f) (frameAddr f) = f := by
  obtain ⟨hpre, hstop⟩ := (producible_iff f).mp h
  rw [frameWord, ← hpre, ← hstop, fields_append]

/-! Decoding an assembled frame. -/

theorem decodeFrame25_on (g : BitVec 10) (a : BitVec 3) :
    decodeFrame25 (frameWord g 0#1 a) = .instr (.on g a) := by simp [decodeFrame25]

theorem decodeFrame25_off (g : BitVec 10) (a : BitVec 3) :
    decodeFrame25 (frameWord g 1#1 a) = .instr (.off g a) := by simp [decodeFrame25]

/-! The patterns of a host access. -/

@[simp] theorem hostregWrite_writePattern (r : RegNum) : hostregWrite (writePattern r) = 1#1 :=
  BitVec.extractLsb'_append_eq_left

@[simp] theorem hostregNum_writePattern (r : RegNum) : hostregNum (writePattern r) = r :=
  BitVec.extractLsb'_append_eq_right

@[simp] theorem hostregWrite_readPattern (r : RegNum) : hostregWrite (readPattern r) = 0#1 :=
  BitVec.extractLsb'_append_eq_left

@[simp] theorem hostregNum_readPattern (r : RegNum) : hostregNum (readPattern r) = r :=
  BitVec.extractLsb'_append_eq_right

theorem decodeHostreg_write (r : RegNum) (value : Nat) :
    decodeHostreg (writePattern r) value = if isStartWrite r value then .start else .wrcfg r value := by
  simp [decodeHostreg]

theorem decodeHostreg_read (r : RegNum) (value : Nat) : decodeHostreg (readPattern r) value = .rdreg r := by
  simp [decodeHostreg]

/-! The operands that a named operation carries as integers. -/

theorem decodeHold_toNat (d : Dur) : decodeHold d.toNat = .instr (.hold d) := by
  rw [decodeHold, if_pos d.isLt, BitVec.ofNat_toNat, BitVec.setWidth_eq]

theorem decodeCfgout_toNat (p : Pin) : decodeCfgout p.toNat = .instr (.cfgout p) := by
  rw [decodeCfgout, if_pos p.isLt, BitVec.ofNat_toNat, BitVec.setWidth_eq]

/-- Row by row of R81: what the encoder writes, the decoder reads. -/
theorem decode_encode {i : Instr} (h : i.wellFormed = true) : decode (encode i) = .instr i := by
  cases i with
  | on g a => exact decodeFrame25_on g a
  | off g a => exact decodeFrame25_off g a
  | hold d => exact decodeHold_toNat d
  | cfgout p => exact decodeCfgout_toNat p
  | wrcfg r value =>
    have hplain : isStartWrite r value = false := by simpa [Instr.wellFormed] using h
    simp [decode, encode, decodeHostreg_write, hplain]
  | rdreg r => exact congrArg Decoded.instr (decodeHostreg_read r 0)
  | start => exact congrArg Decoded.instr (decodeHostreg_write 7#4 1)
  | bit0 | bit1 | gap | sethi | setlo | acq | drvinit | transmit | send | pause | batch | all => rfl

/-! The rows ON and OFF of spec/opcode_table.json. -/

/-- The table's mask keeps the preamble and the stop bit, and the value bit between them. -/
theorem fields_mask (f : Frame) :
    framePreamble (f &&& 0x1FF8011#25) = framePreamble f ∧ frameValue (f &&& 0x1FF8011#25) = frameValue f ∧
    frameStop (f &&& 0x1FF8011#25) = frameStop f := by
  refine ⟨?_, ?_, ?_⟩ <;> exact BitVec.extractLsb'_and.trans BitVec.and_allOnes

/-- A frame meets the row of value bit `v` exactly if it can be sent and has this value bit. -/
theorem matchesRow_iff (f : Frame) (v : BitVec 1) :
    matchesRow f.toNat 0x1FF8011 (frameWord 0 v 0).toNat = true ↔ Producible f = true ∧ frameValue f = v := by
  have hrow : matchesRow f.toNat 0x1FF8011 (frameWord 0 v 0).toNat = (f &&& 0x1FF8011#25 == frameWord 0 v 0) :=
    Laws.Layout.matchesRow_frame f 0x1FF8011#25 _
  rw [hrow, beq_iff_eq]
  constructor
  · intro h
    obtain ⟨hpre, hval, hstop⟩ := fields_mask f
    rw [h] at hpre hval hstop
    exact ⟨(producible_iff f).mpr ⟨by simp [← hpre], by simp [← hstop]⟩, by simp [← hval]⟩
  · rintro ⟨hf, rfl⟩
    rw [← frameWord_fields hf, Laws.Layout.frameWord_mask, frameValue_frameWord]

theorem matchesRow_on_iff (f : Frame) :
    matchesRow f.toNat 0x1FF8011 0x0698001 = true ↔ Producible f = true ∧ frameValue f = 0#1 :=
  matchesRow_iff f 0#1

theorem matchesRow_off_iff (f : Frame) :
    matchesRow f.toNat 0x1FF8011 0x0698011 = true ↔ Producible f = true ∧ frameValue f = 1#1 :=
  matchesRow_iff f 1#1

end Sys2Proof

namespace Sys2Proof.Machine

/-! The fields by sequence indices (R6, R71). -/

section
variable (f : Frame)

theorem framePreamble_getMsbD {i : Nat} (hi : i < 10) : (framePreamble f).getMsbD i = frameBit f i := by
  have h : 15 + 10 - i ≤ 25 ∧ 25 - (15 + 10 - i) = i := by omega
  simp [framePreamble, frameBit, hi, h]

theorem frameGroup_getMsbD {j : Nat} (hj : j < 10) : (frameGroup f).getMsbD j = frameBit f (10 + j) := by
  have h : 5 + 10 - j ≤ 25 ∧ 25 - (5 + 10 - j) = 10 + j := by omega
  simp [frameGroup, frameBit, hj, h]

theorem frameValue_eq : frameValue f = BitVec.ofBool (frameBit f 20) := by
  apply BitVec.eq_of_getMsbD_eq
  intro i hi
  obtain rfl : i = 0 := by omega
  simp [frameValue, frameBit]

theorem frameAddr_getMsbD {j : Nat} (hj : j < 3) : (frameAddr f).getMsbD j = frameBit f (21 + j) := by
  have h : 1 + 3 - j ≤ 25 ∧ 25 - (1 + 3 - j) = 21 + j := by omega
  simp [frameAddr, frameBit, hj, h]

theorem frameStop_eq : frameStop f = BitVec.ofBool (frameBit f 24) := by
  apply BitVec.eq_of_getMsbD_eq
  intro i hi
  obtain rfl : i = 0 := by omega
  simp [frameStop, frameBit]

end

/-- The premise of the decode helper, R88, is that the frame can be sent. -/
theorem producible_iff_frameBit (f : Frame) :
    Producible f = true ↔ (∀ i < 10, frameBit f i = Config.preamble.getMsbD i) ∧ frameBit f 24 = true := by
  have hpre : framePreamble f = Config.preamble ↔ ∀ i < 10, frameBit f i = Config.preamble.getMsbD i :=
    ⟨fun h i hi => by rw [← h, framePreamble_getMsbD f hi],
      fun h => BitVec.eq_of_getMsbD_eq fun i hi => (framePreamble_getMsbD f hi).trans (h i hi)⟩
  have hstop : frameStop f = Config.stopBit ↔ frameBit f 24 = true := by
    rw [frameStop_eq]
    cases frameBit f 24 <;> decide
  rw [producible_iff, hpre, hstop]

theorem valueBit_beq_zero (on : Bool) : (valueBit on == 0#1) = on := by cases on <;> rfl

theorem decodeFrame_encodeFrame (g a : Nat) (on : Bool) :
    decodeFrame (encodeFrame g a on) = some (BitVec.ofNat 10 g, BitVec.ofNat 3 a, on) := by
  simp [decodeFrame, encodeFrame, producible_frameWord, valueBit_beq_zero]

/-- Every frame that can be sent is the encoder's, for the operands in its fields. -/
theorem encodeFrame_fields {f : Frame} (h : Producible f = true) :
    encodeFrame (frameGroup f).toNat (frameAddr f).toNat (!frameBit f 20) = f := by
  have hvalue : valueBit (!frameBit f 20) = frameValue f := by
    rw [frameValue_eq]
    cases frameBit f 20 <;> rfl
  rw [encodeFrame, hvalue, BitVec.ofNat_toNat, BitVec.ofNat_toNat, BitVec.setWidth_eq, BitVec.setWidth_eq,
    frameWord_fields h]

end Sys2Proof.Machine
end

section
/-! PROOF. The obligations about the encoding (spec/30_encoding.md). -/

namespace Sys2Proof.Proofs

open Sys2Proof.Machine

/-- Settles O1, row by row of the opcode table. -/
theorem decodeEncode : Obligations.DecodeEncode := fun _ => decode_encode

/-- Settles O5: the premise is that the frame can be sent, and its fields are read off by sequence indices. -/
theorem decodeHelper : Obligations.DecodeHelper := by
  refine ⟨fun f hpre hstop => ?_, fun f h => ?_, fun g a on _ _ => decodeFrame_encodeFrame g a on⟩
  · have hf : Producible f = true := (producible_iff_frameBit f).mpr ⟨hpre, hstop⟩
    refine ⟨_, _, _, if_pos hf, fun j => frameGroup_getMsbD f, ?_, fun j => frameAddr_getMsbD f⟩
    rw [frameValue_eq]
    cases frameBit f 20 <;> rfl
  · exact if_neg fun hf => h ((producible_iff_frameBit f).mp hf)

/-- Settles O6: a frame meets a row of the table exactly if it can be sent and has the row's value bit. -/
theorem producibleFrames : Obligations.ProducibleFrames := by
  refine fun f => ⟨⟨fun hf => ⟨_, _, _, (encodeFrame_fields hf).symm⟩, ?_⟩, fun hf => ?_, fun hf => ?_⟩
  · rintro ⟨g, a, on, rfl⟩
    exact producible_frameWord _ _ _
  · have hbit : frameValue f = 0#1 ↔ ¬frameValue f = 1#1 := by
      rw [frameValue_eq]
      cases frameBit f 20 <;> decide
    simp [← Bool.not_eq_true, matchesRow_on_iff, matchesRow_off_iff, hf, hbit]
  · simp [← Bool.not_eq_true, matchesRow_on_iff, matchesRow_off_iff, hf]

/-- Settles O2: the decoder run on the eight words. -/
theorem sampleWordsDecode : Obligations.SampleWordsDecode := by
  unfold Obligations.SampleWordsDecode
  decide

end Sys2Proof.Proofs
end

section
/-! SUPPORT. What the encoder makes of its operands (spec/40_frame_encoder.md R100, R105): the integer view of an assembled
frame, its bits by sequence indices and field by field, how many of them are ones, which operands give the same frame, and the
nominal duration of a frame. -/

namespace Sys2Proof

/-- Concatenation in the integer view. -/
theorem toNat_append_eq_add {n m : Nat} (x : BitVec n) (y : BitVec m) :
    (x ++ y).toNat = x.toNat * 2 ^ m + y.toNat := by
  rw [BitVec.toNat_append, ← Nat.shiftLeft_add_eq_or_of_lt y.isLt, Nat.shiftLeft_eq]

/-- R100 for fields: the preamble and the stop bit make the constant. -/
theorem toNat_frameWord (g : BitVec 10) (v : BitVec 1) (a : BitVec 3) :
    (frameWord g v a).toNat = 0x698001 + g.toNat <<< 5 + v.toNat <<< 4 + a.toNat <<< 1 := by
  have hpreamble : Config.preamble.toNat = 0xD3 := rfl
  have hstop : Config.stopBit.toNat = 1 := rfl
  simp only [frameWord, toNat_append_eq_add, Nat.shiftLeft_eq, hpreamble, hstop]
  omega

/-- The bits of a field in the order of sending. -/
def fieldBits {n : Nat} (x : BitVec n) : List Bool := (List.range n).map x.getMsbD

theorem fieldBits_append {n m : Nat} (x : BitVec n) (y : BitVec m) :
    fieldBits (x ++ y) = fieldBits x ++ fieldBits y := by
  have hleft : (List.range n).map (x ++ y).getMsbD = fieldBits x :=
    List.map_congr_left fun i hi => by simp [BitVec.getMsbD_append, List.mem_range.mp hi]
  have hright : (List.range m).map ((x ++ y).getMsbD ∘ (n + ·)) = fieldBits y :=
    List.map_congr_left fun i _ => by simp [BitVec.getMsbD_append]
  rw [fieldBits, List.range_add, List.map_append, List.map_map, hleft, hright]

theorem count_fieldBits_le {n : Nat} (x : BitVec n) : (fieldBits x).count true ≤ n :=
  List.count_le_length.trans_eq (by simp [fieldBits])

end Sys2Proof

namespace Sys2Proof.Machine

section
variable (g : BitVec 10) (v : BitVec 1) (a : BitVec 3)

/-! The bits of an assembled frame by sequence indices (R71, R105). -/

theorem frameBit_frameWord_preamble {i : Nat} (hi : i < 10) :
    frameBit (frameWord g v a) i = Config.preamble.getMsbD i := by
  rw [← framePreamble_getMsbD _ hi, framePreamble_frameWord]

theorem frameBit_frameWord_group {j : Nat} (hj : j < 10) : frameBit (frameWord g v a) (10 + j) = g.getMsbD j := by
  rw [← frameGroup_getMsbD _ hj, frameGroup_frameWord]

theorem frameBit_frameWord_value : frameBit (frameWord g v a) 20 = v.getMsbD 0 := by
  simpa using congrArg (BitVec.getMsbD · 0) (frameValue_eq (frameWord g v a)).symm

theorem frameBit_frameWord_addr {j : Nat} (hj : j < 3) : frameBit (frameWord g v a) (21 + j) = a.getMsbD j := by
  rw [← frameAddr_getMsbD _ hj, frameAddr_frameWord]

theorem frameBit_frameWord_stop : frameBit (frameWord g v a) 24 = true :=
  ((producible_iff_frameBit _).mp (producible_frameWord g v a)).2

/-- The value bit is at index 20 and nowhere else. -/
theorem frameBit_frameWord_congr (v' : BitVec 1) {i : Nat} (hi : i < 25) (hne : i ≠ 20) :
    frameBit (frameWord g v a) i = frameBit (frameWord g v' a) i := by
  by_cases hpre : i < 10
  · simp only [frameBit_frameWord_preamble _ _ _ hpre]
  by_cases hgroup : i < 20
  · obtain ⟨j, rfl⟩ := Nat.exists_eq_add_of_le (not_lt.mp hpre)
    simp only [frameBit_frameWord_group _ _ _ (show j < 10 by omega)]
  by_cases haddr : i < 24
  · obtain ⟨j, rfl⟩ := Nat.exists_eq_add_of_le (show 21 ≤ i by omega)
    simp only [frameBit_frameWord_addr _ _ _ (show j < 3 by omega)]
  · obtain rfl : i = 24 := by omega
    simp only [frameBit_frameWord_stop]

/-! The number of ones (R105): six in the preamble and the stop bit, any number in the other fields. -/

theorem frameBits_frameWord :
    frameBits (frameWord g v a) =
      fieldBits Config.preamble ++ fieldBits g ++ fieldBits v ++ fieldBits a ++ fieldBits Config.stopBit := by
  simp only [← fieldBits_append]
  rfl

theorem count_frameBits_frameWord :
    (frameBits (frameWord g v a)).count true =
      6 + (fieldBits g).count true + (fieldBits v).count true + (fieldBits a).count true := by
  have hpreamble : (fieldBits Config.preamble).count true = 5 := by decide
  have hstop : (fieldBits Config.stopBit).count true = 1 := by decide
  simp only [frameBits_frameWord, List.count_append, hpreamble, hstop]
  omega

theorem count_frameBits_frameWord_le : (frameBits (frameWord g v a)).count true ≤ 20 := by
  have hg := count_fieldBits_le g
  have hv := count_fieldBits_le v
  have ha := count_fieldBits_le a
  rw [count_frameBits_frameWord]
  omega

end

/-! The operands: they wrap, and up to that the frame determines them (R100, R105). -/

theorem getMsbD_valueBit (on : Bool) : (valueBit on).getMsbD 0 = !on := by cases on <;> rfl

theorem toNat_valueBit (on : Bool) : (valueBit on).toNat = if on then 0 else 1 := by cases on <;> rfl

theorem ofNat_eq_ofNat_iff_mod {n : Nat} (x y : Nat) : BitVec.ofNat n x = BitVec.ofNat n y ↔ x % 2 ^ n = y % 2 ^ n := by
  rw [BitVec.toNat_eq, BitVec.toNat_ofNat, BitVec.toNat_ofNat]

theorem encodeFrame_eq_iff {g g' a a' : Nat} {on on' : Bool} :
    encodeFrame g a on = encodeFrame g' a' on' ↔ g % 1024 = g' % 1024 ∧ a % 8 = a' % 8 ∧ on = on' := by
  have hdec : encodeFrame g a on = encodeFrame g' a' on' ↔
      BitVec.ofNat 10 g = BitVec.ofNat 10 g' ∧ BitVec.ofNat 3 a = BitVec.ofNat 3 a' ∧ on = on' := by
    constructor
    · intro h
      simpa [decodeFrame_encodeFrame] using congrArg decodeFrame h
    · rintro ⟨hg, ha, rfl⟩
      rw [encodeFrame, hg, ha, ← encodeFrame]
  simpa only [ofNat_eq_ofNat_iff_mod, Nat.reducePow] using hdec

/-- A field of the integer operands, by bit index. -/
theorem getMsbD_ofNat_eq_testBit {n j : Nat} (x : Nat) (hj : j < n) :
    (BitVec.ofNat n x).getMsbD j = (x % 2 ^ n).testBit (n - 1 - j) := by
  rw [BitVec.getMsbD_eq_getLsbD, ← BitVec.testBit_toNat, BitVec.toNat_ofNat, decide_eq_true hj, Bool.true_and]

/-! The nominal duration (R105, R127). -/

/-- The two durations of a bit have one sum, whatever the bit and the assignment. -/
theorem pulse_high_add_low (timing : BitTiming) (b : Bool) :
    (pulse timing b).high.toNat + (pulse timing b).low.toNat = 1188 := by
  cases timing <;> cases b <;> rfl

theorem nominal_duration (timing : BitTiming) (f : Frame) :
    ((frameBits f).map fun b => (pulse timing b).high.toNat + (pulse timing b).low.toNat).sum = 25 * 1188 := by
  simp only [pulse_high_add_low, List.map_const', frameBits_length, List.sum_replicate, smul_eq_mul]

end Sys2Proof.Machine
end

section
/-! PROOF. The obligations about the frame encoder (spec/40_frame_encoder.md). -/

namespace Sys2Proof.Proofs

open Sys2Proof.Machine

/-- Settles O3: the integer view of the assembled fields, each operand reduced to its field's width. -/
theorem encodeInteger : Obligations.EncodeInteger := by
  refine fun group address on => ⟨?_, encodeFrame_eq_iff.mpr (by simp), encodeFrame_eq_iff.mpr (by simp)⟩
  rw [encodeFrame, toNat_frameWord, toNat_valueBit, BitVec.toNat_ofNat, BitVec.toNat_ofNat]

/-- Settles O4: the fields by sequence indices, their ones counted, and the operands read back from the frame. -/
theorem frameShape : Obligations.FrameShape := by
  refine ⟨fun group address on => ⟨frameBits_length _, fun i => frameBit_frameWord_preamble _ _ _, fun j hj => ?group,
      ?value, fun j hj => ?addr, frameBit_frameWord_stop _ _ _, ?fewest, count_frameBits_frameWord_le _ _ _⟩,
    by decide, by decide, fun g g' a a' on on' hg hg' ha ha' h => ?injective, nominal_duration⟩
  case group => exact (frameBit_frameWord_group _ _ _ hj).trans (getMsbD_ofNat_eq_testBit group hj)
  case value => exact (frameBit_frameWord_value _ _ _).trans (getMsbD_valueBit on)
  case addr => exact (frameBit_frameWord_addr _ _ _ hj).trans (getMsbD_ofNat_eq_testBit address hj)
  case fewest =>
    rw [encodeFrame, count_frameBits_frameWord]
    omega
  case injective =>
    obtain ⟨hgroup, haddr, hon⟩ := encodeFrame_eq_iff.mp h
    exact ⟨by omega, by omega, hon⟩

/-- Settles O7: one assembly with the value bit 0 or 1, which is worth 16 in the integer view. -/
theorem onOffDiffer : Obligations.OnOffDiffer := by
  intro g a
  have hframe (on : Bool) : encodeFrame g.toNat a.toNat on = frameWord g (valueBit on) a := by simp [encodeFrame]
  simp only [hframe]
  refine ⟨rfl, rfl, ?_, fun i hi hne => frameBit_frameWord_congr g _ a _ hi hne, frameBit_frameWord_value g _ a,
    frameBit_frameWord_value g _ a⟩
  simp only [toNat_frameWord, toNat_valueBit, Bool.false_eq_true, if_true, if_false]
  omega

end Sys2Proof.Proofs
end

section
/-! SUPPORT. The draws of time and the records of it reach no operation of the block (spec/41_pulse_transmitter.md R130,
R132): leaving them out of the state before an operation changes nothing of its result but them. -/

namespace Sys2Proof.Machine

/-- The operation does the same to the state without its timing, up to the timing of the state it ends in: it reads none. -/
def IgnoresTiming (k : State → Res) : Prop :=
  ∀ s, (k s).map State.eraseTiming = (k s.eraseTiming).map State.eraseTiming

namespace IgnoresTiming

variable {k m : State → Res} {u : State → State}

/-- An update that reads no timing, as an operation. -/
theorem ok (hu : ∀ s, (u s).eraseTiming = (u s.eraseTiming).eraseTiming) : IgnoresTiming fun s => .ok (u s) :=
  fun s => congrArg Res.ok (hu s)

/-- Two results that agree but for timing go on alike. -/
theorem map_andThen (hm : IgnoresTiming m) {r r' : Res} (h : r.map State.eraseTiming = r'.map State.eraseTiming) :
    (r.andThen m).map State.eraseTiming = (r'.andThen m).map State.eraseTiming := by
  cases r <;> cases r' <;> simp only [Res.map, reduceCtorEq] at h
  case ok.ok t t' =>
    have ht : t.eraseTiming = t'.eraseTiming := Res.ok.inj h
    rw [Res.andThen_ok, Res.andThen_ok, hm t, hm t', ht]
  case stopped.stopped => exact h
  case refused.refused => exact h

theorem andThen (hk : IgnoresTiming k) (hm : IgnoresTiming m) : IgnoresTiming fun s => (k s).andThen m :=
  fun s => hm.map_andThen (hk s)

theorem after (hk : IgnoresTiming k) (hu : ∀ s, (u s).eraseTiming = (u s.eraseTiming).eraseTiming) :
    IgnoresTiming fun s => k (u s) := fun s => by
  rw [hk (u s), hu s, ← hk (u s.eraseTiming)]

theorem ite {c : State → Bool} (hc : ∀ s, c s = c s.eraseTiming) (hk : IgnoresTiming k) (hm : IgnoresTiming m) :
    IgnoresTiming fun s => if c s then k s else m s := fun s => by
  dsimp only
  rw [← hc s]
  cases c s
  · exact hm s
  · exact hk s

/-- What holds of the operation holds of the outcome of its instruction. -/
theorem outcome (hk : IgnoresTiming k) (s : State) :
    mapNext State.eraseTiming (k s).outcome = mapNext State.eraseTiming (k s.eraseTiming).outcome := by
  rw [mapNext_outcome, hk s, mapNext_outcome]

end IgnoresTiming

/-! The driver operations and the acquisition. -/

theorem doSet_ignoresTiming (p : Pin) (l : Level) : IgnoresTiming (doSet p l) := fun s => by
  cases ha : s.answer with
  | ok => rw [doSet_ok ha, doSet_ok (s := s.eraseTiming) ha]; rfl
  | fail => rw [doSet_fail ha, doSet_fail (s := s.eraseTiming) ha]; rfl

theorem doDrvInit_ignoresTiming : IgnoresTiming doDrvInit := fun s => by
  cases ha : s.answer with
  | ok => rw [doDrvInit_ok ha, doDrvInit_ok (s := s.eraseTiming) ha]; rfl
  | fail => rw [doDrvInit_fail ha, doDrvInit_fail (s := s.eraseTiming) ha]; rfl

theorem doCfgOut_ignoresTiming (p : Pin) : IgnoresTiming (doCfgOut p) := fun s => by
  cases ha : s.answer with
  | ok => rw [doCfgOut_ok ha, doCfgOut_ok (s := s.eraseTiming) ha]; rfl
  | fail => rw [doCfgOut_fail ha, doCfgOut_fail (s := s.eraseTiming) ha]; rfl

theorem drvInitIfNeeded_ignoresTiming : IgnoresTiming drvInitIfNeeded :=
  .ite (fun _ => rfl) (.ok fun _ => rfl) doDrvInit_ignoresTiming

theorem cfgOutIfNeeded_ignoresTiming (p : Pin) : IgnoresTiming (cfgOutIfNeeded p) :=
  .ite (fun _ => rfl) (.ok fun _ => rfl) (doCfgOut_ignoresTiming p)

/-- The setup time is drawn here and read by nothing (log 9). -/
theorem doAcq_ignoresTiming : IgnoresTiming doAcq :=
  (drvInitIfNeeded_ignoresTiming.after (u := State.recordSetup) fun _ => rfl).andThen fun s =>
    cfgOutIfNeeded_ignoresTiming s.xPin s

/-! Pulses. -/

/-- The overhead of the interval is drawn here and read by nothing. -/
theorem doHold_eraseTiming (d : Dur) (s : State) : (doHold d s).eraseTiming = (doHold d s.eraseTiming).eraseTiming := rfl

theorem doSetLine_ignoresTiming (l : Level) : IgnoresTiming fun s => doSet s.xPin l s :=
  fun s => doSet_ignoresTiming s.xPin l s

theorem doSymbol_ignoresTiming (b : Bool) : IgnoresTiming (doSymbol b) :=
  (doSetLine_ignoresTiming .high).andThen <|
    ((doSetLine_ignoresTiming .low).after fun s => doHold_eraseTiming (s.heldHigh b) s).andThen <|
      .ok fun s => doHold_eraseTiming (s.heldLow b) s

theorem sendBits_ignoresTiming (bits : List Bool) : IgnoresTiming (sendBits bits) := by
  induction bits with
  | nil => exact .ok fun _ => rfl
  | cons b bits ih => exact (doSymbol_ignoresTiming b).andThen ih

theorem sendFrame_ignoresTiming : IgnoresTiming sendFrame := fun s =>
  ((sendBits_ignoresTiming (frameBits s.frame)).andThen (.ok fun t => doHold_eraseTiming t.heldGap t)) s

theorem sendFrames_ignoresTiming (n : Nat) : IgnoresTiming (sendFrames n) := by
  induction n with
  | zero => exact .ok fun _ => rfl
  | succ n ih => exact sendFrame_ignoresTiming.andThen ih

theorem doTransmit_ignoresTiming : IgnoresTiming doTransmit :=
  doAcq_ignoresTiming.andThen fun s =>
    ((sendFrames_ignoresTiming s.xRetries.toNat).andThen (.ok fun _ => rfl)) s

/-! The host. -/

theorem doStart_ignoresTiming : IgnoresTiming doStart :=
  .ite (fun _ => rfl) (fun _ => rfl) (.ite (fun _ => rfl) (.ok fun _ => rfl) fun _ => rfl)

theorem storeReg_eraseTiming (s : State) (r : RegNum) (v : Nat) :
    (s.storeReg r v).eraseTiming = s.eraseTiming.storeReg r v := by
  unfold State.storeReg
  split <;> rfl

theorem doHostWrite_ignoresTiming (r : RegNum) (v : Nat) : IgnoresTiming (doHostWrite r v) :=
  .ite (fun _ => rfl) doStart_ignoresTiming <| .ok fun s => by
    rw [storeReg_eraseTiming, storeReg_eraseTiming]
    rfl

/-- That the program stops with a failed run is no matter of timing. -/
theorem waitRun_ignoresTiming : IgnoresTiming waitRun := fun s => by
  have h := doTransmit_ignoresTiming s
  unfold waitRun
  cases hd : doTransmit s <;> cases hd' : doTransmit s.eraseTiming <;> rw [hd, hd'] at h <;>
    simp only [Res.map, reduceCtorEq] at h
  case ok.ok => exact h
  case stopped.stopped => exact congrArg (Res.stopped ∘ State.stopProgram) (Res.stopped.inj h)
  case refused.refused => exact h

theorem doSend_ignoresTiming (g a v : Nat) : IgnoresTiming (doSend g a v) :=
  (doStart_ignoresTiming.after (u := (·.writeCommand g a v)) fun _ => rfl).andThen waitRun_ignoresTiming

theorem sendPairs_ignoresTiming (v : Nat) : ∀ pairs : List (Nat × Nat), IgnoresTiming (sendPairs v pairs)
  | [] => .ok fun _ => rfl
  | (g, a) :: [] => doSend_ignoresTiming g a v
  | (g, a) :: q :: rest =>
    (doSend_ignoresTiming g a v).andThen ((sendPairs_ignoresTiming v (q :: rest)).after fun _ => rfl)

/-! Instructions and steps. -/

@[simp] theorem State.eraseTiming_faulted (s : State) : s.eraseTiming.faulted = s.faulted := rfl
@[simp] theorem State.eraseTiming_seq (s : State) : s.eraseTiming.seq = s.seq := rfl
@[simp] theorem State.eraseTiming_prog (s : State) : s.eraseTiming.prog = s.prog := rfl
@[simp] theorem State.eraseTiming_turn (s : State) : s.eraseTiming.turn = s.turn := rfl
@[simp] theorem State.eraseTiming_hostReady (s : State) : s.eraseTiming.hostReady = s.hostReady := rfl
@[simp] theorem State.eraseTiming_seqInstr (s : State) : s.eraseTiming.seqInstr = s.seqInstr := rfl

theorem exec_eraseTiming (i : Instr) (s : State) :
    mapNext State.eraseTiming (exec i s) = mapNext State.eraseTiming (exec i s.eraseTiming) := by
  cases i
  case on g a => exact (doSend_ignoresTiming g.toNat a.toNat 1).outcome s
  case off g a => exact (doSend_ignoresTiming g.toNat a.toNat 0).outcome s
  case bit0 => exact (doSymbol_ignoresTiming false).outcome s
  case bit1 => exact (doSymbol_ignoresTiming true).outcome s
  case gap => exact congrArg Host.Outcome.next (doHold_eraseTiming s.heldGap s)
  case sethi p => exact (doSet_ignoresTiming p .high).outcome s
  case setlo p => exact (doSet_ignoresTiming p .low).outcome s
  case hold d => exact congrArg Host.Outcome.next (doHold_eraseTiming d s)
  case wrcfg r v => exact (doHostWrite_ignoresTiming r v).outcome s
  case rdreg r => rfl
  case start => exact doStart_ignoresTiming.outcome s
  case acq => exact doAcq_ignoresTiming.outcome s
  case drvinit => exact doDrvInit_ignoresTiming.outcome s
  case cfgout p => exact (doCfgOut_ignoresTiming p).outcome s
  case transmit => exact doTransmit_ignoresTiming.outcome s
  case send g a v => exact (doSend_ignoresTiming g a v).outcome s
  case pause d => rfl
  case batch groups addrs v => exact (sendPairs_ignoresTiming v (batchPairs groups addrs)).outcome s
  case all g v => exact (doSend_ignoresTiming g Config.broadcastAddr v).outcome s

/-- What leaves the position and X_RETRIES in place, and commutes with the moves of the position, commutes with the
advance (R161). -/
theorem advanceUnlessRaised_comm {f : State → State} (hseq : ∀ s, (f s).seq = s.seq)
    (hret : ∀ s, (f s).xRetries = s.xRetries) (hfinish : ∀ s, f s.finish = (f s).finish)
    (hmove : ∀ s ph rp bt, f (s.moveTo ph rp bt) = (f s).moveTo ph rp bt) (s : State) :
    f s.advanceUnlessRaised = (f s).advanceUnlessRaised := by
  unfold State.advanceUnlessRaised State.advance
  rw [hseq, hret]
  cases s.seq.phase <;> simp only [reduceCtorEq, if_true, if_false, apply_ite f, hfinish, hmove]

/-- Outcomes that agree up to `f` are next states that do, or equal. -/
theorem next_or_eq_of_mapNext_eq {f : State → State} {x y : Host.Outcome State Fault Refusal}
    (h : mapNext f x = mapNext f y) : (∃ t t', x = .next t ∧ y = .next t' ∧ f t = f t') ∨ x = y := by
  cases x <;> cases y <;> simp_all [mapNext]

theorem sequencerStep_eraseTiming (s : State) :
    mapNext State.eraseTiming (sequencerStep s) = mapNext State.eraseTiming (sequencerStep s.eraseTiming) := by
  have hadvance : ∀ t : State, t.advanceUnlessRaised.eraseTiming = t.eraseTiming.advanceUnlessRaised :=
    advanceUnlessRaised_comm (fun _ => rfl) (fun _ => rfl) (fun _ => rfl) fun _ _ _ _ => rfl
  unfold sequencerStep
  rw [State.eraseTiming_seqInstr]
  cases s.seqInstr with
  | none => rfl
  | some i =>
    dsimp only
    rcases next_or_eq_of_mapNext_eq (exec_eraseTiming i s) with ⟨t, t', he, he', ht⟩ | he
    · rw [he, he']
      exact congrArg Host.Outcome.next (by rw [hadvance, hadvance, ht])
    · rw [he]

theorem programStep_eraseTiming (s : State) :
    mapNext State.eraseTiming (programStep s) = mapNext State.eraseTiming (programStep s.eraseTiming) := by
  unfold programStep
  rw [State.eraseTiming_prog]
  cases s.prog with
  | nil => rfl
  | cons item rest =>
    dsimp only
    cases decode item with
    | instr i => exact exec_eraseTiming i { s with prog := rest }
    | rejected why => rfl

/-- Which agent moves is no matter of timing either. -/
theorem step_eraseTiming (s : State) :
    mapNext State.eraseTiming (step s) = mapNext State.eraseTiming (step s.eraseTiming) := by
  unfold step machineStep
  rw [State.eraseTiming_faulted, State.eraseTiming_seq, State.eraseTiming_hostReady, State.eraseTiming_turn]
  split
  · rfl
  split
  · exact programStep_eraseTiming s
  split
  · cases s.turn with
    | host => exact programStep_eraseTiming s.popTurn
    | sequencer => exact sequencerStep_eraseTiming s.popTurn
  · exact sequencerStep_eraseTiming s

end Sys2Proof.Machine
end

section
/-! SUPPORT. What the pulse driver's instructions leave (spec/41_pulse_transmitter.md R120 to R131): the saturating
correction, the hold, a Set, and a symbol by the answers to its two Sets. -/

namespace Sys2Proof.Machine

/-! The correction (R127, R129). -/

/-- The source's values leave room for a correction of 250 us. -/
theorem pulse_ge (timing : BitTiming) (b : Bool) :
    250 ≤ (pulse timing b).high.toNat ∧ 250 ≤ (pulse timing b).low.toNat := by
  cases timing <;> cases b <;> decide

theorem heldHigh_toNat (s : State) (b : Bool) :
    (s.heldHigh b).toNat = (pulse s.bitTiming b).high.toNat - s.xLat.toNat := sat_toNat _ _

theorem heldLow_toNat (s : State) (b : Bool) :
    (s.heldLow b).toNat = (pulse s.bitTiming b).low.toNat - s.xLat.toNat := sat_toNat _ _

theorem sat_eq_zero {a c : Dur} (h : a.toNat ≤ c.toNat) : sat a c = 0 :=
  BitVec.eq_of_toNat_eq <| by rw [sat_toNat, Nat.sub_eq_zero_of_le h]; rfl

/-- Held for the corrected duration with an overhead of the correction, an interval has its nominal duration (R131). -/
theorem observed_sat {nominal c : Dur} (l : Level) (h : c.toNat ≤ nominal.toNat) :
    (Timed.interval l (sat nominal c) c.toNat).observed = nominal.toNat := by
  rw [Timed.observed, sat_toNat, Nat.sub_add_cancel h]

/-- The held durations of a bit under a given assignment and correction. -/
theorem held_of {s : State} {timing : BitTiming} {c : Dur} (b : Bool) (ht : s.bitTiming = timing) (hc : s.xLat = c) :
    s.heldHigh b = sat (pulse timing b).high c ∧ s.heldLow b = sat (pulse timing b).low c := by
  rw [State.heldHigh, State.heldLow, ht, hc]
  exact ⟨rfl, rfl⟩

/-! The hold (R120). -/

theorem doHold_eq (d : Dur) (s : State) :
    doHold d s = { s with
      timer := 0, trace := s.trace ++ [.hold d]
      times := s.times ++ [.interval (s.level s.xPin) d s.nextEps], eps := s.eps.tail } := rfl

/-- Before the count ends TIMER shows what is left of it. -/
theorem ticks_timer (s : State) {n : Nat} (h : n ≤ s.timer.toNat) : (State.ticks n s).timer.toNat = s.timer.toNat - n := by
  rw [ticks_eq]
  show (s.timer - BitVec.ofNat 32 n).toNat = s.timer.toNat - n
  bv_omega

/-! A Set (R121, R122). -/

theorem setOk_eq (s : State) (p : Pin) (l : Level) :
    s.setOk p l = { s with
      levels := (s.setOk p l).levels, trace := s.trace ++ [.set p l], answers := s.answers.tail } := by
  ext1 <;> simp

theorem setFail_eq (s : State) (p : Pin) :
    s.setFail p = { s.failed .pinWrite with levels := (s.setFail p).levels } := by
  ext1 <;> simp [State.failed]

/-- A Set of any line: answered ok, the line has the level and the event is recorded; answered fail, the line is UNKNOWN
and the failure entry is taken. -/
theorem doSet_result (p : Pin) (l : Level) (s : State) :
    (s.answer = .ok → ∃ t, (doSet p l s).outcome = .next t ∧ t.level p = l ∧
      (∀ q, q ≠ p → t.level q = s.level q) ∧
      t = { s with levels := t.levels, trace := s.trace ++ [.set p l], answers := s.answers.tail }) ∧
    (s.answer = .fail → ∃ t, (doSet p l s).outcome = .next t ∧ t.level p = .unknown ∧
      (∀ q, q ≠ p → t.level q = s.level q) ∧ t = { s.failed .pinWrite with levels := t.levels }) := by
  constructor <;> intro ha
  · exact ⟨s.setOk p l, by rw [doSet_ok ha, Res.outcome_ok], setOk_level s p l,
      fun q hq => setOk_level_other s l hq, setOk_eq s p l⟩
  · exact ⟨s.setFail p, by rw [doSet_fail ha, Res.outcome_stopped], setFail_level s p,
      fun q hq => setFail_level_other s hq, setFail_eq s p⟩

/-! A symbol (R124, R125). -/

theorem doSymbol_firstFails {s : State} (b : Bool) (h : FailsAfter 0 s) :
    doSymbol b s = .stopped (s.setFail s.xPin) := by
  rw [doSymbol, doSet_fail h.answer, Res.andThen_stopped]

theorem doSymbol_secondFails {s : State} (b : Bool) (h : FailsAfter 1 s) :
    doSymbol b s = .stopped ((highDone b s).setFail s.xPin) := by
  have hanswer : (highDone b s).answer = .fail :=
    (h.drop (j := 1) (by rw [highDone_script, List.drop_one])).answer
  rw [doSymbol_high b h.answersOk.head, doSet_fail hanswer, Res.andThen_stopped]

theorem symbolDone_timer (b : Bool) (s : State) : (symbolDone b s).timer = 0 := doHold_timer _ _

/-- A symbol by the answers to its two Sets: both ok, the first fail, the second fail (R124, R125, R193). -/
theorem doSymbol_result (b : Bool) (s : State) :
    (AnswersOk 2 s → ∃ t, (doSymbol b s).outcome = .next t ∧ t.trace = s.trace ++ s.symbolEvents b ∧
      t.level s.xPin = .low ∧ (∀ q, q ≠ s.xPin → t.level q = s.level q) ∧
      t = { s with
        timer := 0, levels := t.levels, trace := t.trace, times := t.times, answers := t.answers, eps := t.eps }) ∧
    (FailsAfter 0 s → ∃ t, (doSymbol b s).outcome = .next t ∧ t.trace = s.trace ∧ t.level s.xPin = .unknown ∧
      (∀ q, q ≠ s.xPin → t.level q = s.level q) ∧ t = { s.failed .pinWrite with levels := t.levels }) ∧
    (FailsAfter 1 s → ∃ t, (doSymbol b s).outcome = .next t ∧
      t.trace = s.trace ++ [.set s.xPin .high, .hold (s.heldHigh b)] ∧
      t.level s.xPin = .unknown ∧ (∀ q, q ≠ s.xPin → t.level q = s.level q) ∧
      t = { s.failed .pinWrite with
        levels := t.levels, trace := t.trace, times := t.times, answers := t.answers, eps := t.eps }) := by
  refine ⟨fun h => ?bothOk, fun h => ?firstFails, fun h => ?secondFails⟩
  case bothOk =>
    have hsent := symbolDone_sent b s
    refine ⟨symbolDone b s, by rw [doSymbol_ok b h, Res.outcome_ok], hsent.trace, symbolDone_level b s, hsent.others, ?_⟩
    rw [← symbolDone_timer b s]
    exact hsent.rest
  case firstFails =>
    exact ⟨s.setFail s.xPin, by rw [doSymbol_firstFails b h, Res.outcome_stopped], State.setFail_trace s s.xPin,
      setFail_level s s.xPin, fun q hq => setFail_level_other s hq, setFail_eq s s.xPin⟩
  case secondFails =>
    have hsent := highDone_sent b s
    have hfail := hsent.andFails (setFail_failed hsent.keeps.1.symm)
    exact ⟨(highDone b s).setFail s.xPin, by rw [doSymbol_secondFails b h, Res.outcome_stopped], hfail.trace,
      hfail.level, hfail.others, hfail.rest⟩

/-- The records of a symbol: its HIGH and its LOW interval, each with the overhead drawn for it (R130). -/
theorem symbolDone_times (b : Bool) (s : State) :
    (symbolDone b s).times = s.times ++
      [.interval .high (s.heldHigh b) s.nextEps, .interval .low (s.heldLow b) (highDone b s).nextEps] := by
  simp [symbolDone, highDone]

/-- With overheads scripted the second interval of a symbol draws the second of them. -/
theorem highDone_nextEps {s : State} {b : Bool} {m n : Nat} {l : List Nat} (h : s.eps.script = m :: n :: l) :
    (highDone b s).nextEps = n :=
  nextEps_of_cons (l := l) (by simp [highDone, h])

theorem exec_symbol (b : Bool) (s : State) : exec (if b then .bit1 else .bit0) s = (doSymbol b s).outcome := by
  cases b <;> rfl

end Sys2Proof.Machine
end

section
/-! SUPPORT. One interval is recorded for each hold, and for nothing else (spec/41_pulse_transmitter.md R120, R130). -/

namespace Sys2Proof.Machine

/-- The records of time hold the held durations of the trace, in order. -/
def State.HoldsRecorded (s : State) : Prop := heldOfTimes s.times = heldOfTrace s.trace

namespace State.HoldsRecorded

variable {s t : State}

theorem congr (h : s.HoldsRecorded) (htimes : t.times = s.times) (htrace : t.trace = s.trace) : t.HoldsRecorded := by
  unfold State.HoldsRecorded
  rw [htimes, htrace]
  exact h

/-- An event that is no hold asks for no record. -/
theorem emit (h : s.HoldsRecorded) {e : Event} (he : heldOfTrace [e] = []) : (s.emit e).HoldsRecorded := by
  unfold State.HoldsRecorded
  rw [State.emit_times, State.emit_trace, heldOfTrace_append, he, List.append_nil]
  exact h

theorem recordPause (h : s.HoldsRecorded) (d : Nat) : (s.recordPause d).HoldsRecorded := by
  unfold State.HoldsRecorded
  rw [State.recordPause_times, State.recordPause_trace, heldOfTimes_append, heldOfTimes_pause, List.append_nil]
  exact h

/-! The driver operations and the runs. -/

theorem set_leads (h : s.HoldsRecorded) (p : Pin) (l : Level) :
    (doSet p l s).Leads State.HoldsRecorded State.HoldsRecorded := by
  rcases doSet_cases s p l with ⟨-, hd⟩ | ⟨-, hd⟩ <;> rw [hd]
  · exact (h.congr (t := s.popAnswer.setLevel p l) rfl rfl).emit (heldOfTrace_set p l)
  · exact h.congr (State.setFail_times s p) (State.setFail_trace s p)

theorem drvInit_leads (h : s.HoldsRecorded) : (doDrvInit s).Leads State.HoldsRecorded State.HoldsRecorded := by
  cases ha : s.answer with
  | ok => rw [doDrvInit_ok ha]; exact (h.congr (t := s.popAnswer.setGpioInit) rfl rfl).emit heldOfTrace_drvInit
  | fail => rw [doDrvInit_fail ha]; exact (ran_acqFail s).times h

theorem cfgOut_leads (h : s.HoldsRecorded) (p : Pin) :
    (doCfgOut p s).Leads State.HoldsRecorded State.HoldsRecorded := by
  cases ha : s.answer with
  | ok => rw [doCfgOut_ok ha]; exact (h.congr (t := s.popAnswer.addConfigured p) rfl rfl).emit (heldOfTrace_cfgOut p)
  | fail => rw [doCfgOut_fail ha]; exact (ran_acqFail s).times h

end State.HoldsRecorded

theorem holdsRecorded_keptByRun : KeptByRun State.HoldsRecorded where
  acq h := (ran_acq _).leads.imp (fun _ r => r.times h) fun _ r => r.times h
  set h l := h.set_leads _ l
  hold h d := (ran_hold d _).times h
  moveTo h _ _ _ := h.congr rfl rfl
  finish h := h.congr rfl rfl

namespace State.HoldsRecorded

variable {s t : State}

/-! The host: a move of it may add any records, so its operations are gone through one by one. -/

theorem start_leads (h : s.HoldsRecorded) : (doStart s).Leads State.HoldsRecorded State.HoldsRecorded := by
  rcases doStart_cases s with ⟨-, hd⟩ | ⟨-, hd⟩ | ⟨-, -, hd⟩ <;> rw [hd]
  · exact h.congr rfl rfl
  · exact h.congr rfl rfl
  · trivial

theorem hostWrite_leads (h : s.HoldsRecorded) (r : RegNum) (v : Nat) :
    (doHostWrite r v s).Leads State.HoldsRecorded State.HoldsRecorded := by
  unfold doHostWrite
  split
  · exact h.start_leads
  · rw [storeReg_frame]
    exact h.congr rfl rfl

theorem waitRun_leads (h : s.HoldsRecorded) : (waitRun s).Leads State.HoldsRecorded State.HoldsRecorded := by
  have hrun := holdsRecorded_keptByRun.transmit_leads h
  rcases waitRun_ends s with ⟨t, hw, hd, -⟩ | ⟨t, hw, hd, -⟩ <;> rw [hw] <;> rw [hd] at hrun
  · exact hrun
  · exact congr (s := t) hrun rfl rfl

theorem send_leads (h : s.HoldsRecorded) (g a v : Nat) :
    (doSend g a v s).Leads State.HoldsRecorded State.HoldsRecorded := by
  rcases doStart_cases s with ⟨hb, -⟩ | ⟨hr, -⟩ | ⟨hb, hw, -⟩
  · rw [doSend_busy hb]
    exact h.congr rfl rfl
  · rw [doSend_ready hr]
    exact (h.congr (t := s.sendStart g a v) rfl rfl).waitRun_leads
  · rw [doSend_unwritten hb hw]
    trivial

theorem pairs_leads (v : Nat) : ∀ (pairs : List (Nat × Nat)) {s : State}, s.HoldsRecorded →
    (sendPairs v pairs s).Leads State.HoldsRecorded State.HoldsRecorded
  | [], _, h => h
  | (g, a) :: [], _, h => h.send_leads g a v
  | (g, a) :: q :: rest, _, h =>
    (h.send_leads g a v).andThen fun _ ht => pairs_leads v (q :: rest) (ht.recordPause _)

/-! Instructions and steps. -/

theorem exec_next (h : s.HoldsRecorded) {i : Instr} (ht : exec i s = .next t) : t.HoldsRecorded := by
  cases i
  case on g a => exact (h.send_leads g.toNat a.toNat 1).next ht
  case off g a => exact (h.send_leads g.toNat a.toNat 0).next ht
  case bit0 => exact (holdsRecorded_keptByRun.symbol_leads h false).next ht
  case bit1 => exact (holdsRecorded_keptByRun.symbol_leads h true).next ht
  case gap => exact Host.Outcome.next.inj ht ▸ (ran_hold s.heldGap s).times h
  case sethi p => exact (h.set_leads p .high).next ht
  case setlo p => exact (h.set_leads p .low).next ht
  case hold d => exact Host.Outcome.next.inj ht ▸ (ran_hold d s).times h
  case wrcfg r v => exact (h.hostWrite_leads r v).next ht
  case rdreg r => exact Host.Outcome.next.inj ht ▸ h.congr rfl rfl
  case start => exact h.start_leads.next ht
  case acq => exact (holdsRecorded_keptByRun.acq h).next ht
  case drvinit => exact h.drvInit_leads.next ht
  case cfgout p => exact (h.cfgOut_leads p).next ht
  case transmit => exact (holdsRecorded_keptByRun.transmit_leads h).next ht
  case send g a v => exact (h.send_leads g a v).next ht
  case pause d => exact Host.Outcome.next.inj ht ▸ h.recordPause d
  case batch groups addrs v => exact (pairs_leads v (batchPairs groups addrs) h).next ht
  case all g v => exact (h.send_leads g Config.broadcastAddr v).next ht

theorem programStep_next (h : s.HoldsRecorded) (ht : programStep s = .next t) : t.HoldsRecorded := by
  rcases programStep_cases ht with ⟨-, rfl⟩ | ⟨item, rest, i, -, -, he⟩
  · exact h
  · exact (h.congr (t := { s with prog := rest }) rfl rfl).exec_next he

theorem step_next (h : s.HoldsRecorded) (ht : step s = .next t) : t.HoldsRecorded := by
  have hpop : s.popTurn.HoldsRecorded := h.congr rfl rfl
  obtain ⟨-, ⟨-, hm⟩ | ⟨-, -, -, hm⟩ | ⟨-, -, -, hm⟩ | ⟨-, -, hm⟩⟩ := step_cases ht
  · exact h.programStep_next hm
  · exact hpop.programStep_next hm
  · exact holdsRecorded_keptByRun.sequencerStep_next hpop hm
  · exact holdsRecorded_keptByRun.sequencerStep_next h hm

end State.HoldsRecorded

end Sys2Proof.Machine
end

section
/-! PROOF. The obligations about the pulse transmitter (spec/41_pulse_transmitter.md). -/

namespace Sys2Proof.Proofs

open Sys2Proof.Machine

/-- Settles O26: both steps agree, but for timing, with the step of the one state without timing. -/
theorem disturbedTiming : Obligations.DisturbedTiming := fun s s' h =>
  sameOutcome_of_mapNext_eq <| by rw [step_eraseTiming s, h, ← step_eraseTiming s']

/-- Settles O17: SETHI is a Set of the line to HIGH. -/
theorem sethiResult : Obligations.SethiResult := fun p => doSet_result p .high

/-- Settles O18: SETLO is a Set of the line to LOW. -/
theorem setloResult : Obligations.SetloResult := fun p => doSet_result p .low

/-- Settles O19: the hold is the loop of R120, and before its end TIMER shows what is left. -/
theorem holdResult : Obligations.HoldResult := by
  refine fun d s => ⟨?_, ?_, fun n hn => ticks_timer { s with timer := d } hn.le⟩
  · rw [exec_hold, doHold_eq]
  · rw [exec_hold, doHold_eq_ticks, State.loadTimer]

/-- Settles O20: the symbol of bit 0, by the answers to its two Sets; the corrections of the table are computed. -/
theorem bit0Result : Obligations.Bit0Result := fun s => by
  obtain ⟨bothOk, firstFails, secondFails⟩ := doSymbol_result false s
  exact ⟨bothOk, firstFails, secondFails, held_of false, held_of false⟩

/-- Settles O21: the symbol of bit 1, by the answers to its two Sets; the corrections of the table are computed. -/
theorem bit1Result : Obligations.Bit1Result := fun s => by
  obtain ⟨bothOk, firstFails, secondFails⟩ := doSymbol_result true s
  exact ⟨bothOk, firstFails, secondFails, held_of true, held_of true⟩

/-- Settles O23: the correction is subtraction of naturals, and no interval of a symbol is shorter than 250 us. -/
theorem saturatingSubtraction : Obligations.SaturatingSubtraction := by
  refine ⟨fun a c => ?_, fun timing b c hc => ?_⟩
  · rw [sat_toNat]
    omega
  · obtain ⟨hhigh, hlow⟩ := pulse_ge timing b
    rw [sat_toNat, sat_toNat]
    omega

/-- Settles O24: an interval that saturates is held longer than its nominal duration less the correction. -/
theorem bitTimingInvariant : Obligations.BitTimingInvariant := by
  refine ⟨pulse_high_add_low, fun s b => ?_⟩
  have hsum := pulse_high_add_low s.bitTiming b
  rw [heldHigh_toNat, heldLow_toNat]
  omega

/-- Settles O25: the record of a hold is its corrected duration with the overhead drawn, which is the correction. -/
theorem calibratedCase : Obligations.CalibratedCase := by
  refine ⟨fun s nominal heps hle => ?hold, fun s b hok heps hle => ?symbol, fun s heps hle => ?gap⟩
  case hold => exact ⟨_, _, exec_hold _ s, doHold_times s _, heps ▸ observed_sat _ hle⟩
  case gap => exact ⟨_, _, exec_gap s, doHold_times s _, heps ▸ observed_sat _ hle⟩
  case symbol =>
    obtain ⟨l, hl⟩ : ∃ l, s.eps.script = s.xLat.toNat :: s.xLat.toNat :: l :=
      ⟨s.eps.script.drop 2, by rw [← List.take_append_drop 2 s.eps.script, heps]; simp⟩
    have hfirst : s.nextEps = s.xLat.toNat := nextEps_of_cons hl
    have hsecond : (highDone b s).nextEps = s.xLat.toNat := highDone_nextEps hl
    obtain ⟨hhigh, hlow⟩ := pulse_ge s.bitTiming b
    refine ⟨symbolDone b s, _, _, ?_, symbolDone_times b s, ?_, ?_⟩
    · rw [exec_symbol, doSymbol_ok b hok, Res.outcome_ok]
    · rw [hfirst]
      exact observed_sat _ (hle.trans hhigh)
    · rw [hsecond]
      exact observed_sat _ (hle.trans hlow)

/-- Settles O48: only a hold records an interval, and every hold does. -/
theorem oneIntervalPerHold : Obligations.OneIntervalPerHold := fun _ _ => State.HoldsRecorded.step_next

/-- Settles O22: the gap is the hold of its corrected duration. -/
theorem gapResult : Obligations.GapResult := by
  refine fun s => ⟨?_, sat_eq_zero, fun hgap hlat => ?_⟩
  · rw [exec_gap, doHold_eq, State.heldGap]
  · rw [hgap, hlat]
    decide

end Sys2Proof.Proofs
end

section
/-! SUPPORT. The host's access to the registers (spec/10_state.md R33; spec/42_frame_repeater.md R150, R151), the driver
operations with the states they leave written out (R154, R155), and what a host operation can do while BUSY (R162). -/

namespace Sys2Proof.Machine

/-! Registers. -/

theorem doHostWrite_plain {r : RegNum} (v : Nat) (s : State) (h : r.toNat ≠ 7) :
    doHostWrite r v s = .ok (s.storeReg r v) := by
  have hctrl : (r == 7#4) = false := beq_eq_false_iff_ne.mpr fun hc => h (congrArg BitVec.toNat hc)
  have hplain : isStartWrite r v = false := by rw [isStartWrite, hctrl, Bool.false_and]
  rw [doHostWrite, hplain, if_neg Bool.false_ne_true]

/-- Only a write of register 3, CFG_PIN, sets the written mark (R35). -/
theorem storeReg_cfgPinWritten (s : State) (r : RegNum) (v : Nat) :
    (s.storeReg r v).cfgPinWritten = (s.cfgPinWritten || r == 3) := by
  by_cases h3 : r = 3
  · subst h3
    simp [State.storeReg]
  · have hnum : r.toNat ≠ 3 := fun hc => h3 (BitVec.eq_of_toNat_eq hc)
    rw [beq_eq_false_iff_ne.mpr h3, Bool.or_false, State.storeReg]
    split
    case h_4 hc => exact absurd hc hnum
    all_goals rfl

/-- The fields of STATUS as an integer (R33). -/
theorem statusWord_toNat (s : State) :
    s.statusWord.toNat = s.busy.toNat + 2 * s.done.toNat + 4 * s.err.code.toNat := by
  cases hb : s.busy <;> cases hd : s.done <;> cases he : s.err <;> simp [State.statusWord, hb, hd, he, Failure.code]

/-- A read gives the register's value, padded to the width of the bus (R33, R151). Both sides are given by the register's
number; those that hold no register, 7 and from 10 on, read as 0. -/
theorem loadReg_toNat (s : State) (r : RegNum) : (s.loadReg r).toNat = s.regValue r := by
  unfold State.loadReg State.regValue
  generalize r.toNat = k
  match k with
  | 8 => exact statusWord_toNat s
  | 0 | 1 | 2 | 3 | 4 | 5 | 6 | 7 | 9 => rfl
  | _ + 10 => rfl

/-! Driver operations and the acquisition. -/

theorem initOk_eq (s : State) :
    s.initOk = { s with gpioInit := true, trace := s.trace ++ [.drvInit], answers := s.answers.tail } := rfl

theorem cfgOk_eq (s : State) (p : Pin) :
    s.cfgOk p = { s with
      configured := (s.cfgOk p).configured, trace := s.trace ++ [.cfgOut p], answers := s.answers.tail } := rfl

theorem acqFail_eq (s : State) : s.acqFail = s.failed .pinInit := rfl

/-! Host operations while BUSY. -/

/-- A batch while BUSY ends at the START of its first SEND (R226, log 21); without pairs it does nothing (log 29). -/
theorem sendPairs_busy {s : State} (h : s.busy = true) (v : Nat) :
    ∀ pairs : List (Nat × Nat), sendPairs v pairs s = .ok s ∨
      ∃ g a, sendPairs v pairs s = .stopped (s.writeCommand g a v).setFaulted
  | [] => .inl rfl
  | (g, a) :: [] => .inr ⟨g, a, doSend_busy h g a v⟩
  | (g, a) :: q :: rest => .inr ⟨g, a, by rw [sendPairs_cons, doSend_busy h, Res.andThen_stopped]⟩

/-- What a host operation may write while BUSY: the operand and configuration registers, the read data, the record of
time and FAULTED. -/
def BusyFrame (s t : State) : Prop :=
  t = { s with
    cmdGroup := t.cmdGroup, cmdAddr := t.cmdAddr, cmdOn := t.cmdOn
    cfgPin := t.cfgPin, cfgPinWritten := t.cfgPinWritten
    cfgRetries := t.cfgRetries, cfgGap := t.cfgGap, cfgLatency := t.cfgLatency
    readData := t.readData, times := t.times, faulted := t.faulted }

theorem busyFrame_storeReg (s : State) (r : RegNum) (v : Nat) : BusyFrame s (s.storeReg r v) := by
  rw [storeReg_frame]
  rfl

/-- START, and every host operation that gives one, ends at FAULTED (R226). -/
theorem doStart_busyFrame {s : State} (h : s.busy = true) : (doStart s).Leads (BusyFrame s) (BusyFrame s) := by
  rw [doStart_busy h]
  rfl

theorem doSend_busyFrame {s : State} (h : s.busy = true) (g a v : Nat) :
    (doSend g a v s).Leads (BusyFrame s) (BusyFrame s) := by
  rw [doSend_busy h]
  rfl

theorem doHostWrite_busyFrame {s : State} (h : s.busy = true) (r : RegNum) (v : Nat) :
    (doHostWrite r v s).Leads (BusyFrame s) (BusyFrame s) := by
  unfold doHostWrite
  split
  · exact doStart_busyFrame h
  · exact busyFrame_storeReg s r v

theorem sendPairs_busyFrame {s : State} (h : s.busy = true) (v : Nat) (pairs : List (Nat × Nat)) :
    (sendPairs v pairs s).Leads (BusyFrame s) (BusyFrame s) := by
  rcases sendPairs_busy h v pairs with hd | ⟨g, a, hd⟩ <;> rw [hd] <;> rfl

theorem exec_busyFrame {i : Instr} {s t : State} (hi : isHostOp i = true) (h : s.busy = true)
    (ht : exec i s = .next t) : BusyFrame s t := by
  cases i <;> simp only [isHostOp, Bool.false_eq_true] at hi
  case on g a => exact (doSend_busyFrame h g.toNat a.toNat 1).next ht
  case off g a => exact (doSend_busyFrame h g.toNat a.toNat 0).next ht
  case wrcfg r v => exact (doHostWrite_busyFrame h r v).next ht
  case rdreg r => exact Host.Outcome.next.inj ht ▸ rfl
  case start => exact (doStart_busyFrame h).next ht
  case send g a v => exact (doSend_busyFrame h g a v).next ht
  case pause d => exact Host.Outcome.next.inj ht ▸ rfl
  case batch groups addrs v => exact (sendPairs_busyFrame h v (batchPairs groups addrs)).next ht
  case all g v => exact (doSend_busyFrame h g Config.broadcastAddr v).next ht

end Sys2Proof.Machine
end

section
/-! SUPPORT. What the blocks of a transmission add up to (spec/42_frame_repeater.md R168), and the records of time it
leaves: its setup time, then intervals only (spec/41_pulse_transmitter.md R130). -/

namespace Sys2Proof.Machine

/-! Counting over repetitions. -/

/-- What is counted over a list of events and adds up over stretches of it. -/
structure Additive (m : List Event → Nat) : Prop where
  nil : m [] = 0
  append : ∀ a b, m (a ++ b) = m a + m b

/-- With c counted in every symbol and g in the gap, n repetitions count n times 25 c + g. -/
theorem Additive.framesEvents {m : List Event → Nat} (hm : Additive m) {s : State} (c g : Nat)
    (hsymbol : ∀ b, m (s.symbolEvents b) = c) (hgap : m [.hold s.heldGap] = g) (n : Nat) :
    m (s.framesEvents n) = (25 * c + g) * n := by
  have hbits : ∀ bits : List Bool, m (bits.flatMap s.symbolEvents) = bits.length * c := by
    intro bits
    induction bits with
    | nil => rw [List.flatMap_nil, hm.nil, List.length_nil, Nat.zero_mul]
    | cons b bits ih => rw [List.flatMap_cons, hm.append, hsymbol, ih, List.length_cons, Nat.succ_mul, Nat.add_comm]
  have hframe : m s.frameEvents = 25 * c + g := by
    rw [State.frameEvents, hm.append, hbits, frameBits_length, hgap]
  induction n with
  | zero => exact hm.nil
  | succ n ih => rw [framesEvents_succ, hm.append, hframe, ih, Nat.mul_succ, Nat.add_comm]

theorem additive_length : Additive List.length := ⟨rfl, fun _ _ => List.length_append⟩

theorem additive_count (e : Event) : Additive (List.count e) := ⟨rfl, fun _ _ => List.count_append⟩

theorem additive_holds : Additive fun es => (heldOfTrace es).length :=
  ⟨rfl, fun a b => by rw [heldOfTrace_append, List.length_append]⟩

theorem additive_pinOps : Additive fun es => (es.filter Event.isPinOp).length :=
  ⟨rfl, fun a b => by rw [List.filter_append, List.length_append]⟩

theorem framesEvents_length (s : State) (n : Nat) : (s.framesEvents n).length = 101 * n :=
  additive_length.framesEvents 4 1 (fun _ => rfl) rfl n

theorem framesEvents_count_high (s : State) (n : Nat) : (s.framesEvents n).count (.set s.xPin .high) = 25 * n :=
  (additive_count _).framesEvents 1 0 (fun b => by simp [State.symbolEvents]) (by simp) n

theorem framesEvents_count_low (s : State) (n : Nat) : (s.framesEvents n).count (.set s.xPin .low) = 25 * n :=
  (additive_count _).framesEvents 1 0 (fun b => by simp [State.symbolEvents]) (by simp) n

theorem framesEvents_holds (s : State) (n : Nat) : (heldOfTrace (s.framesEvents n)).length = 51 * n :=
  additive_holds.framesEvents 2 1 (fun _ => rfl) rfl n

theorem framesEvents_pinOps (s : State) (n : Nat) : ((s.framesEvents n).filter Event.isPinOp).length = 50 * n :=
  additive_pinOps.framesEvents 2 0 (fun _ => rfl) rfl n

/-- The acquisition sets no level and holds nothing. -/
theorem acqEvents_cases {s : State} {e : Event} (h : e ∈ s.acqEvents) : e = .drvInit ∨ e = .cfgOut s.xPin := by
  unfold State.acqEvents at h
  rcases List.mem_append.mp h with h | h
  · left; split at h <;> simp_all
  · right; split at h <;> simp_all

theorem acqEvents_count_set (s : State) (p : Pin) (l : Level) : s.acqEvents.count (.set p l) = 0 :=
  List.count_eq_zero.mpr fun h => by simpa using acqEvents_cases h

theorem acqEvents_holds (s : State) : heldOfTrace s.acqEvents = [] :=
  List.filterMap_eq_nil_iff.mpr fun e h => by rcases acqEvents_cases h with rfl | rfl <;> rfl

theorem runEvents_pinOps (s : State) :
    (s.runEvents.filter Event.isPinOp).length = s.acqOps + 50 * s.xRetries.toNat := by
  have hacq : (s.acqEvents.filter Event.isPinOp).length = s.acqOps := by
    rw [List.filter_eq_self.mpr fun _ => acqEvents_isPinOp, acqEvents_length]
  rw [State.runEvents, additive_pinOps.append, hacq, framesEvents_pinOps]

/-! The records of time. -/

/-- All the records are timed intervals. -/
def IntervalsOnly (ts : List Timed) : Prop := ∀ x ∈ ts, ∃ l d e, x = .interval l d e

/-- The records are those of one run: its setup time, then timed intervals only. -/
def IsRun (ts : List Timed) : Prop := ∃ n rest, ts = .setup n :: rest ∧ IntervalsOnly rest

/-- From s to t only timed intervals were recorded. -/
def IntervalsBetween (s t : State) : Prop := ∃ rest, t.times = s.times ++ rest ∧ IntervalsOnly rest

/-- From s to t one run was recorded. -/
def RunBetween (s t : State) : Prop := ∃ r, t.times = s.times ++ r ∧ IsRun r

theorem IntervalsBetween.of_times_eq {s t : State} (h : t.times = s.times) : IntervalsBetween s t :=
  ⟨[], by rw [h, List.append_nil], by simp [IntervalsOnly]⟩

theorem IntervalsOnly.append {a b : List Timed} (ha : IntervalsOnly a) (hb : IntervalsOnly b) :
    IntervalsOnly (a ++ b) :=
  fun x hx => (List.mem_append.mp hx).elim (ha x) (hb x)

theorem IntervalsBetween.trans {s t u : State} (h : IntervalsBetween s t) (k : IntervalsBetween t u) :
    IntervalsBetween s u := by
  obtain ⟨a, ha, hia⟩ := h
  obtain ⟨b, hb, hib⟩ := k
  exact ⟨a ++ b, by rw [hb, ha, List.append_assoc], hia.append hib⟩

theorem RunBetween.trans {s t u : State} (h : RunBetween s t) (k : IntervalsBetween t u) : RunBetween s u := by
  obtain ⟨_, ha, n, a, rfl, hia⟩ := h
  obtain ⟨b, hb, hib⟩ := k
  exact ⟨.setup n :: a ++ b, by rw [hb, ha, List.append_assoc], n, a ++ b, rfl, hia.append hib⟩

theorem intervalsBetween_hold (d : Dur) (s : State) : IntervalsBetween s (doHold d s) :=
  ⟨_, doHold_times s d, fun _ hx => ⟨_, _, _, List.mem_singleton.mp hx⟩⟩

theorem Res.Leads.intervals {s : State} {r : Res} {f : State → Res}
    (h : r.Leads (IntervalsBetween s) (IntervalsBetween s))
    (hf : ∀ t, (f t).Leads (IntervalsBetween t) (IntervalsBetween t)) :
    (r.andThen f).Leads (IntervalsBetween s) (IntervalsBetween s) :=
  h.andThen fun t ht => (hf t).imp (fun _ => ht.trans) (fun _ => ht.trans)

theorem doSet_intervals (p : Pin) (l : Level) (s : State) :
    (doSet p l s).Leads (IntervalsBetween s) (IntervalsBetween s) := by
  rcases doSet_cases s p l with ⟨-, h⟩ | ⟨-, h⟩ <;> rw [h]
  · exact .of_times_eq (State.setOk_times s p l)
  · exact .of_times_eq (State.setFail_times s p)

theorem doSymbol_intervals (b : Bool) (s : State) :
    (doSymbol b s).Leads (IntervalsBetween s) (IntervalsBetween s) :=
  (doSet_intervals s.xPin .high s).intervals fun s1 =>
    have hhigh := intervalsBetween_hold (s1.heldHigh b) s1
    ((doSet_intervals s1.xPin .low _).imp (fun _ => hhigh.trans) (fun _ => hhigh.trans)).intervals fun s2 =>
      intervalsBetween_hold (s2.heldLow b) s2

theorem sendBits_intervals (bits : List Bool) (s : State) :
    (sendBits bits s).Leads (IntervalsBetween s) (IntervalsBetween s) := by
  induction bits generalizing s with
  | nil => exact .of_times_eq rfl
  | cons b bits ih => exact (doSymbol_intervals b s).intervals ih

theorem sendFrames_intervals (n : Nat) (s : State) :
    (sendFrames n s).Leads (IntervalsBetween s) (IntervalsBetween s) := by
  induction n generalizing s with
  | zero => exact .of_times_eq rfl
  | succ n ih =>
    have hframe : (sendFrame s).Leads (IntervalsBetween s) (IntervalsBetween s) :=
      (sendBits_intervals (frameBits s.frame) s).intervals fun t => intervalsBetween_hold t.heldGap t
    exact hframe.intervals ih

/-- The driver operations of the acquisition record no time. -/
theorem drvInitIfNeeded_times (s : State) :
    (drvInitIfNeeded s).Leads (·.times = s.times) (·.times = s.times) := by
  rcases drvInitIfNeeded_cases s with ⟨-, h⟩ | ⟨-, -, h⟩ | ⟨-, -, h⟩ <;> rw [h]
  · rfl
  · exact State.initOk_times s
  · exact State.acqFail_times s

theorem cfgOutIfNeeded_times (p : Pin) (s : State) :
    (cfgOutIfNeeded p s).Leads (·.times = s.times) (·.times = s.times) := by
  rcases cfgOutIfNeeded_cases s p with ⟨-, h⟩ | ⟨-, -, h⟩ | ⟨-, -, h⟩ <;> rw [h]
  · rfl
  · exact State.cfgOk_times s p
  · exact State.acqFail_times s

theorem doAcq_runBetween (s : State) : (doAcq s).Leads (RunBetween s) (RunBetween s) := by
  have htimes : (doAcq s).Leads (·.times = s.recordSetup.times) (·.times = s.recordSetup.times) :=
    (drvInitIfNeeded_times s.recordSetup).andThen fun t ht =>
      (cfgOutIfNeeded_times t.xPin t).imp (fun _ h => h.trans ht) (fun _ h => h.trans ht)
  have hsetup : RunBetween s s.recordSetup :=
    ⟨_, State.recordSetup_times s, s.nextSetup, [], rfl, by simp [IntervalsOnly]⟩
  exact htimes.imp (fun _ h => hsetup.trans (.of_times_eq h)) (fun _ h => hsetup.trans (.of_times_eq h))

/-- The records of a transmission, however it ends: its setup time, then one interval after another (log 9). -/
theorem doTransmit_runBetween (s : State) : (doTransmit s).Leads (RunBetween s) (RunBetween s) :=
  (doAcq_runBetween s).andThen fun t ht =>
    ((sendFrames_intervals t.xRetries.toNat t).imp (fun _ => ht.trans) (fun _ => ht.trans)).andThen fun u hu =>
      hu.trans (.of_times_eq (State.finish_times u))

end Sys2Proof.Machine
end

section
/-! SUPPORT. The small-step table (spec/42_frame_repeater.md R161), row by row, and what is left of a run at a position
of the sequencer. Each row makes one step of what is left, so the small steps end where the big step of R158 does. -/

namespace Sys2Proof.Machine

/-! The rows of the table. -/

section
variable {s : State}

/-- The step of a phase, its instruction ended in the state t. -/
theorem sequencerStep_next_of {t : State} {i : Instr} (hi : s.seqInstr = some i) (he : exec i s = .next t) :
    sequencerStep s = .next t.advanceUnlessRaised := by
  simp only [sequencerStep, hi, he]

/-- A step that raised has nothing left to do. -/
theorem advanceUnlessRaised_idle (hp : s.seq.phase = .idle) : s.advanceUnlessRaised = s := if_pos hp

theorem sequencerStep_acq (hp : s.seq.phase = .acq) :
    (∃ t, doAcq s = .ok t ∧ t.seq = s.seq ∧
        sequencerStep s = .next (if t.xRetries = 0 then t.finish else t.moveTo .setHi 0 0)) ∨
      ∃ t, doAcq s = .stopped t ∧ t.seq.phase = .idle ∧ sequencerStep s = .next t := by
  have hi : s.seqInstr = some .acq := by simp [State.seqInstr, hp]
  have hends := ends_acq s
  cases hd : doAcq s with
  | ok t =>
    rw [hd] at hends
    obtain ⟨-, -, -, hseq⟩ := hends
    refine .inl ⟨t, rfl, hseq, ?_⟩
    rw [sequencerStep_next_of hi (by rw [exec_acq, hd, Res.outcome_ok]), advanceUnlessRaised_acq (hseq ▸ hp)]
  | stopped t =>
    rw [hd] at hends
    obtain ⟨-, -, -, hseq, -⟩ := hends
    have hidle : t.seq.phase = .idle := by rw [hseq]
    refine .inr ⟨t, rfl, hidle, ?_⟩
    rw [sequencerStep_next_of hi (by rw [exec_acq, hd, Res.outcome_stopped]), advanceUnlessRaised_idle hidle]
  | refused r => rw [hd] at hends; exact hends.elim

theorem sequencerStep_setHi (hp : s.seq.phase = .setHi) (ha : s.answer = .ok) :
    sequencerStep s = .next ((s.setOk s.xPin .high).moveTo .holdHi s.seq.rep s.seq.bit) := by
  have hi : s.seqInstr = some (.sethi s.xPin) := by simp [State.seqInstr, hp]
  rw [sequencerStep_next_of hi (by rw [exec_sethi, doSet_ok ha, Res.outcome_ok]),
    advanceUnlessRaised_setHi (by rwa [State.setOk_seq]), State.setOk_seq]

theorem sequencerStep_setLo (hp : s.seq.phase = .setLo) (ha : s.answer = .ok) :
    sequencerStep s = .next ((s.setOk s.xPin .low).moveTo .holdLo s.seq.rep s.seq.bit) := by
  have hi : s.seqInstr = some (.setlo s.xPin) := by simp [State.seqInstr, hp]
  rw [sequencerStep_next_of hi (by rw [exec_setlo, doSet_ok ha, Res.outcome_ok]),
    advanceUnlessRaised_setLo (by rwa [State.setOk_seq]), State.setOk_seq]

/-- A failing Set of a run leads to the failure entry (R193, R197). -/
theorem sequencerStep_setFail (hp : s.seq.phase = .setHi ∨ s.seq.phase = .setLo) (ha : s.answer = .fail) :
    sequencerStep s = .next (s.setFail s.xPin) := by
  have hidle : (s.setFail s.xPin).seq.phase = .idle := by rw [State.setFail_seq]
  rcases hp with hp | hp
  · have hi : s.seqInstr = some (.sethi s.xPin) := by simp [State.seqInstr, hp]
    rw [sequencerStep_next_of hi (by rw [exec_sethi, doSet_fail ha, Res.outcome_stopped]),
      advanceUnlessRaised_idle hidle]
  · have hi : s.seqInstr = some (.setlo s.xPin) := by simp [State.seqInstr, hp]
    rw [sequencerStep_next_of hi (by rw [exec_setlo, doSet_fail ha, Res.outcome_stopped]),
      advanceUnlessRaised_idle hidle]

theorem sequencerStep_holdHi (hp : s.seq.phase = .holdHi) :
    sequencerStep s = .next ((doHold (s.heldHigh s.currentBit) s).moveTo .setLo s.seq.rep s.seq.bit) := by
  have hi : s.seqInstr = some (.hold (s.heldHigh s.currentBit)) := by simp [State.seqInstr, hp]
  rw [sequencerStep_next_of hi (exec_hold _ s), advanceUnlessRaised_holdHi (by rwa [doHold_seq]), doHold_seq]

theorem sequencerStep_holdLo (hp : s.seq.phase = .holdLo) :
    sequencerStep s = .next (
      if s.seq.bit.toNat < 24 then
        (doHold (s.heldLow s.currentBit) s).moveTo .setHi s.seq.rep (s.seq.bit + 1)
      else (doHold (s.heldLow s.currentBit) s).moveTo .holdGap s.seq.rep 24) := by
  have hi : s.seqInstr = some (.hold (s.heldLow s.currentBit)) := by simp [State.seqInstr, hp]
  rw [sequencerStep_next_of hi (exec_hold _ s), advanceUnlessRaised_holdLo (by rwa [doHold_seq]), doHold_seq]

theorem sequencerStep_holdGap (hp : s.seq.phase = .holdGap) :
    sequencerStep s = .next (
      if s.seq.rep.toNat + 1 < s.xRetries.toNat then
        (doHold s.heldGap s).moveTo .setHi (s.seq.rep + 1) 0
      else (doHold s.heldGap s).finish) := by
  have hi : s.seqInstr = some .gap := by simp [State.seqInstr, hp]
  rw [sequencerStep_next_of hi (exec_gap s), advanceUnlessRaised_holdGap (by rwa [doHold_seq]), doHold_seq,
    doHold_xRetries]

end

/-! What is left of a run. -/

/-- m more repetitions, then the completion. -/
def framesOn (m : Nat) (s : State) : Res := (sendFrames m s).andThen fun t => .ok t.finish

/-- The rest of a repetition from its gap on, and m more of them. -/
def gapOn (m : Nat) (s : State) : Res := framesOn m (doHold s.heldGap s)

/-- The symbols of the bits, their gap, and m more repetitions. -/
def bitsOn (bits : List Bool) (m : Nat) (s : State) : Res := (sendBits bits s).andThen (gapOn m)

/-- A symbol from its LOW hold on, and what follows it. -/
def lowHoldOn (b : Bool) (bits : List Bool) (m : Nat) (s : State) : Res := bitsOn bits m (doHold (s.heldLow b) s)

/-- A symbol from its Set to LOW on. -/
def lowOn (b : Bool) (bits : List Bool) (m : Nat) (s : State) : Res :=
  (doSet s.xPin .low s).andThen (lowHoldOn b bits m)

/-- A symbol from its HIGH hold on. -/
def highHoldOn (b : Bool) (bits : List Bool) (m : Nat) (s : State) : Res := lowOn b bits m (doHold (s.heldHigh b) s)

/-- A symbol from its Set to HIGH on. -/
def highOn (b : Bool) (bits : List Bool) (m : Nat) (s : State) : Res :=
  (doSet s.xPin .high s).andThen (highHoldOn b bits m)

/-- The bits of FRAME after the one in progress. -/
def State.bitsLeft (s : State) : List Bool := (frameBits s.frame).drop (s.seq.bit.toNat + 1)

/-- The repetitions after the one in progress. -/
def State.repsLeft (s : State) : Nat := s.xRetries.toNat - (s.seq.rep.toNat + 1)

/-- What is left of the run, from the position of the sequencer to the completion. -/
def restOfRun (s : State) : Res :=
  match s.seq.phase with
  | .idle => .ok s
  | .acq => doTransmit s
  | .setHi => highOn s.currentBit s.bitsLeft s.repsLeft s
  | .holdHi => highHoldOn s.currentBit s.bitsLeft s.repsLeft s
  | .setLo => lowOn s.currentBit s.bitsLeft s.repsLeft s
  | .holdLo => lowHoldOn s.currentBit s.bitsLeft s.repsLeft s
  | .holdGap => gapOn s.repsLeft s

/-- The number of steps left, if nothing fails: four per symbol, one per gap, one for the acquisition. -/
def stepsLeft (s : State) : Nat :=
  match s.seq.phase with
  | .idle => 0
  | .acq => 101 * s.xRetries.toNat + 1
  | .setHi => 101 * s.repsLeft + 4 * (24 - s.seq.bit.toNat) + 5
  | .holdHi => 101 * s.repsLeft + 4 * (24 - s.seq.bit.toNat) + 4
  | .setLo => 101 * s.repsLeft + 4 * (24 - s.seq.bit.toNat) + 3
  | .holdLo => 101 * s.repsLeft + 4 * (24 - s.seq.bit.toNat) + 2
  | .holdGap => 101 * s.repsLeft + 1

/-! What is left reads no position: the completion and the failure entry write it anew. -/

/-- The operation does the same wherever the sequencer stands. -/
def Placeless (k : State → Res) : Prop := ∀ s ph rp bt, k (s.moveTo ph rp bt) = k s

theorem Placeless.afterHold {k : State → Res} (hk : Placeless k) {d : State → Dur}
    (hd : ∀ s ph rp bt, d (s.moveTo ph rp bt) = d s) : Placeless fun s => k (doHold (d s) s) :=
  fun s ph rp bt => by
    dsimp only
    rw [hd]
    exact hk (doHold (d s) s) ph rp bt

theorem Placeless.afterSet {k : State → Res} (hk : Placeless k) (l : Level) :
    Placeless fun s => (doSet s.xPin l s).andThen k := fun s ph rp bt => by
  dsimp only
  cases ha : s.answer with
  | ok =>
    rw [doSet_ok ha, doSet_ok (s := s.moveTo ph rp bt) ha]
    exact hk (s.setOk s.xPin l) ph rp bt
  | fail =>
    rw [doSet_fail ha, doSet_fail (s := s.moveTo ph rp bt) ha]
    rfl

theorem Placeless.afterSymbol {k : State → Res} (hk : Placeless k) (b : Bool) :
    Placeless fun s => (doSymbol b s).andThen k := by
  have h : Placeless fun s => (doSet s.xPin .high s).andThen fun s1 =>
      (doSet (doHold (s1.heldHigh b) s1).xPin .low (doHold (s1.heldHigh b) s1)).andThen fun s2 =>
        k (doHold (s2.heldLow b) s2) :=
    (((hk.afterHold (d := (·.heldLow b)) fun _ _ _ _ => rfl).afterSet .low).afterHold (d := (·.heldHigh b))
      fun _ _ _ _ => rfl).afterSet .high
  intro s ph rp bt
  simpa only [doSymbol, Res.andThen_assoc, Res.andThen_ok, doHold_xPin] using h s ph rp bt

theorem Placeless.afterBits {k : State → Res} (hk : Placeless k) (bits : List Bool) :
    Placeless fun s => (sendBits bits s).andThen k := by
  induction bits with
  | nil => exact hk
  | cons b bits ih =>
    intro s ph rp bt
    simpa only [sendBits, Res.andThen_assoc] using ih.afterSymbol b s ph rp bt

theorem placeless_framesOn (m : Nat) : Placeless (framesOn m) := by
  induction m with
  | zero => exact fun _ _ _ _ => rfl
  | succ m ih =>
    intro s ph rp bt
    have h := (ih.afterHold (d := State.heldGap) fun _ _ _ _ => rfl).afterBits (frameBits s.frame) s ph rp bt
    simpa only [framesOn, sendFrames, sendFrame, Res.andThen_assoc, Res.andThen_ok, doGap, State.moveTo_frame] using h

theorem placeless_gapOn (m : Nat) : Placeless (gapOn m) := (placeless_framesOn m).afterHold fun _ _ _ _ => rfl

theorem placeless_bitsOn (bits : List Bool) (m : Nat) : Placeless (bitsOn bits m) := (placeless_gapOn m).afterBits bits

theorem placeless_lowHoldOn (b : Bool) (bits : List Bool) (m : Nat) : Placeless (lowHoldOn b bits m) :=
  (placeless_bitsOn bits m).afterHold fun _ _ _ _ => rfl

theorem placeless_lowOn (b : Bool) (bits : List Bool) (m : Nat) : Placeless (lowOn b bits m) :=
  (placeless_lowHoldOn b bits m).afterSet .low

theorem placeless_highHoldOn (b : Bool) (bits : List Bool) (m : Nat) : Placeless (highHoldOn b bits m) :=
  (placeless_lowOn b bits m).afterHold fun _ _ _ _ => rfl

theorem placeless_highOn (b : Bool) (bits : List Bool) (m : Nat) : Placeless (highOn b bits m) :=
  (placeless_highHoldOn b bits m).afterSet .high

/-! How the parts of a run begin. -/

theorem bitsOn_cons (b : Bool) (bits : List Bool) (m : Nat) : bitsOn (b :: bits) m = highOn b bits m := by
  funext s
  simp only [bitsOn, sendBits, doSymbol, Res.andThen_assoc, Res.andThen_ok]
  rfl

theorem framesOn_succ (m : Nat) (s : State) : framesOn (m + 1) s = bitsOn (frameBits s.frame) m s := by
  simp only [framesOn, sendFrames, sendFrame, Res.andThen_assoc, Res.andThen_ok]
  rfl

theorem doTransmit_eq (s : State) : doTransmit s = (doAcq s).andThen fun t => framesOn t.xRetries.toNat t := rfl

/-- The bits from an index on: the one at the index, and the ones after it. -/
theorem drop_frameBits (f : Frame) {i : Nat} (hi : i < 25) :
    (frameBits f).drop i = frameBit f i :: (frameBits f).drop (i + 1) := by
  rw [List.drop_eq_getElem_cons (by rwa [frameBits_length])]
  simp [frameBits]

/-! The next position, and what is left there. -/

theorem restOfRun_idle {s : State} (hp : s.seq.phase = .idle) : restOfRun s = .ok s := by
  simp only [restOfRun, hp]

theorem stepsLeft_pos {s : State} (hp : s.seq.phase ≠ .idle) : 0 < stepsLeft s := by
  unfold stepsLeft
  split
  case h_1 h => exact absurd h hp
  all_goals omega

/-- The Set to HIGH done, the symbol is left from its HIGH hold on. -/
theorem restOfRun_highHold (s : State) (rp : Count) (bt : BitVec 5) :
    restOfRun (s.moveTo .holdHi rp bt) =
      highHoldOn (frameBit s.frame bt.toNat) ((frameBits s.frame).drop (bt.toNat + 1))
        (s.xRetries.toNat - (rp.toNat + 1)) s :=
  placeless_highHoldOn _ _ _ s _ _ _

/-- The HIGH hold done, the symbol is left from its Set to LOW on. -/
theorem restOfRun_low (s : State) (rp : Count) (bt : BitVec 5) :
    restOfRun (s.moveTo .setLo rp bt) =
      lowOn (frameBit s.frame bt.toNat) ((frameBits s.frame).drop (bt.toNat + 1))
        (s.xRetries.toNat - (rp.toNat + 1)) s :=
  placeless_lowOn _ _ _ s _ _ _

/-- The Set to LOW done, the symbol is left from its LOW hold on. -/
theorem restOfRun_lowHold (s : State) (rp : Count) (bt : BitVec 5) :
    restOfRun (s.moveTo .holdLo rp bt) =
      lowHoldOn (frameBit s.frame bt.toNat) ((frameBits s.frame).drop (bt.toNat + 1))
        (s.xRetries.toNat - (rp.toNat + 1)) s :=
  placeless_lowHoldOn _ _ _ s _ _ _

/-- At the first symbol of a repetition the whole frame is left, and the repetitions after it. -/
theorem restOfRun_firstSymbol (s : State) {rp : Count} (h : rp.toNat < s.xRetries.toNat) :
    restOfRun (s.moveTo .setHi rp 0) = framesOn (s.xRetries.toNat - rp.toNat) s := by
  have hreps : s.xRetries.toNat - rp.toNat = (s.xRetries.toNat - (rp.toNat + 1)) + 1 := by omega
  have hbits : frameBits s.frame = frameBit s.frame 0 :: (frameBits s.frame).drop 1 :=
    drop_frameBits s.frame (i := 0) (by decide)
  rw [hreps, framesOn_succ, hbits, bitsOn_cons]
  exact placeless_highOn _ _ _ s _ _ _

/-- At the next symbol the bits after the last one are left. -/
theorem restOfRun_nextSymbol (s : State) {bt : BitVec 5} (h : bt.toNat < 24) (rp : Count) :
    restOfRun (s.moveTo .setHi rp (bt + 1)) =
      bitsOn ((frameBits s.frame).drop (bt.toNat + 1)) (s.xRetries.toNat - (rp.toNat + 1)) s := by
  have hnext : (bt + 1).toNat = bt.toNat + 1 := by bv_omega
  rw [drop_frameBits s.frame (by omega), bitsOn_cons, ← hnext]
  exact placeless_highOn _ _ _ s _ _ _

/-- At the gap no bit is left. -/
theorem restOfRun_gap (s : State) {bt : BitVec 5} (h : 24 ≤ bt.toNat) (rp : Count) :
    restOfRun (s.moveTo .holdGap rp 24) =
      bitsOn ((frameBits s.frame).drop (bt.toNat + 1)) (s.xRetries.toNat - (rp.toNat + 1)) s := by
  rw [List.drop_eq_nil_of_le (by rw [frameBits_length]; omega)]
  exact placeless_gapOn _ s _ _ _

/-- A step makes one step of what is left: the run ends as it would have, and sooner. -/
structure OneStep (s t : State) : Prop where
  rest : (restOfRun t).outcome = (restOfRun s).outcome
  fewer : stepsLeft t < stepsLeft s

/-- A step that ends the run: what was left was only that step. -/
theorem OneStep.ended {s t : State} (hs : s.seq.phase ≠ .idle) (ht : t.seq.phase = .idle)
    (h : (restOfRun s).outcome = .next t) : OneStep s t := by
  refine ⟨by rw [restOfRun_idle ht, h, Res.outcome_ok], ?_⟩
  have : stepsLeft t = 0 := by simp only [stepsLeft, ht]
  exact this ▸ stepsLeft_pos hs

theorem OneStep.goesOn {s t : State} (h : restOfRun t = restOfRun s) (hf : stepsLeft t < stepsLeft s) : OneStep s t :=
  ⟨by rw [h], hf⟩

section
variable {s : State}

theorem oneStep_acq (hp : s.seq.phase = .acq) : ∃ t, sequencerStep s = .next t ∧ OneStep s t := by
  have hbusy : s.seq.phase ≠ .idle := by simp [hp]
  have hrest : restOfRun s = (doAcq s).andThen fun t => framesOn t.xRetries.toNat t := by
    simp only [restOfRun, hp, doTransmit_eq]
  have hran := ran_acq s
  rcases sequencerStep_acq hp with ⟨t, hd, -, hstep⟩ | ⟨t, hd, hidle, hstep⟩ <;> rw [hd] at hrest
  · rw [hd] at hran
    obtain ⟨-, hret, -⟩ := hran.frame.keeps
    split at hstep
    case isTrue hz =>
      exact ⟨_, hstep, .ended hbusy rfl (by rw [hrest, Res.andThen_ok, hz]; rfl)⟩
    case isFalse hz =>
      have hpos : 0 < t.xRetries.toNat := Nat.pos_of_ne_zero fun hc => hz (BitVec.eq_of_toNat_eq hc)
      refine ⟨_, hstep, .goesOn ?_ ?_⟩
      · rw [hrest, restOfRun_firstSymbol t (rp := 0) hpos]
        rfl
      · have hfirst : (0 : Count).toNat = 0 ∧ (0 : BitVec 5).toNat = 0 := ⟨rfl, rfl⟩
        simp only [stepsLeft, hp, State.repsLeft, State.moveTo_seq, State.moveTo_xRetries, hfirst, ← hret]
        omega
  · exact ⟨t, hstep, .ended hbusy hidle (by rw [hrest]; rfl)⟩

theorem oneStep_setHi (hp : s.seq.phase = .setHi) : ∃ t, sequencerStep s = .next t ∧ OneStep s t := by
  have hrest : restOfRun s = highOn s.currentBit s.bitsLeft s.repsLeft s := by simp only [restOfRun, hp]
  cases ha : s.answer with
  | ok =>
    refine ⟨_, sequencerStep_setHi hp ha, .goesOn ?_ ?_⟩
    · rw [restOfRun_highHold, State.setOk_frame, State.setOk_xRetries, hrest, highOn, doSet_ok ha, Res.andThen_ok]
      rfl
    · simp [stepsLeft, hp, State.repsLeft]
  | fail =>
    refine ⟨_, sequencerStep_setFail (.inl hp) ha, .ended (by simp [hp]) (by simp) ?_⟩
    rw [hrest, highOn, doSet_fail ha, Res.andThen_stopped, Res.outcome_stopped]

theorem oneStep_setLo (hp : s.seq.phase = .setLo) : ∃ t, sequencerStep s = .next t ∧ OneStep s t := by
  have hrest : restOfRun s = lowOn s.currentBit s.bitsLeft s.repsLeft s := by simp only [restOfRun, hp]
  cases ha : s.answer with
  | ok =>
    refine ⟨_, sequencerStep_setLo hp ha, .goesOn ?_ ?_⟩
    · rw [restOfRun_lowHold, State.setOk_frame, State.setOk_xRetries, hrest, lowOn, doSet_ok ha, Res.andThen_ok]
      rfl
    · simp [stepsLeft, hp, State.repsLeft]
  | fail =>
    refine ⟨_, sequencerStep_setFail (.inr hp) ha, .ended (by simp [hp]) (by simp) ?_⟩
    rw [hrest, lowOn, doSet_fail ha, Res.andThen_stopped, Res.outcome_stopped]

theorem oneStep_holdHi (hp : s.seq.phase = .holdHi) : ∃ t, sequencerStep s = .next t ∧ OneStep s t := by
  refine ⟨_, sequencerStep_holdHi hp, .goesOn ?_ ?_⟩
  · have hrest : restOfRun s = highHoldOn s.currentBit s.bitsLeft s.repsLeft s := by simp only [restOfRun, hp]
    rw [hrest, restOfRun_low, doHold_frame, doHold_xRetries]
    rfl
  · simp [stepsLeft, hp, State.repsLeft]

theorem oneStep_holdLo (hp : s.seq.phase = .holdLo) : ∃ t, sequencerStep s = .next t ∧ OneStep s t := by
  have hrest : restOfRun s = lowHoldOn s.currentBit s.bitsLeft s.repsLeft s := by simp only [restOfRun, hp]
  have hstep := sequencerStep_holdLo hp
  split at hstep
  case isTrue hb =>
    have hnext : (s.seq.bit + 1).toNat = s.seq.bit.toNat + 1 := by bv_omega
    refine ⟨_, hstep, .goesOn ?_ ?_⟩
    · rw [hrest]
      exact restOfRun_nextSymbol (doHold (s.heldLow s.currentBit) s) hb s.seq.rep
    · simp only [stepsLeft, hp, State.repsLeft, State.moveTo_seq, State.moveTo_xRetries, doHold_xRetries, hnext]
      omega
  case isFalse hb =>
    refine ⟨_, hstep, .goesOn ?_ ?_⟩
    · rw [hrest]
      exact restOfRun_gap (doHold (s.heldLow s.currentBit) s) (not_lt.mp hb) s.seq.rep
    · simp only [stepsLeft, hp, State.repsLeft, State.moveTo_seq, State.moveTo_xRetries, doHold_xRetries]
      omega

theorem oneStep_holdGap (hp : s.seq.phase = .holdGap) : ∃ t, sequencerStep s = .next t ∧ OneStep s t := by
  have hrest : restOfRun s = framesOn s.repsLeft (doHold s.heldGap s) := by simp only [restOfRun, hp, gapOn]
  have hstep := sequencerStep_holdGap hp
  split at hstep
  case isTrue hr =>
    have hnext : (s.seq.rep + 1).toNat = s.seq.rep.toNat + 1 := by bv_omega
    refine ⟨_, hstep, .goesOn ?_ ?_⟩
    · rw [restOfRun_firstSymbol _ (by rw [hnext, doHold_xRetries]; exact hr), hrest, hnext, doHold_xRetries,
        State.repsLeft]
    · simp only [stepsLeft, hp, State.repsLeft, State.moveTo_seq, State.moveTo_xRetries, doHold_xRetries, hnext]
      omega
  case isFalse hr =>
    have hnone : s.repsLeft = 0 := Nat.sub_eq_zero_of_le (not_lt.mp hr)
    rw [hnone] at hrest
    exact ⟨_, hstep, .ended (by simp [hp]) rfl (by rw [hrest]; rfl)⟩

end

/-- Every row of the table is one step of what is left. -/
theorem sequencerStep_oneStep {s : State} (hp : s.seq.phase ≠ .idle) :
    ∃ t, sequencerStep s = .next t ∧ OneStep s t := by
  cases hphase : s.seq.phase with
  | idle => exact absurd hphase hp
  | acq => exact oneStep_acq hphase
  | setHi => exact oneStep_setHi hphase
  | holdHi => exact oneStep_holdHi hphase
  | setLo => exact oneStep_setLo hphase
  | holdLo => exact oneStep_holdLo hphase
  | holdGap => exact oneStep_holdGap hphase

/-! The run of the small steps. -/

theorem Ran.quiet {s t : State} (h : Ran s t) (hq : s.Quiet) : t.Quiet := by
  obtain ⟨-, -, -, -, -, -, hfaulted, hprog, -⟩ := h.frame.keeps
  exact ⟨hfaulted.trans hq.1, hprog.trans hq.2⟩

theorem quiet_keptByRun : KeptByRun State.Quiet where
  acq h := (ran_acq _).leads.imp (fun _ r => r.quiet h) (fun _ r => r.quiet h)
  set h l := (ran_set l rfl).leads.imp (fun _ r => r.quiet h) (fun _ r => r.quiet h)
  hold h d := (ran_hold d _).quiet h
  moveTo h _ _ _ := h
  finish h := h

/-- With nothing from the host, the small steps lead to what the rest of the run gives, in at most the steps left. -/
theorem run_eq_restOfRun {s : State} (hq : s.Quiet) :
    ∃ k, k ≤ stepsLeft s ∧ Host.Core.run Sys2Proof.core k s = (restOfRun s).outcome := by
  induction hn : stepsLeft s using Nat.strong_induction_on generalizing s with
  | _ n ih =>
    by_cases hp : s.seq.phase = .idle
    · exact ⟨0, Nat.zero_le _, by rw [restOfRun_idle hp]; rfl⟩
    · obtain ⟨t, ht, hone⟩ := sequencerStep_oneStep hp
      have hstep : step s = .next t := (step_quiet hq hp).trans ht
      have hfewer : stepsLeft t < n := hn ▸ hone.fewer
      obtain ⟨k, hk, hrun⟩ := ih _ hfewer (quiet_keptByRun.sequencerStep_next hq ht) rfl
      exact ⟨k + 1, by omega, by rw [run_succ k hstep, hrun, hone.rest]⟩

/-- Of a legal run at most the acquisition and N repetitions are left (R162). -/
theorem State.Inv.stepsLeft_le {s : State} (h : s.Inv) : stepsLeft s ≤ 1 + 101 * s.xRetries.toNat := by
  have hrep := h.rep
  unfold stepsLeft State.repsLeft
  cases hp : s.seq.phase
  case idle => exact Nat.zero_le _
  case acq => exact (Nat.add_comm _ _).le
  all_goals
    have hr := hrep (by simp [hp]) (by simp [hp])
    dsimp only
    omega

/-- A run completes, with ERR as it was, or takes the failure entry. -/
def Res.Completes (e : Failure) : Res → Prop
  | .ok t => t.busy = false ∧ t.done = true ∧ t.err = e
  | .stopped t => AtFailure t
  | .refused _ => False

theorem Res.Ends.completes {s : State} {r : Res} {f : State → Res} (h : r.Ends s)
    (hf : ∀ t, (f t).Completes t.err) : (r.andThen f).Completes s.err := by
  cases r with
  | ok t =>
    obtain ⟨-, -, herr, -⟩ := h
    exact herr ▸ hf t
  | stopped t => exact h
  | refused why => exact h.elim

theorem framesOn_completes (m : Nat) (s : State) : (framesOn m s).Completes s.err :=
  (ends_frames m s).completes fun _ => ⟨rfl, rfl, rfl⟩

theorem gapOn_completes (m : Nat) (s : State) : (gapOn m s).Completes s.err :=
  doHold_err s s.heldGap ▸ framesOn_completes m (doHold s.heldGap s)

theorem lowHoldOn_completes (b : Bool) (bits : List Bool) (m : Nat) (s : State) :
    (lowHoldOn b bits m s).Completes s.err :=
  doHold_err s (s.heldLow b) ▸ (ends_bits bits (doHold (s.heldLow b) s)).completes (gapOn_completes m)

theorem lowOn_completes (b : Bool) (bits : List Bool) (m : Nat) (s : State) : (lowOn b bits m s).Completes s.err :=
  (ends_set s.xPin .low s).completes (lowHoldOn_completes b bits m)

theorem highHoldOn_completes (b : Bool) (bits : List Bool) (m : Nat) (s : State) :
    (highHoldOn b bits m s).Completes s.err :=
  doHold_err s (s.heldHigh b) ▸ lowOn_completes b bits m (doHold (s.heldHigh b) s)

theorem highOn_completes (b : Bool) (bits : List Bool) (m : Nat) (s : State) : (highOn b bits m s).Completes s.err :=
  (ends_set s.xPin .high s).completes (highHoldOn_completes b bits m)

theorem restOfRun_completes {s : State} (hp : s.seq.phase ≠ .idle) : (restOfRun s).Completes s.err := by
  unfold restOfRun
  split
  case h_1 hidle => exact absurd hidle hp
  case h_2 => exact (ends_acq s).completes fun t => framesOn_completes t.xRetries.toNat t
  case h_3 => exact highOn_completes _ _ _ s
  case h_4 => exact highHoldOn_completes _ _ _ s
  case h_5 => exact lowOn_completes _ _ _ s
  case h_6 => exact lowHoldOn_completes _ _ _ s
  case h_7 => exact gapOn_completes _ s

/-- However a run that began without a failure ends, it is complete or has failed, and not both (R162, R225). -/
theorem Res.Completes.outcome {r : Res} (h : r.Completes .none) :
    ∃ t, r.outcome = .next t ∧ t.busy = false ∧
      ((t.done = true ∧ t.err = .none) ∨ (t.done = false ∧ t.err ≠ .none)) := by
  cases r with
  | ok t =>
    obtain ⟨hbusy, hdone, herr⟩ := h
    exact ⟨t, rfl, hbusy, .inl ⟨hdone, herr⟩⟩
  | stopped t =>
    obtain ⟨hbusy, hdone, herr, -⟩ := h
    exact ⟨t, rfl, hbusy, .inr ⟨hdone, by rcases herr with herr | herr <;> simp [herr]⟩⟩
  | refused why => exact h.elim

/-! Who moves. -/

section
variable {s : State}

/-- An idle block runs the host's program. -/
theorem step_idle (hf : s.faulted = false) (hp : s.seq.phase = .idle) : step s = programStep s := by
  simp [step, machineStep, hf, hp]

/-- At work, with a host operation to come, the input says who moves (log 6). -/
theorem step_hostReady (hf : s.faulted = false) (hp : s.seq.phase ≠ .idle) (hr : s.hostReady = true) :
    step s = if s.turn = .host then programStep s.popTurn else sequencerStep s.popTurn := by
  simp only [step, machineStep, hf, hp, hr, Bool.false_eq_true, if_true, if_false]
  cases s.turn <;> rfl

/-- At work, with none to come, the sequencer moves. -/
theorem step_hostWaits (hf : s.faulted = false) (hp : s.seq.phase ≠ .idle) (hr : s.hostReady = false) :
    step s = sequencerStep s := by
  simp [step, machineStep, hf, hp, hr]

theorem hostReady_of_cons {item : Item} {rest : List Item} {i : Instr} (hprog : s.prog = item :: rest)
    (hd : decode item = .instr i) : s.hostReady = isHostOp i := by
  simp [State.hostReady, hprog, hd]

theorem programStep_nil (hprog : s.prog = []) : programStep s = .next s := by
  simp [programStep, hprog]

theorem programStep_instr {item : Item} {rest : List Item} {i : Instr} (hprog : s.prog = item :: rest)
    (hd : decode item = .instr i) : programStep s = exec i { s with prog := rest } := by
  simp [programStep, hprog, hd]

theorem programStep_rejected {item : Item} {rest : List Item} {why : Reject} (hprog : s.prog = item :: rest)
    (hd : decode item = .rejected why) : programStep s = .refused (.undecodable why) := by
  simp [programStep, hprog, hd]

end

end Sys2Proof.Machine
end

section
/-! SUPPORT. SEND and the loop of BATCH (spec/42_frame_repeater.md R164, R166): one run from a ready block, what a run
leaves for the next one, and the runs of a list of pairs, all ended well or one of them failed. -/

namespace Sys2Proof.Machine

/-! One SEND from a ready block. -/

section
variable {s t : State} {g a v : Nat}

theorem doSend_of_ok (h : s.Ready) (ht : doTransmit (s.sendStart g a v) = .ok t) : doSend g a v s = .ok t := by
  rw [doSend_ready h, waitRun, ht]

theorem doSend_of_stopped (h : s.Ready) (ht : doTransmit (s.sendStart g a v) = .stopped t) :
    doSend g a v s = .stopped t.stopProgram := by
  rw [doSend_ready h, waitRun, ht]

@[simp] theorem sendStart_xRetries : (s.sendStart g a v).xRetries = s.cfgRetries := rfl
@[simp] theorem sendStart_trace : (s.sendStart g a v).trace = s.trace := rfl
@[simp] theorem sendStart_times : (s.sendStart g a v).times = s.times := rfl
@[simp] theorem sendStart_answers : (s.sendStart g a v).answers = s.answers := rfl

/-- What a run acquires does not depend on what it sends. -/
@[simp] theorem sendStart_acqOps : (s.sendStart g a v).acqOps = s.startRun.acqOps := rfl

/-- FRAME and the command registers are those of the pair. -/
def CommandIs (t : State) (g a v : Nat) : Prop :=
  t.frame = encodeFrame g a (v % 2 == 1) ∧ t.cmdGroup.toNat = g % 1024 ∧ t.cmdAddr.toNat = a % 8 ∧
    t.cmdOn.toNat = v % 2

/-- A run leaves the command of its SEND, and the frame it was encoded to. -/
theorem RunFrame.commandIs (h : RunFrame (s.sendStart g a v) t) : CommandIs t g a v := by
  rw [h]
  exact ⟨writeCommand_commandFrame s g a v, BitVec.toNat_ofNat g 10, BitVec.toNat_ofNat a 3, BitVec.toNat_ofNat v 1⟩

/-- A run of SEND with every answer ok (R164). -/
theorem doSend_ok (h : s.Ready) (g a v : Nat)
    (hok : AnswersOk ((s.sendStart g a v).acqOps + 50 * s.cfgRetries.toNat) s) :
    ∃ t, doSend g a v s = .ok t ∧ SentWell s t g a v := by
  obtain ⟨t, ht, htrace, hbusy, hdone, herr, hseq, -, -, -, hline, hothers, -, -, hframe⟩ :=
    doTransmit_ok (s := s.sendStart g a v) (hok.congr rfl)
  obtain ⟨hfr, hgroup, haddr, hon⟩ := hframe.commandIs
  exact ⟨t, doSend_of_ok h ht,
    { frame := hfr, group := hgroup, addr := haddr, on := hon, trace := htrace
      ended := ⟨hbusy, hdone, herr⟩, idle := hseq, others := hothers, rest := hframe
      line := fun hn => (hline fun hc => hn (BitVec.eq_of_toNat_eq hc)).1 }⟩

/-- The program a failed run stopped, put back. -/
theorem stopProgram_restored (h : t.prog = s.prog) : { t.stopProgram with prog := s.prog } = t := by
  rw [← h]
  rfl

end

/-! What a batch leaves as it was. -/

section
variable {s t u : State}

theorem BatchFrame.keeps (h : BatchFrame s t) :
    t.cfgPin = s.cfgPin ∧ t.cfgPinWritten = s.cfgPinWritten ∧ t.cfgRetries = s.cfgRetries ∧ t.cfgGap = s.cfgGap ∧
      t.cfgLatency = s.cfgLatency ∧ t.bitTiming = s.bitTiming ∧ t.prog = s.prog := by
  rw [h]; simp

theorem BatchFrame.trans (h : BatchFrame s t) (k : BatchFrame t u) : BatchFrame s u := by
  rw [BatchFrame] at h k ⊢
  rw [k, h]

theorem RunFrame.batchFrame {g a v : Nat} (h : RunFrame (s.sendStart g a v) t) : BatchFrame s t := by
  rw [BatchFrame, h]
  rfl

theorem batchFrame_recordPause (s : State) (d : Nat) : BatchFrame s (s.recordPause d) := rfl

/-- The repetitions of a pair depend on what no batch changes. -/
theorem BatchFrame.framesEvents (h : BatchFrame s t) (g a v n : Nat) :
    (t.sendStart g a v).framesEvents n = (s.sendStart g a v).framesEvents n := by
  obtain ⟨hpin, -, -, hgap, hlat, htiming, -⟩ := h.keeps
  refine framesEvents_congr n hpin hlat hgap ?_ htiming
  exact (writeCommand_commandFrame t g a v).trans (writeCommand_commandFrame s g a v).symm

/-- With the driver initialised and CFG_PIN configured a run acquires nothing. -/
theorem acquired_startRun (hg : s.gpioInit = true) (hc : s.isConfigured s.cfgPin = true) :
    s.startRun.acqOps = 0 ∧ s.startRun.acqEvents = [] := by
  simp [State.acqOps, State.acqEvents, hg, hc]

end

/-! The runs of a list of pairs, all ended well. -/

/-- The events of a batch: one acquisition, and the repetitions of each pair in order. -/
def State.batchEvents (s : State) (v : Nat) (pairs : List (Nat × Nat)) : List Event :=
  s.startRun.acqEvents ++ pairs.flatMap fun q => (s.sendStart q.1 q.2 v).framesEvents s.cfgRetries.toNat

theorem batchEvents_cons (s : State) (v g a : Nat) (rest : List (Nat × Nat)) :
    s.batchEvents v ((g, a) :: rest) = (s.sendStart g a v).runEvents ++
      rest.flatMap fun q => (s.sendStart q.1 q.2 v).framesEvents s.cfgRetries.toNat := by
  rw [State.batchEvents, List.flatMap_cons, ← List.append_assoc]
  rfl

theorem batchEvents_singleton (s : State) (v g a : Nat) :
    s.batchEvents v [(g, a)] = (s.sendStart g a v).runEvents := by
  rw [batchEvents_cons, List.flatMap_nil, List.append_nil]

/-- Between s and t the pairs were sent, every answer ok; `runs` are the records of their runs, with a pause between
each two (R166, R86). -/
structure BatchSent (s t : State) (v : Nat) (pairs : List (Nat × Nat)) (runs : List (List Timed)) : Prop where
  trace : t.trace = s.trace ++ s.batchEvents v pairs
  ended : t.busy = false ∧ t.done = true ∧ t.err = .none
  times : t.times = s.times ++ List.intercalate [.pause Config.batchPause] runs
  held : runs.map heldOfTimes =
    pairs.map fun q => heldOfTrace ((s.sendStart q.1 q.2 v).framesEvents s.cfgRetries.toNat)
  records : ∀ r ∈ runs, IsRun r
  line : s.cfgRetries ≠ 0 → t.level s.cfgPin = .low
  others : ∀ q, q ≠ s.cfgPin → t.level q = s.level q
  gpio : t.gpioInit = true
  pins : ∀ q, t.isConfigured q = (s.isConfigured q || q == s.cfgPin)
  answers : t.answers.script = s.answers.script.drop (s.startRun.acqOps + 50 * s.cfgRetries.toNat * pairs.length)
  rest : BatchFrame s t

/-- One run is a batch of one pair. -/
theorem doSend_batchSent {s : State} (h : s.Ready) (g a v : Nat)
    (hok : AnswersOk (s.startRun.acqOps + 50 * s.cfgRetries.toNat) s) :
    ∃ t r, doSend g a v s = .ok t ∧ BatchSent s t v [(g, a)] [r] := by
  obtain ⟨t, ht, htrace, hbusy, hdone, herr, -, hgpio, hpins, -, hline, hothers, hanswers, hheld, hframe⟩ :=
    doTransmit_ok (s := s.sendStart g a v) (hok.congr rfl)
  have hrun := doTransmit_runBetween (s.sendStart g a v)
  rw [ht] at hrun
  obtain ⟨r, htimes, hisRun⟩ := hrun
  refine ⟨t, r, doSend_of_ok h ht,
    { trace := ?_, ended := ⟨hbusy, hdone, herr⟩, times := ?_, held := ?_, records := ?_
      line := fun hn => (hline fun hc => hn (BitVec.eq_of_toNat_eq hc)).1
      others := hothers, gpio := hgpio, pins := hpins, answers := ?_, rest := hframe.batchFrame }⟩
  · rw [htrace, batchEvents_singleton, sendStart_trace]
  · rw [htimes, List.intercalate_singleton, sendStart_times]
  · rw [htimes, heldOfTimes_append] at hheld
    simpa using List.append_cancel_left hheld
  · simpa using hisRun
  · simpa using hanswers

section
variable {s t u : State} {v g a : Nat} {r : List Timed} {rest : List (Nat × Nat)}

/-- After a run and the pause that follows it the block is ready for the next one, which has nothing to acquire. -/
theorem BatchSent.ready_again (h : BatchSent s u v [(g, a)] [r]) (hw : s.cfgPinWritten = true) (d : Nat) :
    (u.recordPause d).Ready ∧ (u.recordPause d).startRun.acqOps = 0 ∧ (u.recordPause d).startRun.acqEvents = [] := by
  obtain ⟨hbusy, -⟩ := h.ended
  obtain ⟨hpin, hwritten, -⟩ := h.rest.keeps
  have hc : u.isConfigured u.cfgPin = true := by rw [hpin, h.pins]; simp
  exact ⟨⟨hbusy, hwritten.trans hw⟩, acquired_startRun (s := u.recordPause d) h.gpio hc⟩

/-- The events of a batch are those of its first run, then those of the batch that follows it. -/
theorem BatchSent.batchEvents_cons (h : BatchSent s u v [(g, a)] [r]) (hw : s.cfgPinWritten = true) (d : Nat) :
    s.batchEvents v ((g, a) :: rest) =
      (s.sendStart g a v).runEvents ++ (u.recordPause d).batchEvents v rest := by
  have hframe : BatchFrame s (u.recordPause d) := h.rest.trans (batchFrame_recordPause u d)
  obtain ⟨-, -, hret, -⟩ := hframe.keeps
  obtain ⟨-, -, hacq⟩ := h.ready_again hw d
  rw [Machine.batchEvents_cons, State.batchEvents, hacq, List.nil_append, hret]
  simp only [hframe.framesEvents]

/-- A run, a pause, and the rest of the batch make the whole of it. -/
theorem BatchSent.cons {runs : List (List Timed)} (h : BatchSent s u v [(g, a)] [r]) (hw : s.cfgPinWritten = true)
    (hne : rest ≠ []) (k : BatchSent (u.recordPause Config.batchPause) t v rest runs) :
    BatchSent s t v ((g, a) :: rest) (r :: runs) := by
  have hframe : BatchFrame s (u.recordPause Config.batchPause) := h.rest.trans (batchFrame_recordPause u _)
  obtain ⟨hpin, -, hret, -⟩ := hframe.keeps
  obtain ⟨-, hops, -⟩ := h.ready_again hw Config.batchPause
  have hruns : runs ≠ [] := by
    intro hc
    have hheld := k.held
    rw [hc, List.map_nil] at hheld
    exact hne (List.map_eq_nil_iff.mp hheld.symm)
  exact
    { trace := by
        rw [k.trace, State.recordPause_trace, h.trace, batchEvents_singleton,
          h.batchEvents_cons hw Config.batchPause, List.append_assoc]
      ended := k.ended
      times := by
        obtain ⟨r', runs, rfl⟩ := List.exists_cons_of_ne_nil hruns
        rw [k.times, State.recordPause_times, h.times, List.intercalate_cons_cons]
        simp
      held := by
        have hhead := h.held
        have htail := k.held
        simp only [hret, hframe.framesEvents] at htail
        simp only [List.map_cons, List.map_nil, List.cons.injEq, and_true] at hhead
        rw [List.map_cons, List.map_cons, hhead, htail]
      records := List.forall_mem_cons.mpr ⟨h.records r (List.mem_singleton_self r), k.records⟩
      line := fun hn => by rw [← hpin]; exact k.line (by rwa [hret])
      others := fun q hq => by rw [k.others q (by rwa [hpin]), State.recordPause_level, h.others q hq]
      gpio := k.gpio
      pins := fun q => by rw [k.pins, State.recordPause_isConfigured, h.pins, hpin, Bool.or_assoc, Bool.or_self]
      answers := by
        rw [k.answers, State.recordPause_answers, h.answers, List.drop_drop, hops, hret]
        congr 1
        simp only [List.length_cons, List.length_nil, Nat.mul_add]
        omega
      rest := hframe.trans k.rest }

end

/-- A batch with every answer ok: one run after another (R166). -/
theorem sendPairs_ok (v : Nat) (q : Nat × Nat) (rest : List (Nat × Nat)) {s : State} (h : s.Ready)
    (hok : AnswersOk (s.startRun.acqOps + 50 * s.cfgRetries.toNat * (q :: rest).length) s) :
    ∃ t runs, sendPairs v (q :: rest) s = .ok t ∧ BatchSent s t v (q :: rest) runs := by
  induction rest generalizing q s with
  | nil =>
    obtain ⟨t, r, ht, hsent⟩ := doSend_batchSent h q.1 q.2 v (by simpa using hok)
    exact ⟨t, [r], ht, hsent⟩
  | cons q' rest ih =>
    have hsplit : AnswersOk (s.startRun.acqOps + 50 * s.cfgRetries.toNat +
        50 * s.cfgRetries.toNat * (q' :: rest).length) s := by
      rw [List.length_cons, Nat.mul_succ] at hok
      convert hok using 1
      omega
    obtain ⟨u, r, hu, hsent⟩ := doSend_batchSent h q.1 q.2 v (hsplit.mono (Nat.le_add_right _ _))
    obtain ⟨hready, hops, -⟩ := hsent.ready_again h.2 Config.batchPause
    obtain ⟨-, -, hret, -⟩ := hsent.rest.keeps
    have hrest := hsplit.drop (t := u.recordPause Config.batchPause) (by simpa using hsent.answers)
    obtain ⟨t, runs, ht, hk⟩ := ih q' hready <| by
      rw [hops, State.recordPause_cfgRetries, hret, Nat.zero_add]
      exact hrest
    refine ⟨t, r :: runs, ?_, hsent.cons h.2 (List.cons_ne_nil _ _) hk⟩
    rw [sendPairs_cons, hu, Res.andThen_ok, ht]

/-! Pauses between the runs. -/

theorem IsRun.count_pause {r : List Timed} (h : IsRun r) (d : Nat) : r.count (.pause d) = 0 := by
  obtain ⟨n, rest, rfl, hrest⟩ := h
  refine List.count_eq_zero.mpr fun hm => ?_
  rcases List.mem_cons.mp hm with hc | hc
  · cases hc
  · obtain ⟨l, held, e, hx⟩ := hrest _ hc
    cases hx

theorem count_pause_intercalate (d : Nat) {runs : List (List Timed)} (h : ∀ r ∈ runs, IsRun r) :
    (List.intercalate [.pause d] runs).count (.pause d) = runs.length - 1 := by
  induction runs with
  | nil => rfl
  | cons r runs ih =>
    obtain ⟨hr, hruns⟩ := List.forall_mem_cons.mp h
    cases runs with
    | nil => rw [List.intercalate_singleton, hr.count_pause]; rfl
    | cons r' runs =>
      have hpause : [Timed.pause d].count (.pause d) = 1 := List.count_singleton_self
      rw [List.intercalate_cons_cons, List.count_append, List.count_append, hr.count_pause, ih hruns, hpause]
      simp only [List.length_cons]
      omega

theorem BatchSent.runs_length {s t : State} {v : Nat} {pairs : List (Nat × Nat)} {runs : List (List Timed)}
    (h : BatchSent s t v pairs runs) : runs.length = pairs.length := by
  simpa using congrArg List.length h.held

theorem BatchSent.count_pause {s t : State} {v : Nat} {pairs : List (Nat × Nat)} {runs : List (List Timed)}
    (h : BatchSent s t v pairs runs) :
    t.times.count (.pause Config.batchPause) = s.times.count (.pause Config.batchPause) + (pairs.length - 1) := by
  rw [h.times, List.count_append, count_pause_intercalate _ h.records, h.runs_length]

/-! The runs of a list of pairs, one of them failed. -/

/-- Between s and t the pairs were sent up to the k-th pin operation, which failed: the runs before have happened, the
failing run up to that operation, and there was a pause for each run before it (R166, R196, R197). -/
structure BatchFailed (s t : State) (v : Nat) (pairs : List (Nat × Nat)) (k j : Nat) : Prop where
  trace : ∃ l, t.trace = s.trace ++ l ∧ Before l (s.batchEvents v pairs) k
  failed : t.Failed
  err : t.err = if k < s.startRun.acqOps then .pinInit else .pinWrite
  command : ∃ q, pairs[j]? = some q ∧ CommandIs t q.1 q.2 v
  pauses : t.times.count (.pause Config.batchPause) = s.times.count (.pause Config.batchPause) + j
  level : s.startRun.acqOps ≤ k → t.level s.cfgPin = .unknown
  others : ∀ q, q ≠ s.cfgPin → t.level q = s.level q
  rest : BatchFrame s t

/-- The loop ends with a SEND that stops (R166). -/
theorem sendPairs_of_stopped {s t : State} {g a v : Nat} (h : doSend g a v s = .stopped t) :
    ∀ rest, sendPairs v ((g, a) :: rest) s = .stopped t
  | [] => h
  | q :: rest => by rw [sendPairs_cons, h, Res.andThen_stopped]

/-- The failure lies in the first run. -/
theorem sendPairs_firstFails {s : State} (h : s.Ready) (v g a : Nat) (rest : List (Nat × Nat)) {k : Nat}
    (hk : k < s.startRun.acqOps + 50 * s.cfgRetries.toNat) (hf : FailsAfter k s) :
    ∃ t, sendPairs v ((g, a) :: rest) s = .stopped t.stopProgram ∧ BatchFailed s t v ((g, a) :: rest) k 0 := by
  obtain ⟨t, l, ht, htrace, hbefore, herr, hbusy, hdone, -, -, -, hlevel, hothers, hframe⟩ :=
    doTransmit_fail (s := s.sendStart g a v) hk (hf.congr rfl)
  have hrun := doTransmit_runBetween (s.sendStart g a v)
  rw [ht] at hrun
  obtain ⟨r, htimes, hisRun⟩ := hrun
  refine ⟨t, sendPairs_of_stopped (doSend_of_stopped h ht) rest,
    { trace := ⟨l, htrace, ?_⟩, failed := ⟨hbusy, hdone, ?_⟩, err := herr
      command := ⟨(g, a), rfl, hframe.commandIs⟩, pauses := ?_, level := hlevel, others := hothers
      rest := hframe.batchFrame }⟩
  · rw [batchEvents_cons]
    exact hbefore.append _
  · rw [herr]
    split <;> decide
  · rw [htimes, List.count_append, hisRun.count_pause, sendStart_times]

/-- A run that ended well, a pause, and a batch that failed (R166). -/
theorem BatchFailed.cons {s t u : State} {v g a k j : Nat} {r : List Timed} {rest : List (Nat × Nat)}
    (h : BatchSent s u v [(g, a)] [r]) (hw : s.cfgPinWritten = true)
    (hk : BatchFailed (u.recordPause Config.batchPause) t v rest k j) :
    BatchFailed s t v ((g, a) :: rest) (s.startRun.acqOps + 50 * s.cfgRetries.toNat + k) (j + 1) := by
  have hframe : BatchFrame s (u.recordPause Config.batchPause) := h.rest.trans (batchFrame_recordPause u _)
  obtain ⟨hpin, -⟩ := hframe.keeps
  obtain ⟨-, hops, -⟩ := h.ready_again hw Config.batchPause
  obtain ⟨l, htrace, hbefore⟩ := hk.trace
  have herr := hk.err
  have hcount := h.count_pause
  rw [hops, if_neg (Nat.not_lt_zero k)] at herr
  exact
    { trace := by
        refine ⟨(s.sendStart g a v).runEvents ++ l, ?_, ?_⟩
        · rw [htrace, State.recordPause_trace, h.trace, batchEvents_singleton, List.append_assoc]
        · rw [h.batchEvents_cons hw Config.batchPause]
          exact hbefore.shift _ (runEvents_pinOps _)
      failed := hk.failed
      err := by rw [herr, if_neg (by omega)]
      command := hk.command
      pauses := by
        rw [hk.pauses, State.recordPause_times, List.count_append, hcount, List.count_singleton_self]
        simp only [List.length_singleton]
        omega
      level := fun _ => by rw [← hpin]; exact hk.level (by omega)
      others := fun q hq => by rw [hk.others q (by rwa [hpin]), State.recordPause_level, h.others q hq]
      rest := hframe.trans hk.rest }

/-- The index of the run that the k-th pin operation of a batch belongs to, 0 in the acquisition. -/
def State.runOf (s : State) (k : Nat) : Nat := (k - s.startRun.acqOps) / (50 * s.cfgRetries.toNat)

theorem runOf_first {s : State} {k : Nat} (h : k < s.startRun.acqOps + 50 * s.cfgRetries.toNat) : s.runOf k = 0 := by
  rw [State.runOf, Nat.div_eq_zero_iff]
  omega

/-- A batch whose k-th pin operation is the first to fail (R166, R196). -/
theorem sendPairs_fail (v : Nat) (q : Nat × Nat) (rest : List (Nat × Nat)) {s : State} {k : Nat} (h : s.Ready)
    (hk : k < s.startRun.acqOps + 50 * s.cfgRetries.toNat * (q :: rest).length) (hf : FailsAfter k s) :
    ∃ t, sendPairs v (q :: rest) s = .stopped t.stopProgram ∧ BatchFailed s t v (q :: rest) k (s.runOf k) := by
  induction rest generalizing q s k with
  | nil =>
    have hfirst : k < s.startRun.acqOps + 50 * s.cfgRetries.toNat := by simpa using hk
    rw [runOf_first hfirst]
    exact sendPairs_firstFails h v q.1 q.2 [] hfirst hf
  | cons q' rest ih =>
    by_cases hfirst : k < s.startRun.acqOps + 50 * s.cfgRetries.toNat
    · rw [runOf_first hfirst]
      exact sendPairs_firstFails h v q.1 q.2 (q' :: rest) hfirst hf
    · obtain ⟨k, rfl⟩ := Nat.exists_eq_add_of_le (Nat.not_lt.mp hfirst)
      obtain ⟨u, r, hu, hsent⟩ := doSend_batchSent h q.1 q.2 v (hf.answersOk.mono (Nat.le_add_right _ _))
      obtain ⟨hready, hops, -⟩ := hsent.ready_again h.2 Config.batchPause
      obtain ⟨-, -, hret, -⟩ := hsent.rest.keeps
      rw [List.length_cons, Nat.mul_succ] at hk
      have hpos : 0 < 50 * s.cfgRetries.toNat := by
        refine Nat.pos_of_ne_zero fun hz => ?_
        rw [hz, Nat.zero_mul] at hk
        omega
      have hindex : s.runOf (s.startRun.acqOps + 50 * s.cfgRetries.toNat + k) =
          (u.recordPause Config.batchPause).runOf k + 1 := by
        rw [State.runOf, State.runOf, hops, State.recordPause_cfgRetries, hret, Nat.add_assoc, Nat.add_sub_cancel_left,
          Nat.sub_zero, Nat.add_div_left _ hpos]
      obtain ⟨t, ht, hfailed⟩ := ih q' (k := k) hready
        (by rw [hops, State.recordPause_cfgRetries, hret]; omega)
        (hf.drop (t := u.recordPause Config.batchPause) (by simpa using hsent.answers))
      refine ⟨t, ?_, hindex ▸ hfailed.cons hsent h.2⟩
      rw [sendPairs_cons, hu, Res.andThen_ok, ht]

end Sys2Proof.Machine
end

section
/-! PROOF. The obligations about the frame repeater (spec/42_frame_repeater.md). -/

namespace Sys2Proof.Proofs

open Sys2Proof.Machine

/-- Settles O8: registers 0 to 6 store the value, the others ignore it. -/
theorem wrcfgStores : Obligations.WrcfgStores := by
  refine ⟨fun r v s hr => ?_, fun r v s hr => ?_⟩
  · exact ⟨s.storeReg r v, by rw [exec_wrcfg, doHostWrite_plain v s (by omega), Res.outcome_ok],
      storeReg_regValue s v hr, fun _ => storeReg_regValue_other s v, storeReg_cfgPinWritten s r v,
      storeReg_frame s r v⟩
  · rw [exec_wrcfg, doHostWrite_plain v s (by omega), storeReg_ignored s v (by omega), Res.outcome_ok]

/-- Settles O10: what is read is the register's value, and it goes nowhere but to the read data. -/
theorem rdregReturns : Obligations.RdregReturns := fun r s => ⟨_, exec_rdreg r s, loadReg_toNat s r, rfl⟩

/-- Settles O15, by the driver's answer. -/
theorem drvinitResult : Obligations.DrvinitResult := by
  refine fun s => ⟨fun ha => ?_, fun ha => ?_⟩
  · rw [exec_drvinit, doDrvInit_ok ha, Res.outcome_ok, initOk_eq]
  · rw [exec_drvinit, doDrvInit_fail ha, Res.outcome_stopped, acqFail_eq]

/-- Settles O16, by the driver's answer. -/
theorem cfgoutResult : Obligations.CfgoutResult := by
  refine fun p s => ⟨fun ha => ⟨s.cfgOk p, ?_, cfgOk_isConfigured s p, cfgOk_eq s p⟩, fun ha => ?_⟩
  · rw [exec_cfgout, doCfgOut_ok ha, Res.outcome_ok]
  · rw [exec_cfgout, doCfgOut_fail ha, Res.outcome_stopped, acqFail_eq]

/-- Settles O27: every needed operation answered ok, none needed, the k-th needed one answered fail. -/
theorem acqResult : Obligations.AcqResult := by
  refine ⟨fun s h => ?ok, fun s hg hc => ?done, fun s k hk h => ?fails⟩
  case ok =>
    obtain ⟨t, ht, htrace, hgpio, hconf, -, hrest⟩ := doAcq_ok h
    exact ⟨t, by rw [exec_acq, ht, Res.outcome_ok], htrace, hgpio, hconf, hrest⟩
  case done =>
    rw [exec_acq, doAcq_done hg hc, Res.outcome_ok, State.recordSetup]
  case fails =>
    obtain ⟨t, ht, htrace, hgpio, hrest⟩ := doAcq_fail hk h
    refine ⟨t, by rw [exec_acq, ht, Res.outcome_stopped], htrace, ?_, ?_, ?_, ?_, hgpio, ?_⟩
    · rw [hrest]; exact ⟨rfl, rfl, by simp⟩
    · rw [hrest]
    · rw [hrest]
    · rw [hrest]
    · rw [RunFrame, hrest]

/-- Settles O42: the address of all sockets is 6. -/
theorem allIsSend : Obligations.AllIsSend := fun g v s => by
  rw [exec_all, exec_send, Config.broadcastAddr]

/-- Settles O45: a pause is one more record of time, and no interval. -/
theorem pauseResult : Obligations.PauseResult := by
  refine fun d s => ⟨s.recordPause d, exec_pause d s, ?_, ?_, rfl⟩
  · simp [observedTotal, Timed.observed]
  · rw [State.recordPause_times, heldOfTimes_append, heldOfTimes_pause, List.append_nil]

/-- Settles O56: while BUSY a START and every host operation that gives one only write the command and set FAULTED. -/
theorem noCancellation : Obligations.NoCancellation := fun _ _ _ => exec_busyFrame

/-- Settles O30: the acquisition, the repetitions and the completion, with the events written out. -/
theorem transmitCompletes : Obligations.TransmitCompletes := by
  intro s h
  obtain ⟨t, ht, htrace, hbusy, hdone, herr, hseq, hgpio, hconf, hnone, hsome, hothers, hanswers, -, hframe⟩ :=
    doTransmit_ok h
  refine ⟨t, by rw [exec_transmit, ht, Res.outcome_ok], ?_, hbusy, hdone, herr, hseq, hgpio, hconf, fun hn => ?_,
    fun hn => ?_, hothers, hanswers, hframe⟩
  · exact htrace.trans (List.append_assoc _ _ _).symm
  · exact (hnone (by rw [hn]; rfl)).1
  · exact (hsome fun hc => hn (BitVec.eq_of_toNat_eq hc)).1

/-- Settles O31: each quantity adds up over the blocks, and the acquisition has none of it. -/
theorem repetitionCounts : Obligations.RepetitionCounts := by
  refine ⟨fun s h => ?_, fun s n => ⟨framesEvents_length s n, framesEvents_count_high s n, framesEvents_count_low s n,
    framesEvents_holds s n⟩⟩
  obtain ⟨t, ht, htrace, -⟩ := doTransmit_ok h
  refine ⟨t, s.frameEvents, by rw [exec_transmit, ht, Res.outcome_ok], ?_, ?_, rfl, ?_, ?_, ?_⟩
  · rw [htrace, State.runEvents, List.append_assoc, State.framesEvents]
  · simpa [State.framesEvents] using framesEvents_length s 1
  · simp only [htrace, State.runEvents, List.count_append, acqEvents_count_set, framesEvents_count_high, Nat.zero_add]
  · simp only [htrace, State.runEvents, List.count_append, acqEvents_count_set, framesEvents_count_low, Nat.zero_add]
  · simp only [htrace, State.runEvents, heldOfTrace_append, acqEvents_holds, List.nil_append, List.length_append,
      framesEvents_holds]

/-- Settles O32: with no repetition nothing follows the acquisition. -/
theorem transmitNoRetries : Obligations.TransmitNoRetries := by
  intro s hn h
  have hzero : s.xRetries.toNat = 0 := by rw [hn]; rfl
  obtain ⟨t, ht, htrace, hbusy, hdone, -, -, -, -, hnone, -, -, -, htimes, -⟩ :=
    doTransmit_ok (s := s) (by rw [hzero]; exact h)
  have hframes : s.framesEvents s.xRetries.toNat = [] := by rw [hzero]; rfl
  refine ⟨t, by rw [exec_transmit, ht, Res.outcome_ok], ?_, hbusy, hdone, (hnone hzero).1, ?_⟩
  · rw [htrace, State.runEvents, hframes, List.append_nil]
  · rw [htimes, hframes]
    exact List.append_nil _

/-- Settles O35: what every run keeps, and the two ways in which a transmission ends. -/
theorem transmitFrame : Obligations.TransmitFrame := by
  intro s
  have hran := ran_transmit s
  rcases transmit_ends s with ⟨t, ht, hbusy, -, -, hseq⟩ | ⟨t, ht, hbusy, -, -, hseq, -⟩ <;>
    rw [ht] at hran <;> obtain ⟨hframe, htrace, hothers, hpins, -⟩ := hran
  · exact ⟨t, by rw [exec_transmit, ht, Res.outcome_ok], hbusy, hseq, hframe, htrace, hothers, hpins⟩
  · exact ⟨t, by rw [exec_transmit, ht, Res.outcome_stopped], hbusy, hseq, hframe, htrace, hothers, hpins⟩

/-- Settles O36: each step is one step of what is left of the run, which at the acquisition is all of it. -/
theorem smallStepsEqualBigStep : Obligations.SmallStepsEqualBigStep := by
  intro s hq hseq
  have hrest : restOfRun s = doTransmit s := by simp only [restOfRun, hseq]
  have hsteps : stepsLeft s = 101 * s.xRetries.toNat + 1 := by simp only [stepsLeft, hseq]
  obtain ⟨k, hk, hrun⟩ := run_eq_restOfRun hq
  exact ⟨k, by omega, by rw [hrun, hrest, exec_transmit]⟩

/-- Settles O37: the steps lead to the end of the run, which is a completion or the failure entry. -/
theorem runEnds : Obligations.RunEnds := by
  intro s hinv hq hbusy
  obtain ⟨-, herr⟩ := hinv.clear hbusy
  obtain ⟨t, ht, hend⟩ := (herr ▸ restOfRun_completes (hinv.busy.mp hbusy)).outcome
  obtain ⟨k, hk, hrun⟩ := run_eq_restOfRun hq
  exact ⟨k, t, hk.trans hinv.stepsLeft_le, hrun.trans ht, hend⟩

/-- Settles O38, row by row. -/
theorem smallStepTable : Obligations.SmallStepTable := by
  intro s hq
  have hstep (hp : s.seq.phase ≠ .idle) : step s = sequencerStep s := step_quiet hq hp
  refine ⟨fun hp => ?idle, fun hp h => ?acq, fun hp ha => ?setHi, fun hp => ?holdHi, fun hp ha => ?setLo,
    fun hp => ?holdLo, fun hp => ?holdGap, fun hp ha => ?setFails, fun k hp hk h => ?acqFails⟩
  case idle => rw [step_idle hq.1 hp, programStep_nil hq.2]
  case acq =>
    obtain ⟨t, hd, htrace, -, -, -, hrest⟩ := doAcq_ok h
    have hkeeps : t.levels = s.levels ∧ t.xRetries = s.xRetries ∧ t.busy = s.busy ∧ t.done = s.done := by
      rw [hrest]; simp
    obtain ⟨hlevels, hret, hbusy, hdone⟩ := hkeeps
    rw [hstep (by simp [hp])]
    rcases sequencerStep_acq hp with ⟨u, hu, -, hs⟩ | ⟨u, hu, -⟩
    · obtain rfl : t = u := Res.ok.inj (hd.symm.trans hu)
      refine ⟨_, hs, ?_⟩
      rw [hret]
      split
      case isTrue hz => exact ⟨htrace, hlevels, fun _ => ⟨rfl, rfl, rfl⟩, absurd hz⟩
      case isFalse hz => exact ⟨htrace, hlevels, fun hc => absurd hc hz, fun _ => ⟨rfl, hbusy, hdone⟩⟩
    · cases hd.symm.trans hu
  case setHi =>
    refine ⟨_, (hstep (by simp [hp])).trans (sequencerStep_setHi hp ha), ?_, ?_, rfl, ?_⟩ <;> simp
  case holdHi =>
    refine ⟨_, (hstep (by simp [hp])).trans (sequencerStep_holdHi hp), ?_, ?_, rfl, ?_⟩
    · exact doHold_trace s _
    · exact doHold_levels s (s.heldHigh s.currentBit)
    · exact doHold_busy s (s.heldHigh s.currentBit)
  case setLo =>
    refine ⟨_, (hstep (by simp [hp])).trans (sequencerStep_setLo hp ha), ?_, ?_, rfl, ?_⟩ <;> simp
  case holdLo =>
    have htrace := doHold_trace s (s.heldLow s.currentBit)
    have hlevels := doHold_levels s (s.heldLow s.currentBit)
    have hbusy := doHold_busy s (s.heldLow s.currentBit)
    refine ⟨_, (hstep (by simp [hp])).trans (sequencerStep_holdLo hp), ?_⟩
    split
    case isTrue hb => exact ⟨htrace, hlevels, hbusy, fun _ => rfl, fun hc => by omega⟩
    case isFalse hb => exact ⟨htrace, hlevels, hbusy, fun hc => absurd hc hb, fun _ => rfl⟩
  case holdGap =>
    have htrace := doHold_trace s s.heldGap
    have hlevels := doHold_levels s s.heldGap
    have hbusy := doHold_busy s s.heldGap
    refine ⟨_, (hstep (by simp [hp])).trans (sequencerStep_holdGap hp), ?_⟩
    split
    case isTrue hr => exact ⟨htrace, hlevels, fun _ => ⟨rfl, hbusy⟩, fun hc => by omega⟩
    case isFalse hr => exact ⟨htrace, hlevels, fun hc => absurd hc hr, fun _ => ⟨rfl, rfl, rfl⟩⟩
  case setFails =>
    have hbusy : s.seq.phase ≠ .idle := by rcases hp with hp | hp <;> simp [hp]
    exact ⟨_, (hstep hbusy).trans (sequencerStep_setFail hp ha), State.setFail_seq s _, State.setFail_busy s _,
      State.setFail_err s _, State.setFail_trace s _⟩
  case acqFails =>
    obtain ⟨t, hd, htrace, -, hrest⟩ := doAcq_fail hk h
    rcases sequencerStep_acq hp with ⟨u, hu, -⟩ | ⟨u, hu, -, hs⟩
    · cases hd.symm.trans hu
    · obtain rfl : t = u := Res.stopped.inj (hd.symm.trans hu)
      refine ⟨t, (hstep (by simp [hp])).trans hs, ?_, ?_, ?_, htrace⟩ <;> rw [hrest]

/-- Settles O39: who moves, and what it runs. -/
theorem stepRunsDecoded : Obligations.StepRunsDecoded := by
  refine ⟨fun s item rest i hf hprog hd => ⟨fun hp => ?_, fun hp hi ht => ?_, fun hp hi ht => ?_, fun hp hi => ?_⟩,
    fun s item rest why hf hprog hd hp => ?_, fun s hf hprog hp => ?_, fun s hf hprog hp => step_quiet ⟨hf, hprog⟩ hp,
    fun s t i hi ht => sequencerStep_next_of hi ht⟩
  · rw [step_idle hf hp, programStep_instr hprog hd]
  · rw [step_hostReady hf hp ((hostReady_of_cons hprog hd).trans hi), if_pos ht,
      programStep_instr (s := s.popTurn) hprog hd, State.popTurn]
  · rw [step_hostReady hf hp ((hostReady_of_cons hprog hd).trans hi), ht, if_neg (by decide), State.popTurn]
  · exact step_hostWaits hf hp ((hostReady_of_cons hprog hd).trans hi)
  · rw [step_idle hf hp, programStep_rejected hprog hd]
  · rw [step_idle hf hp, programStep_nil hprog]

/-- Settles O40: the run of a ready block; ON, OFF and ALL are SEND with v or the address given. -/
theorem sendCompletes : Obligations.SendCompletes := by
  refine ⟨fun s g a v h hok => ?send, fun s g a h hok => ?on, fun s g a h hok => ?off, fun s g v h hok => ?all⟩
  case send =>
    obtain ⟨t, ht, hsent⟩ := doSend_ok h g a v hok
    exact ⟨t, by rw [exec_send, ht, Res.outcome_ok], hsent⟩
  case on =>
    obtain ⟨t, ht, hsent⟩ := doSend_ok h g.toNat a.toNat 1 hok
    exact ⟨t, by rw [exec_on, ht, Res.outcome_ok], hsent, hsent.frame⟩
  case off =>
    obtain ⟨t, ht, hsent⟩ := doSend_ok h g.toNat a.toNat 0 hok
    exact ⟨t, by rw [exec_off, ht, Res.outcome_ok], hsent, hsent.frame⟩
  case all =>
    obtain ⟨t, ht, hsent⟩ := doSend_ok h g 6 v hok
    exact ⟨t, by rw [exec_all, Config.broadcastAddr, ht, Res.outcome_ok], hsent⟩

/-- Settles O41: the failed transmission, with the host's program stopped. -/
theorem sendFails : Obligations.SendFails := by
  intro s g a v k h hk hf
  obtain ⟨t, l, ht, -, -, herr, hbusy, hdone, -, -, -, -, hothers, hframe⟩ :=
    doTransmit_fail (s := s.sendStart g a v) hk (hf.congr rfl)
  obtain ⟨-, -, -, -, -, -, -, hprog, -⟩ := hframe.keeps
  have hne : t.err ≠ .none := by rw [herr]; split <;> decide
  refine ⟨t.stopProgram, ?_, ⟨hbusy, hdone, hne⟩, rfl, herr, hothers, ?_⟩
  · rw [exec_send, doSend_of_stopped h ht, Res.outcome_stopped]
  · exact (stopProgram_restored (s := s) hprog).symm ▸ hframe

/-- Settles O43: without pairs nothing happens; otherwise the runs, one after another. -/
theorem batchCompletes : Obligations.BatchCompletes := by
  intro s groups addrs v pairs h hpairs hok
  have hexec : exec (.batch groups addrs v) s = (sendPairs v pairs s).outcome := by rw [hpairs]; rfl
  cases pairs with
  | nil =>
    refine ⟨s, [], hexec, ?_⟩
    simp [BatchFrame]
  | cons q rest =>
    obtain ⟨t, runs, ht, hsent⟩ := sendPairs_ok v q rest h hok
    refine ⟨t, runs, by rw [hexec, ht, Res.outcome_ok], ?_, fun _ => hsent.ended, hsent.times, hsent.held,
      hsent.records, hsent.count_pause, fun hc => absurd hc (List.cons_ne_nil q rest), fun _ => hsent.line,
      hsent.others, hsent.pins, hsent.rest⟩
    rw [if_neg (List.cons_ne_nil q rest), List.append_assoc]
    exact hsent.trace

/-- Settles O44: a SEND from a ready block stopped exactly if it left a failure. -/
theorem batchStopsAtFailure : Obligations.BatchStopsAtFailure := by
  have hstops {s t : State} {g a v : Nat} (rest : List (Nat × Nat)) (h : s.Ready)
      (ht : exec (.send g a v) s = .next t) (he : t.err ≠ .none) :
      sendPairs v ((g, a) :: rest) s = .stopped t := by
    rcases doSend_next h ht with ⟨-, hnone, -⟩ | ⟨hstopped, -⟩
    · exact absurd hnone he
    · exact sendPairs_of_stopped hstopped rest
  refine ⟨fun s t g a v rest h ht he => ?_, fun s t g a v q rest h ht he => ?_, fun s groups addrs v => rfl,
    fun s t g a v groups addrs h ht he => ?_⟩
  · rw [hstops rest h ht he, Res.outcome_stopped]
  · rcases doSend_next h ht with ⟨hok, -⟩ | ⟨-, hne⟩
    · rw [sendPairs_cons, hok, Res.andThen_ok]
      rfl
    · exact absurd he hne
  · rw [exec_batch, batchPairs, List.flatMap_cons, List.map_cons, List.cons_append, hstops _ h ht he,
      Res.outcome_stopped]

/-- Settles O58: the runs before the failing one, and that one up to its failure. -/
theorem batchEarliestFailure : Obligations.BatchEarliestFailure := by
  intro s groups addrs v k j pairs h hpairs hne hk hf hj
  obtain ⟨q, rest, rfl⟩ := List.exists_cons_of_ne_nil hne
  obtain ⟨t, ht, hfailed⟩ := sendPairs_fail v q rest h hk hf
  obtain ⟨l, htrace, e, hprefix, hpin, hcount⟩ := hfailed.trace
  obtain ⟨p, hp, hframe, hgroup, haddr, hon⟩ := hfailed.command
  obtain ⟨-, -, -, -, -, -, hprog⟩ := hfailed.rest.keeps
  subst hj
  refine ⟨t.stopProgram, l, e, p, ?_, htrace, hprefix, hpin, hcount, hfailed.failed, hfailed.err, rfl, hp, hframe,
    hgroup, haddr, hon, hfailed.pauses, hfailed.level, hfailed.others, ?_⟩
  · have hexec : exec (.batch groups addrs v) s = (sendPairs v (q :: rest) s).outcome := by rw [hpairs]; rfl
    rw [hexec, ht, Res.outcome_stopped]
  · exact (stopProgram_restored hprog).symm ▸ hfailed.rest

end Sys2Proof.Proofs
end

section
/-! SUPPORT. The failure entry as the host reads it in STATUS (spec/60_exceptions.md R190, R192, R193, R197). -/

namespace Sys2Proof.Machine

/-- After the failure entry BUSY and DONE are 0, so STATUS is the failure's code in bits 3 and 2 (R33, R197). -/
theorem failed_statusWord (s : State) (f : Failure) (levels : Vector Level 256) :
    { s.failed f with levels := levels }.statusWord = f.code ++ 0#1 ++ 0#1 := rfl

/-- What a failing Set leaves depends on neither the level it was to write nor the line it was for, but for that line's own
level (R193). -/
theorem doSet_failureEntry (p : Pin) (l : Level) {s : State} (ha : s.answer = .fail) :
    ∃ t, (doSet p l s).outcome = .next t ∧ t = { s.failed .pinWrite with levels := t.levels } ∧
      t.level p = .unknown ∧ (∀ q, q ≠ p → t.level q = s.level q) ∧ t.statusWord = 8 := by
  obtain ⟨t, ht, hlevel, hothers, hentry⟩ := (doSet_result p l s).2 ha
  refine ⟨t, ht, hentry, hlevel, hothers, ?_⟩
  rw [hentry, failed_statusWord]
  rfl

end Sys2Proof.Machine
end

section
/-! PROOF. The obligations about the exceptions (spec/60_exceptions.md). -/

namespace Sys2Proof.Proofs

open Sys2Proof.Machine

/-- Settles O33: DRVINIT and CFGOUT leave just the failure entry; SETHI and SETLO are both a Set of the line, whose level is
UNKNOWN beside it. -/
theorem failureEntry : Obligations.FailureEntry := fun s p ha =>
  ⟨⟨s.failed .pinInit, (drvinitResult s).2 ha, rfl, failed_statusWord s .pinInit s.levels⟩,
    ⟨s.failed .pinInit, (cfgoutResult p s).2 ha, rfl, failed_statusWord s .pinInit s.levels⟩,
    doSet_failureEntry p .high ha, doSet_failureEntry p .low ha⟩

/-- Settles O34: the failing operation is one of the acquisition, or a Set of one of the repetitions. -/
theorem earliestFailure : Obligations.EarliestFailure := by
  intro s k hk hf
  obtain ⟨t, l, ht, htrace, ⟨e, hprefix, hpin, hcount⟩, hends⟩ := doTransmit_fail hk hf
  exact ⟨t, l, e, by rw [exec_transmit, ht, Res.outcome_stopped], htrace, hprefix, hpin, hcount, hends⟩

end Sys2Proof.Proofs
end

section
/-! SUPPORT. What SEND and the loop of BATCH keep (spec/42_frame_repeater.md R164, R166): the induction over the operations
they are made of, for what the moves of the host at large do not keep. -/

namespace Sys2Proof.Machine

/-- P is kept by what SEND and BATCH do: the operand writes, a START refused to a run in flight, an accepted one, the
transmission that is waited for, the program's stop after a failure, and the pause between two pairs. -/
structure KeptByMacros (P : State → Prop) : Prop where
  write : ∀ {s : State}, P s → ∀ g a v, P (s.writeCommand g a v)
  fault : ∀ {s : State}, P s → P s.setFaulted
  start : ∀ {s : State}, P s → P s.startRun
  run : ∀ {s : State}, P s → (doTransmit s).Leads P P
  stop : ∀ {s : State}, P s → P s.stopProgram
  pause : ∀ {s : State}, P s → P (s.recordPause Config.batchPause)

namespace KeptByMacros

variable {P : State → Prop} {s : State}

theorem start_leads (h : KeptByMacros P) (hs : P s) : (doStart s).Leads P P := by
  rcases doStart_cases s with ⟨-, hd⟩ | ⟨-, hd⟩ | ⟨-, -, hd⟩ <;> rw [hd]
  · exact h.fault hs
  · exact h.start hs
  · trivial

theorem wait_leads (h : KeptByMacros P) (hs : P s) : (waitRun s).Leads P P := by
  have hrun := h.run hs
  rcases waitRun_ends s with ⟨t, hw, hd, -⟩ | ⟨t, hw, hd, -⟩ <;> rw [hw] <;> rw [hd] at hrun
  · exact hrun
  · exact h.stop (s := t) hrun

theorem send_leads (h : KeptByMacros P) (hs : P s) (g a v : Nat) : (doSend g a v s).Leads P P :=
  (h.start_leads (h.write hs g a v)).andThen fun _ ht => h.wait_leads ht

theorem pairs_leads (h : KeptByMacros P) (v : Nat) :
    ∀ (pairs : List (Nat × Nat)) {s : State}, P s → (sendPairs v pairs s).Leads P P
  | [], _, hs => hs
  | (g, a) :: [], _, hs => h.send_leads hs g a v
  | (g, a) :: q :: rest, _, hs =>
    (h.send_leads hs g a v).andThen fun _ ht => h.pairs_leads v (q :: rest) (h.pause ht)

end KeptByMacros

end Sys2Proof.Machine
end

section
/-! SUPPORT. FAULTED stays set (spec/10_state.md R31; spec/70_reset_and_hazards.md R226): the one operation that writes it
is the START of a busy block, which sets it. -/

namespace Sys2Proof.Machine

/-- A hazard violation has happened (R226). -/
def State.AtHazard (s : State) : Prop := s.faulted = true

namespace State.AtHazard

variable {s t : State}

/-- An operation of the sequencer, whatever the driver answers. -/
theorem leads_of_ran (h : s.AtHazard) {r : Res} (hr : r.All (Ran s)) : r.Leads State.AtHazard State.AtHazard := by
  have hkeeps (t : State) (hran : Ran s t) : t.AtHazard := by
    obtain ⟨-, -, -, -, -, -, hfaulted, -⟩ := hran.frame.keeps
    exact hfaulted.trans h
  exact hr.leads.imp hkeeps hkeeps

theorem set_leads (h : s.AtHazard) (p : Pin) (l : Level) : (doSet p l s).Leads State.AtHazard State.AtHazard := by
  rcases doSet_cases s p l with ⟨-, hd⟩ | ⟨-, hd⟩ <;> rw [hd]
  · exact (State.setOk_faulted s p l).trans h
  · exact (State.setFail_faulted s p).trans h

theorem drvInit_leads (h : s.AtHazard) : (doDrvInit s).Leads State.AtHazard State.AtHazard := by
  cases ha : s.answer with
  | ok => rw [doDrvInit_ok ha]; exact (State.initOk_faulted s).trans h
  | fail => rw [doDrvInit_fail ha]; exact (State.acqFail_faulted s).trans h

theorem cfgOut_leads (h : s.AtHazard) (p : Pin) : (doCfgOut p s).Leads State.AtHazard State.AtHazard := by
  cases ha : s.answer with
  | ok => rw [doCfgOut_ok ha]; exact (State.cfgOk_faulted s p).trans h
  | fail => rw [doCfgOut_fail ha]; exact (State.acqFail_faulted s).trans h

theorem keptByMacros : KeptByMacros State.AtHazard where
  write h _ _ _ := h
  fault _ := rfl
  start h := h
  run h := h.leads_of_ran (ran_transmit _)
  stop h := h
  pause h := h

theorem hostWrite_leads (h : s.AtHazard) (r : RegNum) (v : Nat) :
    (doHostWrite r v s).Leads State.AtHazard State.AtHazard := by
  unfold doHostWrite
  split
  · exact keptByMacros.start_leads h
  · rw [storeReg_frame]
    exact h

/-- Whatever the instruction. -/
theorem exec_next (h : s.AtHazard) {i : Instr} (ht : exec i s = .next t) : t.AtHazard := by
  cases i
  case on g a => exact (keptByMacros.send_leads h g.toNat a.toNat 1).next ht
  case off g a => exact (keptByMacros.send_leads h g.toNat a.toNat 0).next ht
  case bit0 => exact (h.leads_of_ran (ran_symbol false s)).next ht
  case bit1 => exact (h.leads_of_ran (ran_symbol true s)).next ht
  case gap => exact Host.Outcome.next.inj ht ▸ (doHold_faulted s s.heldGap).trans h
  case sethi p => exact (h.set_leads p .high).next ht
  case setlo p => exact (h.set_leads p .low).next ht
  case hold d => exact Host.Outcome.next.inj ht ▸ (doHold_faulted s d).trans h
  case wrcfg r v => exact (h.hostWrite_leads r v).next ht
  case rdreg r => exact Host.Outcome.next.inj ht ▸ h
  case start => exact (keptByMacros.start_leads h).next ht
  case acq => exact (h.leads_of_ran (ran_acq s)).next ht
  case drvinit => exact h.drvInit_leads.next ht
  case cfgout p => exact (h.cfgOut_leads p).next ht
  case transmit => exact (keptByMacros.run h).next ht
  case send g a v => exact (keptByMacros.send_leads h g a v).next ht
  case pause d => exact Host.Outcome.next.inj ht ▸ h
  case batch groups addrs v => exact (keptByMacros.pairs_leads v (batchPairs groups addrs) h).next ht
  case all g v => exact (keptByMacros.send_leads h g Config.broadcastAddr v).next ht

/-- The model's own choice for a run without meaning (log 14). -/
theorem step_fault (h : s.AtHazard) : step s = .fault .meaninglessRun := if_pos h

end State.AtHazard

end Sys2Proof.Machine
end

section
/-! SUPPORT. Durations that add up over a frame, a repetition and a list of them (spec/70_reset_and_hazards.md): the nominal
HIGH time (R233), the held time (R232 to R234), and the time that passes with every overhead the same (R235). -/

namespace Sys2Proof.Machine

/-- A sum over bits, by the number of bits of either value. -/
theorem sum_map_bits (f : Bool → Nat) (bits : List Bool) :
    (bits.map f).sum = f false * bits.count false + f true * bits.count true := by
  induction bits with
  | nil => simp
  | cons b bits ih =>
    cases b <;> simp [ih, Nat.mul_add] <;> omega

theorem heldTotal_append (a b : List Event) : heldTotal (a ++ b) = heldTotal a + heldTotal b := by
  rw [heldTotal, List.map_append, List.sum_append, ← heldTotal, ← heldTotal]

theorem additive_heldTotal : Additive heldTotal := ⟨rfl, heldTotal_append⟩

/-- The held time is the sum of the held durations. -/
theorem heldTotal_eq_sum (es : List Event) : heldTotal es = ((heldOfTrace es).map BitVec.toNat).sum := by
  induction es with
  | nil => rfl
  | cons e es ih =>
    rw [← List.singleton_append, heldTotal_append, heldOfTrace_append, List.map_append, List.sum_append, ih]
    cases e <;> rfl

/-- What is the same in each of some stretches of events adds up to a multiple. -/
theorem Additive.flatMap {α : Type} {m : List Event → Nat} (hm : Additive m) {f : α → List Event} {c : Nat}
    (hf : ∀ x, m (f x) = c) (l : List α) : m (l.flatMap f) = l.length * c := by
  induction l with
  | nil => rw [List.flatMap_nil, hm.nil, List.length_nil, Nat.zero_mul]
  | cons x l ih => rw [List.flatMap_cons, hm.append, hf, ih, List.length_cons, Nat.succ_mul, Nat.add_comm]

theorem acqEvents_heldTotal (s : State) : heldTotal s.acqEvents = 0 := by
  rw [heldTotal_eq_sum, acqEvents_holds]
  rfl

section
variable {s : State}

theorem symbolEvents_held (b : Bool) : heldOfTrace (s.symbolEvents b) = [s.heldHigh b, s.heldLow b] := rfl

/-- The held time of a symbol does not depend on its bit (R127). -/
theorem symbolEvents_heldTotal (hlat : s.xLat.toNat ≤ 250) (b : Bool) :
    heldTotal (s.symbolEvents b) = 1188 - 2 * s.xLat.toNat := by
  have hsum := pulse_high_add_low s.bitTiming b
  obtain ⟨hhigh, hlow⟩ := pulse_ge s.bitTiming b
  rw [heldTotal_eq_sum, symbolEvents_held]
  simp only [List.map_cons, List.map_nil, List.sum_cons, List.sum_nil, heldHigh_toNat, heldLow_toNat]
  omega

theorem gapEvents_heldTotal : heldTotal [.hold s.heldGap] = s.xGap.toNat - s.xLat.toNat := sat_toNat s.xGap s.xLat

/-- The held time of n repetitions when no interval of a symbol saturates (R232). -/
theorem framesEvents_heldTotal (hlat : s.xLat.toNat ≤ 250) (n : Nat) :
    heldTotal (s.framesEvents n) = n * (25 * (1188 - 2 * s.xLat.toNat) + (s.xGap.toNat - s.xLat.toNat)) :=
  (additive_heldTotal.framesEvents _ _ (symbolEvents_heldTotal hlat) gapEvents_heldTotal n).trans (Nat.mul_comm _ _)

/-- The time that passes in a list of events when every hold takes the overhead c beside its held duration (R130). -/
def calibratedTotal (c : Nat) (es : List Event) : Nat := heldTotal es + (heldOfTrace es).length * c

theorem additive_calibratedTotal (c : Nat) : Additive (calibratedTotal c) where
  nil := by simp [calibratedTotal, heldTotal, heldOfTrace]
  append a b := by
    rw [calibratedTotal, heldTotal_append, additive_holds.append, Nat.add_mul, Nat.add_add_add_comm, ← calibratedTotal,
      ← calibratedTotal]

/-- With every overhead the correction, n repetitions take their nominal time, as long as nothing saturates (R234, R235). -/
theorem framesEvents_calibratedTotal (hlat : s.xLat.toNat ≤ 250) (hgap : s.xLat.toNat ≤ s.xGap.toNat) (n : Nat) :
    calibratedTotal s.xLat.toNat (s.framesEvents n) = n * (29700 + s.xGap.toNat) := by
  have hsymbol (b : Bool) : calibratedTotal s.xLat.toNat (s.symbolEvents b) = 1188 := by
    rw [calibratedTotal, symbolEvents_heldTotal hlat, symbolEvents_held, List.length_cons, List.length_singleton]
    omega
  have hhold : calibratedTotal s.xLat.toNat [.hold s.heldGap] = s.xGap.toNat := by
    rw [calibratedTotal, gapEvents_heldTotal, heldOfTrace_hold, List.length_singleton, Nat.one_mul,
      Nat.sub_add_cancel hgap]
  exact ((additive_calibratedTotal _).framesEvents 1188 _ hsymbol hhold n).trans (Nat.mul_comm _ _)

end

end Sys2Proof.Machine
end

section
/-! SUPPORT. What the records of time add up to (spec/41_pulse_transmitter.md R130; spec/70_reset_and_hazards.md R235, R236):
the held durations, the overheads, the setup times and the pauses; and that overheads and setup times are drawn from the
script in order. -/

namespace Sys2Proof.Machine

/-! The parts of a record. -/

/-- The overheads in the records. -/
def epsOfTimes (ts : List Timed) : List Nat :=
  ts.filterMap fun
    | .interval _ _ eps => some eps
    | _ => none

/-- The setup times in the records. -/
def setupsOfTimes (ts : List Timed) : List Nat :=
  ts.filterMap fun
    | .setup t => some t
    | _ => none

/-- The pauses in the records. -/
def pausesOfTimes (ts : List Timed) : List Nat :=
  ts.filterMap fun
    | .pause d => some d
    | _ => none

theorem epsOfTimes_append (a b : List Timed) : epsOfTimes (a ++ b) = epsOfTimes a ++ epsOfTimes b :=
  List.filterMap_append

theorem setupsOfTimes_append (a b : List Timed) : setupsOfTimes (a ++ b) = setupsOfTimes a ++ setupsOfTimes b :=
  List.filterMap_append

theorem pausesOfTimes_append (a b : List Timed) : pausesOfTimes (a ++ b) = pausesOfTimes a ++ pausesOfTimes b :=
  List.filterMap_append

theorem observedTotal_append (a b : List Timed) : observedTotal (a ++ b) = observedTotal a + observedTotal b := by
  rw [observedTotal, List.map_append, List.sum_append, ← observedTotal, ← observedTotal]

/-- Each interval has one held duration and one overhead. -/
theorem epsOfTimes_length (ts : List Timed) : (epsOfTimes ts).length = (heldOfTimes ts).length := by
  induction ts with
  | nil => rfl
  | cons x ts ih =>
    rw [← List.singleton_append, epsOfTimes_append, heldOfTimes_append, List.length_append, List.length_append, ih]
    cases x <;> rfl

/-- The time that passed, by what it passed for. -/
theorem observedTotal_eq (ts : List Timed) :
    observedTotal ts = ((heldOfTimes ts).map BitVec.toNat).sum + (epsOfTimes ts).sum + (setupsOfTimes ts).sum +
      (pausesOfTimes ts).sum := by
  induction ts with
  | nil => rfl
  | cons x ts ih =>
    rw [← List.singleton_append, observedTotal_append, heldOfTimes_append, epsOfTimes_append, setupsOfTimes_append,
      pausesOfTimes_append, ih]
    cases x <;>
      simp [observedTotal, Timed.observed, heldOfTimes, epsOfTimes, setupsOfTimes, pausesOfTimes] <;> omega

/-! Intervals, and the records of a run. -/

theorem IntervalsOnly.setups {ts : List Timed} (h : IntervalsOnly ts) : setupsOfTimes ts = [] :=
  List.filterMap_eq_nil_iff.mpr fun x hx => by obtain ⟨l, d, e, rfl⟩ := h x hx; rfl

theorem IntervalsOnly.pauses {ts : List Timed} (h : IntervalsOnly ts) : pausesOfTimes ts = [] :=
  List.filterMap_eq_nil_iff.mpr fun x hx => by obtain ⟨l, d, e, rfl⟩ := h x hx; rfl

theorem IsRun.setups_length {r : List Timed} (h : IsRun r) : (setupsOfTimes r).length = 1 := by
  obtain ⟨n, rest, rfl, hrest⟩ := h
  show (n :: setupsOfTimes rest).length = 1
  rw [hrest.setups, List.length_singleton]

theorem IsRun.pauses {r : List Timed} (h : IsRun r) : pausesOfTimes r = [] := by
  obtain ⟨n, rest, rfl, hrest⟩ := h
  exact hrest.pauses

/-- The setup time of a transmission is the one drawn at its acquisition; only intervals follow it (log 9). -/
theorem doTransmit_intervals (s : State) :
    (doTransmit s).Leads (IntervalsBetween s.recordSetup) (IntervalsBetween s.recordSetup) := by
  have hacq : (doAcq s).Leads (IntervalsBetween s.recordSetup) (IntervalsBetween s.recordSetup) :=
    ((drvInitIfNeeded_times s.recordSetup).imp (fun _ => .of_times_eq) (fun _ => .of_times_eq)).intervals fun t =>
      (cfgOutIfNeeded_times t.xPin t).imp (fun _ => .of_times_eq) (fun _ => .of_times_eq)
  exact hacq.intervals fun t =>
    (sendFrames_intervals t.xRetries.toNat t).intervals fun u => .of_times_eq (State.finish_times u)

/-! The records of runs with a pause between each two. -/

/-- A part that no pause has is found in the runs alone. -/
theorem filterMap_intercalate {α β : Type} {g : α → Option β} {x : α} (hx : g x = none) (runs : List (List α)) :
    (List.intercalate [x] runs).filterMap g = runs.flatMap (List.filterMap g) := by
  induction runs with
  | nil => rfl
  | cons r runs ih =>
    cases runs with
    | nil => simp
    | cons r' runs =>
      rw [List.intercalate_cons_cons, List.filterMap_append, List.filterMap_append, ih, List.filterMap_cons_none hx,
        List.filterMap_nil, List.append_nil, List.flatMap_cons (x := r)]

theorem setups_intercalate_length (d : Nat) {runs : List (List Timed)} (h : ∀ r ∈ runs, IsRun r) :
    (setupsOfTimes (List.intercalate [.pause d] runs)).length = runs.length := by
  have hone : runs.map (fun r => (setupsOfTimes r).length) = runs.map fun _ => 1 :=
    List.map_congr_left fun r hr => (h r hr).setups_length
  calc (setupsOfTimes (List.intercalate [.pause d] runs)).length
      = (runs.map fun r => (setupsOfTimes r).length).sum :=
        (congrArg List.length (filterMap_intercalate rfl runs)).trans List.length_flatMap
    _ = (runs.map fun _ => 1).sum := by rw [hone]
    _ = runs.length := by simp

theorem pauses_intercalate (d : Nat) {runs : List (List Timed)} (h : ∀ r ∈ runs, IsRun r) :
    pausesOfTimes (List.intercalate [.pause d] runs) = List.replicate (runs.length - 1) d := by
  induction runs with
  | nil => rfl
  | cons r runs ih =>
    obtain ⟨hr, hruns⟩ := List.forall_mem_cons.mp h
    cases runs with
    | nil => rw [List.intercalate_singleton, hr.pauses]; rfl
    | cons r' runs =>
      rw [List.intercalate_cons_cons, pausesOfTimes_append, pausesOfTimes_append, hr.pauses, ih hruns]
      rfl

/-! The draws. -/

/-- From s to t overheads and setup times were drawn from the script in order: what was scripted at s is, in that order,
what was recorded since and what is scripted still. Past the script's end the values are free. -/
structure Draws (s t : State) : Prop where
  eps : epsOfTimes s.times ++ s.eps.script <+: epsOfTimes t.times ++ t.eps.script
  setups : setupsOfTimes s.times ++ s.setups.script <+: setupsOfTimes t.times ++ t.setups.script

theorem Draws.trans {s t u : State} (h : Draws s t) (k : Draws t u) : Draws s u :=
  ⟨h.eps.trans k.eps, h.setups.trans k.setups⟩

theorem Draws.of_eq {s t : State} (htimes : t.times = s.times) (heps : t.eps = s.eps) (hsetups : t.setups = s.setups) :
    Draws s t := by
  constructor
  · rw [htimes, heps]
  · rw [htimes, hsetups]

theorem script_prefix_draw {α : Type} (free : Nat → α) (x : Stream α) : x.script <+: x.head free :: x.tail.script := by
  rcases x with ⟨_ | ⟨v, l⟩, n⟩
  · exact List.nil_prefix
  · exact List.prefix_refl _

theorem draws_hold (d : Dur) (s : State) : Draws s (doHold d s) := by
  constructor
  · rw [doHold_times, doHold_eps, epsOfTimes_append, List.append_assoc]
    exact (List.prefix_append_right_inj _).mpr (script_prefix_draw Config.freeEps s.eps)
  · rw [doHold_times, doHold_setups, setupsOfTimes_append]
    simp [setupsOfTimes]

theorem draws_recordSetup (s : State) : Draws s s.recordSetup := by
  constructor
  · rw [State.recordSetup_times, State.recordSetup_eps, epsOfTimes_append]
    simp [epsOfTimes]
  · rw [State.recordSetup_times, State.recordSetup_setups, setupsOfTimes_append, List.append_assoc]
    exact (List.prefix_append_right_inj _).mpr (script_prefix_draw Config.freeSetup s.setups)

theorem draws_recordPause (s : State) (d : Nat) : Draws s (s.recordPause d) := by
  constructor
  · rw [State.recordPause_times, State.recordPause_eps, epsOfTimes_append]
    simp [epsOfTimes]
  · rw [State.recordPause_times, State.recordPause_setups, setupsOfTimes_append]
    simp [setupsOfTimes]

theorem draws_set (p : Pin) (l : Level) (s : State) : (doSet p l s).Leads (Draws s) (Draws s) := by
  rcases doSet_cases s p l with ⟨-, h⟩ | ⟨-, h⟩ <;> rw [h]
  · exact .of_eq (State.setOk_times s p l) (State.setOk_eps s p l) (State.setOk_setups s p l)
  · exact .of_eq (State.setFail_times s p) (State.setFail_eps s p) (State.setFail_setups s p)

theorem draws_acqFail (s : State) : Draws s s.acqFail :=
  .of_eq (State.acqFail_times s) (State.acqFail_eps s) (State.acqFail_setups s)

theorem draws_drvInit (s : State) : (drvInitIfNeeded s).Leads (Draws s) (Draws s) := by
  rcases drvInitIfNeeded_cases s with ⟨-, h⟩ | ⟨-, -, h⟩ | ⟨-, -, h⟩ <;> rw [h]
  · exact .of_eq rfl rfl rfl
  · exact .of_eq (State.initOk_times s) (State.initOk_eps s) (State.initOk_setups s)
  · exact draws_acqFail s

theorem draws_cfgOut (p : Pin) (s : State) : (cfgOutIfNeeded p s).Leads (Draws s) (Draws s) := by
  rcases cfgOutIfNeeded_cases s p with ⟨-, h⟩ | ⟨-, -, h⟩ | ⟨-, -, h⟩ <;> rw [h]
  · exact .of_eq rfl rfl rfl
  · exact .of_eq (State.cfgOk_times s p) (State.cfgOk_eps s p) (State.cfgOk_setups s p)
  · exact draws_acqFail s

theorem draws_acq (s : State) : (doAcq s).Leads (Draws s) (Draws s) :=
  ((draws_drvInit s.recordSetup).imp (fun _ => (draws_recordSetup s).trans)
    (fun _ => (draws_recordSetup s).trans)).andThen fun t ht =>
      (draws_cfgOut t.xPin t).imp (fun _ => ht.trans) (fun _ => ht.trans)

theorem draws_keptByRun (s₀ : State) : KeptByRun (Draws s₀) where
  acq h := (draws_acq _).imp (fun _ => h.trans) (fun _ => h.trans)
  set h l := (draws_set _ l _).imp (fun _ => h.trans) (fun _ => h.trans)
  hold h d := h.trans (draws_hold d _)
  moveTo h _ _ _ := h.trans (.of_eq rfl rfl rfl)
  finish h := h.trans (.of_eq rfl rfl rfl)

theorem draws_keptByMacros (s₀ : State) : KeptByMacros (Draws s₀) where
  write h _ _ _ := h.trans (.of_eq rfl rfl rfl)
  fault h := h.trans (.of_eq rfl rfl rfl)
  start h := h.trans (.of_eq rfl rfl rfl)
  run h := (draws_keptByRun s₀).transmit_leads h
  stop h := h.trans (.of_eq rfl rfl rfl)
  pause h := h.trans (draws_recordPause _ _)

/-! The records of a calibrated stretch. -/

/-- What a list begins with is read off a longer one. -/
theorem eq_of_prefix_append {α : Type} {l a b c : List α} (h : l <+: a ++ b) (hc : l.take a.length = c)
    (hlen : c.length = a.length) : a = c := by
  have hprefix : c <+: a := by simpa [hc] using h.take a.length
  exact (hprefix.eq_of_length hlen).symm

section
variable {s t : State} {ts : List Timed}

theorem Draws.eps_recorded (h : Draws s t) (hts : t.times = s.times ++ ts) :
    s.eps.script <+: epsOfTimes ts ++ t.eps.script := by
  have heps := h.eps
  rwa [hts, epsOfTimes_append, List.append_assoc, List.prefix_append_right_inj] at heps

theorem Draws.setups_recorded (h : Draws s t) (hts : t.times = s.times ++ ts) :
    s.setups.script <+: setupsOfTimes ts ++ t.setups.script := by
  have hsetups := h.setups
  rwa [hts, setupsOfTimes_append, List.append_assoc, List.prefix_append_right_inj] at hsetups

/-- The time that passed in a stretch with every overhead c: that of its events, its setup times and its pauses (R235). -/
theorem Draws.observed {es : List Event} {c : Nat} (h : Draws s t) (hts : t.times = s.times ++ ts)
    (hheld : heldOfTimes ts = heldOfTrace es)
    (heps : s.eps.script.take (heldOfTrace es).length = List.replicate (heldOfTrace es).length c) :
    observedTotal ts = calibratedTotal c es + (setupsOfTimes ts).sum + (pausesOfTimes ts).sum := by
  have hlen : (epsOfTimes ts).length = (heldOfTrace es).length := by rw [epsOfTimes_length, hheld]
  have hdrawn : epsOfTimes ts = List.replicate (heldOfTrace es).length c :=
    eq_of_prefix_append (h.eps_recorded hts) (hlen ▸ heps) (by rw [List.length_replicate, hlen])
  rw [observedTotal_eq, hheld, ← heldTotal_eq_sum, hdrawn, List.sum_replicate, smul_eq_mul, ← calibratedTotal]

end

/-- A transmission in the calibrated case (R235). -/
theorem doTransmit_observed {s : State} (hok : AnswersOk (s.acqOps + 50 * s.xRetries.toNat) s)
    (heps : s.eps.script.take (51 * s.xRetries.toNat) = List.replicate (51 * s.xRetries.toNat) s.xLat.toNat)
    (hlat : s.xLat.toNat ≤ 250) (hgap : s.xLat.toNat ≤ s.xGap.toNat) :
    ∃ t, doTransmit s = .ok t ∧ observedTotal t.times =
      observedTotal s.times + s.nextSetup + s.xRetries.toNat * (29700 + s.xGap.toNat) := by
  obtain ⟨t, ht, -, -, -, -, -, -, -, -, -, -, -, hheld, -⟩ := doTransmit_ok hok
  have hdraws : (doTransmit s).Leads (Draws s) (Draws s) := (draws_keptByRun s).transmit_leads (.of_eq rfl rfl rfl)
  have hintervals := doTransmit_intervals s
  rw [ht] at hdraws hintervals
  obtain ⟨rest, htimes, hrest⟩ := hintervals
  rw [State.recordSetup_times, List.append_assoc] at htimes
  rw [htimes, heldOfTimes_append, List.append_cancel_left_eq] at hheld
  have hsetups : setupsOfTimes ([.setup s.nextSetup] ++ rest) = [s.nextSetup] := by
    rw [setupsOfTimes_append, hrest.setups]; rfl
  have hpauses : pausesOfTimes ([.setup s.nextSetup] ++ rest) = [] := by
    rw [pausesOfTimes_append, hrest.pauses]; rfl
  have hobs := Draws.observed (c := s.xLat.toNat) hdraws htimes hheld (by rwa [framesEvents_holds])
  refine ⟨t, ht, ?_⟩
  rw [htimes, observedTotal_append, hobs, framesEvents_calibratedTotal hlat hgap, hsetups, hpauses, List.sum_singleton,
    List.sum_nil]
  omega

/-- The repetitions of a list of pairs, in order. -/
def State.pairsEvents (s : State) (v : Nat) (pairs : List (Nat × Nat)) : List Event :=
  pairs.flatMap fun q => (s.sendStart q.1 q.2 v).framesEvents s.cfgRetries.toNat

theorem pairsEvents_holds (s : State) (v : Nat) (pairs : List (Nat × Nat)) :
    (heldOfTrace (s.pairsEvents v pairs)).length = 51 * s.cfgRetries.toNat * pairs.length :=
  (additive_holds.flatMap (fun q : Nat × Nat => framesEvents_holds (s.sendStart q.1 q.2 v) s.cfgRetries.toNat)
    pairs).trans (Nat.mul_comm _ _)

/-- With every overhead the correction, the repetitions of each pair take their nominal time (R236). -/
theorem pairsEvents_calibratedTotal {s : State} (hlat : s.cfgLatency.toNat ≤ 250)
    (hgap : s.cfgLatency.toNat ≤ s.cfgGap.toNat) (v : Nat) (pairs : List (Nat × Nat)) :
    calibratedTotal s.cfgLatency.toNat (s.pairsEvents v pairs) =
      pairs.length * (s.cfgRetries.toNat * (29700 + s.cfgGap.toNat)) := by
  have hpair (q : Nat × Nat) : calibratedTotal s.cfgLatency.toNat
      ((s.sendStart q.1 q.2 v).framesEvents s.cfgRetries.toNat) = s.cfgRetries.toNat * (29700 + s.cfgGap.toNat) :=
    framesEvents_calibratedTotal (s := s.sendStart q.1 q.2 v) hlat hgap s.cfgRetries.toNat
  exact (additive_calibratedTotal _).flatMap hpair pairs

/-- The records of a batch hold the held durations of its repetitions. -/
theorem BatchSent.heldOfTimes_eq {s t : State} {v : Nat} {pairs : List (Nat × Nat)} {runs : List (List Timed)}
    (h : BatchSent s t v pairs runs) :
    heldOfTimes (List.intercalate [.pause Config.batchPause] runs) = heldOfTrace (s.pairsEvents v pairs) := by
  calc heldOfTimes (List.intercalate [.pause Config.batchPause] runs)
      = (runs.map heldOfTimes).flatten := filterMap_intercalate rfl runs
    _ = (pairs.map fun q => heldOfTrace ((s.sendStart q.1 q.2 v).framesEvents s.cfgRetries.toNat)).flatten :=
        congrArg List.flatten h.held
    _ = heldOfTrace (s.pairsEvents v pairs) := (List.filterMap_flatMap ..).symm

/-- A batch in the calibrated case (R236). -/
theorem BatchSent.observed {s t : State} {v : Nat} {pairs : List (Nat × Nat)} {runs : List (List Timed)}
    {setups : List Nat} (h : BatchSent s t v pairs runs) (hdraws : Draws s t)
    (heps : s.eps.script.take (51 * s.cfgRetries.toNat * pairs.length) =
      List.replicate (51 * s.cfgRetries.toNat * pairs.length) s.cfgLatency.toNat)
    (hlen : setups.length = pairs.length) (hsetups : s.setups.script.take pairs.length = setups)
    (hlat : s.cfgLatency.toNat ≤ 250) (hgap : s.cfgLatency.toNat ≤ s.cfgGap.toNat) :
    observedTotal t.times = observedTotal s.times + setups.sum +
      pairs.length * (s.cfgRetries.toNat * (29700 + s.cfgGap.toNat)) + (pairs.length - 1) * Config.batchPause := by
  have hruns : runs.length = pairs.length := h.runs_length
  have hdrawn : setupsOfTimes (List.intercalate [.pause Config.batchPause] runs) = setups := by
    have hcount := (setups_intercalate_length Config.batchPause h.records).trans hruns
    exact eq_of_prefix_append (hdraws.setups_recorded h.times) (hcount ▸ hsetups) (hlen.trans hcount.symm)
  have hobs := hdraws.observed (c := s.cfgLatency.toNat) h.times h.heldOfTimes_eq (by rwa [pairsEvents_holds])
  rw [h.times, observedTotal_append, hobs, pairsEvents_calibratedTotal hlat hgap, hdrawn,
    pauses_intercalate _ h.records, hruns, List.sum_replicate, smul_eq_mul]
  omega

end Sys2Proof.Machine
end

section
/-! PROOF. The obligations about hazards and the timing figures (spec/70_reset_and_hazards.md). -/

namespace Sys2Proof.Proofs

open Sys2Proof.Machine

/-- Settles O12: of all operations only the START of a busy block writes FAULTED, and it sets it. -/
theorem faultedForever : Obligations.FaultedForever := by
  obtain ⟨-, -, hbusy, -⟩ := startBegins
  exact ⟨hbusy, fun _ _ _ ht hs => State.AtHazard.exec_next hs ht, fun _ => State.AtHazard.step_fault⟩

/-- Settles O52: the held time adds up over the repetitions, and the acquisition holds nothing. -/
theorem heldTime : Obligations.HeldTime := by
  refine ⟨fun s hlat _ hok => ?_, fun s n hlat _ => framesEvents_heldTotal hlat n⟩
  obtain ⟨t, ht, htrace, -⟩ := doTransmit_ok hok
  refine ⟨t, by rw [exec_transmit, ht, Res.outcome_ok], ?_⟩
  rw [htrace, heldTotal_append, State.runEvents, heldTotal_append, acqEvents_heldTotal, Nat.zero_add,
    framesEvents_heldTotal hlat]

/-- Settles O53: the run's setup time, and the nominal time of each repetition. -/
theorem observedTime : Obligations.ObservedTime := by
  intro s hok heps hlat hgap
  obtain ⟨t, ht, hobserved⟩ := doTransmit_observed hok heps hlat hgap
  exact ⟨t, by rw [exec_transmit, ht, Res.outcome_ok], hobserved⟩

/-- Settles O54: the runs of the batch, their setup times drawn in order, and the pauses between them. -/
theorem batchTime : Obligations.BatchTime := by
  intro s groups addrs v m setups h hm hok heps hlen hsetups hlat hgap
  have hpairs : (batchPairs groups addrs).length = m := (List.length_product groups addrs).trans hm.symm
  have hexec := exec_batch groups addrs v s
  subst hpairs
  cases hp : batchPairs groups addrs with
  | nil =>
    rw [hp] at hexec hlen
    obtain rfl : setups = [] := List.eq_nil_of_length_eq_zero hlen
    exact ⟨s, hexec, by simp⟩
  | cons q rest =>
    rw [hp] at hexec hok heps hlen hsetups
    obtain ⟨t, runs, ht, hsent⟩ := sendPairs_ok v q rest h hok
    have hdraws := (draws_keptByMacros s).pairs_leads v (q :: rest) (s := s) (.of_eq rfl rfl rfl)
    rw [ht] at hdraws
    exact ⟨t, by rw [hexec, ht, Res.outcome_ok], hsent.observed hdraws heps hlen hsetups hlat hgap⟩

/-- Settles O55: a sum over the bits of the frame, whose ones are counted in the frame's shape. -/
theorem frameHighTime : Obligations.FrameHighTime := by
  rintro g a on z w rfl rfl
  obtain ⟨-, -, -, -, -, -, hfewest, hmost⟩ := frameShape.1 g a on
  exact ⟨by rw [List.count_false_add_count_true, frameBits_length], hfewest, hmost,
    sum_map_bits (fun b => (pulse .standard b).high.toNat) _, sum_map_bits (fun b => (pulse .swapped b).high.toNat) _⟩

end Sys2Proof.Proofs
end
